-- ==== Sys2Proof/Word.lean ====
section
/-! DEFINITION. The word types of CORE: 32-bit limbs and command words (R10, R20, R55), 8-bit bytes
(R43, R58), and register numbers (R59). -/

namespace Sys2Proof

/-- One 32-bit limb, or one word of the command stream (R20, R55). -/
abbrev Word := BitVec 32

/-- One byte: a digit of `DPARSE` (R58), a byte of the exchange record (R43). -/
abbrev Byte := BitVec 8

/-- A register number 0..31 (R41, R59). -/
abbrev Reg := Fin 32

/-- The `n` field of format R: limb count minus one, 0..7, of which 6 and 7 are illegal (R56, R59). -/
abbrev LimbField := Fin 8

end Sys2Proof
end

