-- ==== Sys2Proof/Machine/ByteOrder.lean ====
section
/-! DEFINITION. Little-endian packing of bytes into words (R45), used by the digit words of `DPARSE` (R58)
and by the 16-byte exchange record (R43, R44). -/

namespace Sys2Proof

/-- The word whose bytes are `b0` (bits 7:0) to `b3` (bits 31:24) (R45). -/
def wordOfBytes (b0 b1 b2 b3 : Byte) : Word :=
  BitVec.ofNat 32 (b3.toNat * 2 ^ 24 + b2.toNat * 2 ^ 16 + b1.toNat * 2 ^ 8 + b0.toNat)

/-- The four bytes of a word, the least significant first (R45). -/
def bytesOfWord (x : Word) : List Byte :=
  [BitVec.ofNat 8 x.toNat, BitVec.ofNat 8 (x.toNat / 2 ^ 8), BitVec.ofNat 8 (x.toNat / 2 ^ 16),
    BitVec.ofNat 8 (x.toNat / 2 ^ 24)]

/-- Bytes packed four to a word, the last word padded with zero bytes (R58). -/
def packBytes : List Byte → List Word
  | [] => []
  | [a] => [wordOfBytes a 0 0 0]
  | [a, b] => [wordOfBytes a b 0 0]
  | [a, b, c] => [wordOfBytes a b c 0]
  | a :: b :: c :: d :: rest => wordOfBytes a b c d :: packBytes rest

/-- The bytes of a list of words, in order. -/
def unpackBytes (ws : List Word) : List Byte := ws.flatMap bytesOfWord

end Sys2Proof
end

