-- ==== Sys2Proof/Config.lean ====
section
/-! DEFINITION. The constants of CORE: the parameters DS states (R9) and those of the spec's rendering (R10).
The spec leaves no parameter open (R11), so this file declares no free value. -/

namespace Sys2Proof.Config

/-- `2^MANT_BITS`: every mantissa is below it (R9, R25). -/
abbrev mantLimit : Nat := 2 ^ 96

/-- `SCALE_MAX`, the largest legal scale (R9, R25). -/
abbrev scaleMax : Nat := 28

/-- `NREG`, the number of limb registers (R10). -/
abbrev nreg : Nat := 32

/-- `REDUCE_MAX_POW`: one reduction step divides by at most `10^9` (R9). -/
abbrev reduceMaxPow : Nat := 9

/-- `SEARCH_MAX_POW`: the scale search returns a power of at most `10^19` (R9). -/
abbrev searchMaxPow : Nat := 19

/-- `PARSE_TIE_WINDOW`: digits scanned after a `5` to decide an exact half (R9). -/
abbrev parseTieWindow : Nat := 20

/-- `PARSE_LEN_MAX`: the largest digit count of one `DPARSE` (R10). -/
abbrev parseLenMax : Nat := 32767

/-- `MAX_PRECISION`: the number of decimal digits of `2^96 - 1` (R10). -/
abbrev maxPrecision : Nat := 29

/-- The index of the last limb of the 6-limb magnitude window (R29, R126). -/
abbrev hiMax : Nat := 5

/-- `LOG10_2_NUM`, the numerator of the approximation 77/256 of log10(2) (R9). -/
abbrev log10TwoNum : Nat := 77

/-- `LOG10_2_DEN`, its denominator (R9). -/
abbrev log10TwoDen : Nat := 256

end Sys2Proof.Config
end

