-- ==== Sys2Proof/Syntax.lean ====
section
/-! DEFINITION. The commands of CORE, one constructor for each row of spec/opcode_table.json (R61, R62).
Register operands stand in the order of the assembler syntax (R74): destinations, then sources. -/

namespace Sys2Proof

/-- One decoded command (R61). An operand `n` is the field's value, so the group has `n + 1` limbs (R59). -/
inductive Instr where
  /-- `ADD.n rd, ra, rb` (R81). -/
  | add (n : LimbField) (rd ra rb : Reg)
  /-- `ADC.n rd, ra, rb` (R82). -/
  | adc (n : LimbField) (rd ra rb : Reg)
  /-- `SUB.n rd, ra, rb` (R83). -/
  | sub (n : LimbField) (rd ra rb : Reg)
  /-- `SBB.n rd, ra, rb` (R84). -/
  | sbb (n : LimbField) (rd ra rb : Reg)
  /-- `NEG.n rd, ra` (R85). -/
  | neg (n : LimbField) (rd ra : Reg)
  /-- `MUL32 rd, ra, rb` (R90). -/
  | mul32 (rd ra rb : Reg)
  /-- `MUL64X32 rd, ra, rb` (R91). -/
  | mul64x32 (rd ra rb : Reg)
  /-- `MUL64 rd, ra, rb` (R92). -/
  | mul64 (rd ra rb : Reg)
  /-- `DIV64BY32 rd, rc, ra, rb`: quotient, remainder, dividend, divisor (R104). -/
  | div64by32 (rd rc ra rb : Reg)
  /-- `DIV128BY64 rd, rc, ra, rb` (R105). -/
  | div128by64 (rd rc ra rb : Reg)
  /-- `DIV96BY32 rd, rc, ra, rb` (R106). -/
  | div96by32 (rd rc ra rb : Reg)
  /-- `DIV128BY96 rd, rc, ra, rb` (R107). -/
  | div128by96 (rd rc ra rb : Reg)
  /-- `DIV160BY96 rd, rc, ra, rb` (R108). -/
  | div160by96 (rd rc ra rb : Reg)
  /-- `DIV96BY64 rd, rc, ra, rb` (R109). -/
  | div96by64 (rd rc ra rb : Reg)
  /-- `MSB32 rd, ra` (R115). -/
  | msb32 (rd ra : Reg)
  /-- `MSB64 rd, ra` (R116). -/
  | msb64 (rd ra : Reg)
  /-- `LZC32 rd, ra` (R117). -/
  | lzc32 (rd ra : Reg)
  /-- `LZC64 rd, ra` (R118). -/
  | lzc64 (rd ra : Reg)
  /-- `SHL128 rd, ra, rb` with the count in `rb` (R119). -/
  | shl128 (rd ra rb : Reg)
  /-- `REDUCE rd, ra, rb, rc`: window, `hi` register, budget, output pair (R127). -/
  | reduce (rd ra rb rc : Reg)
  /-- `REDUCE.ACC rd, ra, rb, rc` (R128). -/
  | reduceAcc (rd ra rb rc : Reg)
  /-- `REDUCE.CLR rd, ra, rb, rc` (R129). -/
  | reduceClr (rd ra rb rc : Reg)
  /-- `SCALERES rd, ra, rb`: window, `hi` register, scale register (R138). -/
  | scaleres (rd ra rb : Reg)
  /-- `RNDHE.n rd, ra, rb`: quotient, remainder, divisor (R131). -/
  | rndhe (n : LimbField) (rd ra rb : Reg)
  /-- `RNDHE.S.n rd, ra, rb` (R132). -/
  | rndheS (n : LimbField) (rd ra rb : Reg)
  /-- `DMUL rd, ra, rb` (R151). -/
  | dmul (rd ra rb : Reg)
  /-- `DADD rd, ra, rb` (R161). -/
  | dadd (rd ra rb : Reg)
  /-- `DSUB rd, ra, rb` (R162). -/
  | dsub (rd ra rb : Reg)
  /-- `DDIV rd, ra, rb` (R177). -/
  | ddiv (rd ra rb : Reg)
  /-- `DPARSE rd, ra, sgn, digits`: the digits as ASCII bytes, first digit first (R58, R197). -/
  | dparse (rd ra : Reg) (sgn : Bool) (digits : List Byte)
  /-- `LI rd, imm32` (R216). -/
  | li (rd : Reg) (imm : Word)
  /-- `RD ra` (R217). -/
  | rdReg (ra : Reg)
deriving DecidableEq, Repr

end Sys2Proof
end

