-- ==== Sys2Proof/Machine/Operands.lean ====
section
/-! DEFINITION. The operand forms of every command: which register groups it names, of what size, and in
which direction (R62), and the conditions on them that make a command illegal (R70 c, e, f, g; R71).
All of it is a function of the command alone, never of register contents (R70). -/

namespace Sys2Proof

/-- A group of `size` consecutive registers from `base` (R23). -/
structure Group where
  base : Nat
  size : Nat
deriving DecidableEq, Repr

/-- The group holds register number `k`. -/
def Group.holds (g : Group) (k : Nat) : Bool := decide (g.base ≤ k ∧ k < g.base + g.size)

/-- The group stays within `w0 .. w31` (R23, R70 e). -/
def Group.fits (g : Group) : Bool := decide (g.base + g.size ≤ Config.nreg)

/-- The two groups share a register number (R71). -/
def Group.meets (g h : Group) : Bool := decide (g.base < h.base + h.size ∧ h.base < g.base + g.size)

/-- The limb count a field value stands for (R59). -/
def limbs (n : LimbField) : Nat := n.val + 1

/-- The registers of the group, lowest first. -/
def Group.regs (g : Group) : List Nat := List.range' g.base g.size

/-- The size of the magnitude window of `REDUCE` and `SCALERES` (R62, R126). -/
def windowSize : Nat := 6

/-- The size of a Decimal group (R26). -/
def decimalSize : Nat := 4

/-- The destination groups, "out" and "io" in R62's table (R71). -/
def Instr.dests : Instr → List Group
  | .add n rd _ _ => [⟨rd, limbs n⟩]
  | .adc n rd _ _ => [⟨rd, limbs n⟩]
  | .sub n rd _ _ => [⟨rd, limbs n⟩]
  | .sbb n rd _ _ => [⟨rd, limbs n⟩]
  | .neg n rd _ => [⟨rd, limbs n⟩]
  | .mul32 rd _ _ => [⟨rd, 2⟩]
  | .mul64x32 rd _ _ => [⟨rd, 3⟩]
  | .mul64 rd _ _ => [⟨rd, 4⟩]
  | .div64by32 rd rc _ _ => [⟨rd, 1⟩, ⟨rc, 1⟩]
  | .div128by64 rd rc _ _ => [⟨rd, 2⟩, ⟨rc, 2⟩]
  | .div96by32 rd rc _ _ => [⟨rd, 3⟩, ⟨rc, 1⟩]
  | .div128by96 rd rc _ _ => [⟨rd, 1⟩, ⟨rc, 3⟩]
  | .div160by96 rd rc _ _ => [⟨rd, 2⟩, ⟨rc, 3⟩]
  | .div96by64 rd rc _ _ => [⟨rd, 1⟩, ⟨rc, 2⟩]
  | .msb32 rd _ => [⟨rd, 1⟩]
  | .msb64 rd _ => [⟨rd, 1⟩]
  | .lzc32 rd _ => [⟨rd, 1⟩]
  | .lzc64 rd _ => [⟨rd, 1⟩]
  | .shl128 rd _ _ => [⟨rd, 4⟩]
  | .reduce rd ra _ rc => [⟨rd, windowSize⟩, ⟨ra, 1⟩, ⟨rc, 2⟩]
  | .reduceAcc rd ra _ rc => [⟨rd, windowSize⟩, ⟨ra, 1⟩, ⟨rc, 2⟩]
  | .reduceClr rd ra _ rc => [⟨rd, windowSize⟩, ⟨ra, 1⟩, ⟨rc, 2⟩]
  | .scaleres rd ra rb => [⟨rd, windowSize⟩, ⟨ra, 1⟩, ⟨rb, 1⟩]
  | .rndhe n rd _ _ => [⟨rd, limbs n⟩]
  | .rndheS n rd _ _ => [⟨rd, limbs n⟩]
  | .dmul rd _ _ => [⟨rd, decimalSize⟩]
  | .dadd rd _ _ => [⟨rd, decimalSize⟩]
  | .dsub rd _ _ => [⟨rd, decimalSize⟩]
  | .ddiv rd _ _ => [⟨rd, decimalSize⟩]
  | .dparse rd _ _ _ => [⟨rd, decimalSize⟩]
  | .li rd _ => [⟨rd, 1⟩]
  | .rdReg _ => []

/-- The source groups that R62's table marks "in" only. -/
def Instr.srcs : Instr → List Group
  | .add n _ ra rb => [⟨ra, limbs n⟩, ⟨rb, limbs n⟩]
  | .adc n _ ra rb => [⟨ra, limbs n⟩, ⟨rb, limbs n⟩]
  | .sub n _ ra rb => [⟨ra, limbs n⟩, ⟨rb, limbs n⟩]
  | .sbb n _ ra rb => [⟨ra, limbs n⟩, ⟨rb, limbs n⟩]
  | .neg n _ ra => [⟨ra, limbs n⟩]
  | .mul32 _ ra rb => [⟨ra, 1⟩, ⟨rb, 1⟩]
  | .mul64x32 _ ra rb => [⟨ra, 2⟩, ⟨rb, 1⟩]
  | .mul64 _ ra rb => [⟨ra, 2⟩, ⟨rb, 2⟩]
  | .div64by32 _ _ ra rb => [⟨ra, 2⟩, ⟨rb, 1⟩]
  | .div128by64 _ _ ra rb => [⟨ra, 4⟩, ⟨rb, 2⟩]
  | .div96by32 _ _ ra rb => [⟨ra, 3⟩, ⟨rb, 1⟩]
  | .div128by96 _ _ ra rb => [⟨ra, 4⟩, ⟨rb, 3⟩]
  | .div160by96 _ _ ra rb => [⟨ra, 5⟩, ⟨rb, 3⟩]
  | .div96by64 _ _ ra rb => [⟨ra, 3⟩, ⟨rb, 2⟩]
  | .msb32 _ ra => [⟨ra, 1⟩]
  | .msb64 _ ra => [⟨ra, 2⟩]
  | .lzc32 _ ra => [⟨ra, 1⟩]
  | .lzc64 _ ra => [⟨ra, 2⟩]
  | .shl128 _ ra rb => [⟨ra, 4⟩, ⟨rb, 1⟩]
  | .reduce _ _ rb _ => [⟨rb, 1⟩]
  | .reduceAcc _ _ rb _ => [⟨rb, 1⟩]
  | .reduceClr _ _ rb _ => [⟨rb, 1⟩]
  | .scaleres _ _ _ => []
  | .rndhe n _ ra rb => [⟨ra, limbs n⟩, ⟨rb, limbs n⟩]
  | .rndheS n _ ra rb => [⟨ra, limbs n⟩, ⟨rb, limbs n⟩]
  | .dmul _ ra rb => [⟨ra, decimalSize⟩, ⟨rb, decimalSize⟩]
  | .dadd _ ra rb => [⟨ra, decimalSize⟩, ⟨rb, decimalSize⟩]
  | .dsub _ ra rb => [⟨ra, decimalSize⟩, ⟨rb, decimalSize⟩]
  | .ddiv _ ra rb => [⟨ra, decimalSize⟩, ⟨rb, decimalSize⟩]
  | .dparse _ ra _ _ => [⟨ra, 1⟩]
  | .li _ _ => []
  | .rdReg ra => [⟨ra, 1⟩]

/-- R70 (c): the `n` field is 0..5 in the commands that have one. -/
def Instr.limbCountOk : Instr → Bool
  | .add n _ _ _ | .adc n _ _ _ | .sub n _ _ _ | .sbb n _ _ _ | .neg n _ _
  | .rndhe n _ _ _ | .rndheS n _ _ _ => decide (n.val ≤ 5)
  | .mul32 .. | .mul64x32 .. | .mul64 .. | .div64by32 .. | .div128by64 .. | .div96by32 ..
  | .div128by96 .. | .div160by96 .. | .div96by64 .. | .msb32 .. | .msb64 .. | .lzc32 .. | .lzc64 ..
  | .shl128 .. | .reduce .. | .reduceAcc .. | .reduceClr .. | .scaleres .. | .dmul .. | .dadd ..
  | .dsub .. | .ddiv .. | .dparse .. | .li .. | .rdReg .. => true

/-- R70 (e): no group the command names extends past `w31`. -/
def Instr.groupsFit (i : Instr) : Bool := (i.dests ++ i.srcs).all Group.fits

/-- No two groups of the list share a register. -/
def groupsApart : List Group → Bool
  | [] => true
  | g :: gs => gs.all (fun h => !g.meets h) && groupsApart gs

/-- R70 (f), R71: no two destination groups of the command overlap. -/
def Instr.destsApart (i : Instr) : Bool := groupsApart i.dests

/-- An ASCII digit, `0x30 .. 0x39` (R58). -/
def isDigit (b : Byte) : Bool := decide (0x30 ≤ b.toNat ∧ b.toNat ≤ 0x39)

/-- R70 (g), R58: at most 32767 digits, each an ASCII digit. -/
def Instr.digitsOk : Instr → Bool
  | .dparse _ _ _ digits => decide (digits.length ≤ Config.parseLenMax) && digits.all isDigit
  | .add .. | .adc .. | .sub .. | .sbb .. | .neg .. | .rndhe .. | .rndheS ..
  | .mul32 .. | .mul64x32 .. | .mul64 .. | .div64by32 .. | .div128by64 .. | .div96by32 ..
  | .div128by96 .. | .div160by96 .. | .div96by64 .. | .msb32 .. | .msb64 .. | .lzc32 .. | .lzc64 ..
  | .shl128 .. | .reduce .. | .reduceAcc .. | .reduceClr .. | .scaleres .. | .dmul .. | .dadd ..
  | .dsub .. | .ddiv .. | .li .. | .rdReg .. => true

end Sys2Proof
end

