-- ==== Sys2Proof/WellFormed.lean ====
section
/-! DEFINITION. When a command is legal, as far as a decoded command can show it: R70 (c), (e), (f), (g).
R70 (a), (b), (d) concern words that select no command and are refused by the decoder. -/

namespace Sys2Proof

/-- The command is legal (R70). The four checks stand in `Sys2Proof/Machine/Operands.lean`. -/
def Instr.wellFormed (i : Instr) : Bool :=
  i.limbCountOk && i.groupsFit && i.destsApart && i.digitsOk

end Sys2Proof
end

