-- ==== Sys2Proof/Decode.lean ====
section
/-! DEFINITION. From the words of the command stream to commands and back (R55 to R63, R69 to R73). The
decoder is total: every stream holds no complete command yet, or begins with an illegal command, named by
its clause of R70, or begins with a legal command. The encoder is the inverse. -/

namespace Sys2Proof

/-- Why a complete command is illegal: the clauses of R70. -/
inductive Illegal where
  /-- (a) a reserved `op` (R69). -/
  | reservedOp
  /-- (b) a field that must be 0 is not 0, an unused `fn` bit is set, or `n` is not 0 where it must be. -/
  | unusedField
  /-- (c) `n` is 6 or 7. -/
  | limbCount
  /-- (d) `op = 0x20` with `fn[1:0] = 3` or `fn[2] = 1`. -/
  | reduceMode
  /-- (e) a group extends past `w31`. -/
  | groupPastEnd
  /-- (f) two destination groups overlap. -/
  | destOverlap
  /-- (g) a digit byte outside `0x30 .. 0x39`. -/
  | badDigit
  /-- (g) a padding byte that is not 0. -/
  | badPadding
deriving DecidableEq, Repr

/-- What the decoder finds at the head of the command stream (R73). -/
inductive Decoded where
  /-- The last word of the first command has not arrived: the command has not been presented. -/
  | incomplete
  /-- A complete illegal command, and the words after it (R70, R224). -/
  | illegal (why : Illegal) (rest : List Word)
  /-- A complete legal command, and the words after it. -/
  | command (i : Instr) (rest : List Word)
deriving DecidableEq, Repr

/-- The fields of a format R word (R56). -/
structure Fields where
  op : Fin 64
  rd : Fin 32
  ra : Fin 32
  rb : Fin 32
  rc : Fin 32
  n : Fin 8
  fn : Fin 8
deriving DecidableEq, Repr

/-- `x[lo + width - 1 : lo]` as a number (R12). -/
def bits (x : Word) (lo width : Nat) : Nat := x.toNat / 2 ^ lo % 2 ^ width

/-- The fields of a word (R56). -/
def fieldsOf (x : Word) : Fields where
  op := Fin.ofNat 64 (bits x 26 6)
  rd := Fin.ofNat 32 (bits x 21 5)
  ra := Fin.ofNat 32 (bits x 16 5)
  rb := Fin.ofNat 32 (bits x 11 5)
  rc := Fin.ofNat 32 (bits x 6 5)
  n := Fin.ofNat 8 (bits x 3 3)
  fn := Fin.ofNat 8 (bits x 0 3)

/-- The word with the given fields (R56). -/
def wordOf (f : Fields) : Word :=
  BitVec.ofNat 32 (f.op.val * 2 ^ 26 + f.rd.val * 2 ^ 21 + f.ra.val * 2 ^ 16 + f.rb.val * 2 ^ 11
    + f.rc.val * 2 ^ 6 + f.n.val * 2 ^ 3 + f.fn.val)

/-- The `op` value of `LI`, format X (R57). -/
def opLI : Nat := 0x30

/-- The `op` value of `DPARSE`, format P (R58). -/
def opDPARSE : Nat := 0x2C

/-- The `len` field of a format P word (R58). -/
def parseLen (x : Word) : Nat := bits x 1 15

/-- The number of words of the command that starts at `x` (R73). -/
def commandLength (x : Word) : Nat :=
  if bits x 26 6 = opLI then 2
  else if bits x 26 6 = opDPARSE then 1 + (parseLen x + 3) / 4
  else 1

/-- `r` if `ok`, and otherwise illegal by R70 (b). -/
def unless0 (ok : Bool) (r : Except Illegal Instr) : Except Illegal Instr :=
  if ok then r else .error .unusedField

/-- The command a format R word selects, the fields that must be 0 checked: R61, R62, R70 (a), (b), (d). -/
def selectR (f : Fields) : Except Illegal Instr :=
  match f.op.val with
  | 0x01 => unless0 (f.rc == 0) <| match f.fn.val with
    | 0 => .ok (.add f.n f.rd f.ra f.rb)
    | 1 => .ok (.adc f.n f.rd f.ra f.rb)
    | _ => .error .unusedField
  | 0x02 => unless0 (f.rc == 0) <| match f.fn.val with
    | 0 => .ok (.sub f.n f.rd f.ra f.rb)
    | 1 => .ok (.sbb f.n f.rd f.ra f.rb)
    | _ => .error .unusedField
  | 0x03 => unless0 (f.rb == 0 && f.rc == 0 && f.fn == 0) <| .ok (.neg f.n f.rd f.ra)
  | 0x08 => unless0 (f.rc == 0 && f.n == 0 && f.fn == 0) <| .ok (.mul32 f.rd f.ra f.rb)
  | 0x09 => unless0 (f.rc == 0 && f.n == 0 && f.fn == 0) <| .ok (.mul64x32 f.rd f.ra f.rb)
  | 0x0A => unless0 (f.rc == 0 && f.n == 0 && f.fn == 0) <| .ok (.mul64 f.rd f.ra f.rb)
  | 0x10 => unless0 (f.n == 0 && f.fn == 0) <| .ok (.div64by32 f.rd f.rc f.ra f.rb)
  | 0x11 => unless0 (f.n == 0 && f.fn == 0) <| .ok (.div128by64 f.rd f.rc f.ra f.rb)
  | 0x12 => unless0 (f.n == 0 && f.fn == 0) <| .ok (.div96by32 f.rd f.rc f.ra f.rb)
  | 0x13 => unless0 (f.n == 0 && f.fn == 0) <| .ok (.div128by96 f.rd f.rc f.ra f.rb)
  | 0x14 => unless0 (f.n == 0 && f.fn == 0) <| .ok (.div160by96 f.rd f.rc f.ra f.rb)
  | 0x15 => unless0 (f.n == 0 && f.fn == 0) <| .ok (.div96by64 f.rd f.rc f.ra f.rb)
  | 0x18 => unless0 (f.rb == 0 && f.rc == 0 && f.n == 0) <| match f.fn.val with
    | 0 => .ok (.msb32 f.rd f.ra)
    | 1 => .ok (.msb64 f.rd f.ra)
    | _ => .error .unusedField
  | 0x19 => unless0 (f.rb == 0 && f.rc == 0 && f.n == 0) <| match f.fn.val with
    | 0 => .ok (.lzc32 f.rd f.ra)
    | 1 => .ok (.lzc64 f.rd f.ra)
    | _ => .error .unusedField
  | 0x1A => unless0 (f.rc == 0 && f.n == 0 && f.fn == 0) <| .ok (.shl128 f.rd f.ra f.rb)
  | 0x20 => unless0 (f.n == 0) <| match f.fn.val with
    | 0 => .ok (.reduce f.rd f.ra f.rb f.rc)
    | 1 => .ok (.reduceAcc f.rd f.ra f.rb f.rc)
    | 2 => .ok (.reduceClr f.rd f.ra f.rb f.rc)
    | _ => .error .reduceMode
  | 0x21 => unless0 (f.rc == 0 && f.n == 0 && f.fn == 0) <| .ok (.scaleres f.rd f.ra f.rb)
  | 0x22 => unless0 (f.rc == 0) <| match f.fn.val with
    | 0 => .ok (.rndhe f.n f.rd f.ra f.rb)
    | 1 => .ok (.rndheS f.n f.rd f.ra f.rb)
    | _ => .error .unusedField
  | 0x28 => unless0 (f.rc == 0 && f.n == 0 && f.fn == 0) <| .ok (.dmul f.rd f.ra f.rb)
  | 0x29 => unless0 (f.rc == 0 && f.n == 0) <| match f.fn.val with
    | 0 => .ok (.dadd f.rd f.ra f.rb)
    | 1 => .ok (.dsub f.rd f.ra f.rb)
    | _ => .error .unusedField
  | 0x2B => unless0 (f.rc == 0 && f.n == 0 && f.fn == 0) <| .ok (.ddiv f.rd f.ra f.rb)
  | 0x31 => unless0 (f.rd == 0 && f.rb == 0 && f.rc == 0 && f.n == 0 && f.fn == 0) <| .ok (.rdReg f.ra)
  | _ => .error .reservedOp

/-- Format X: `LI` with its immediate word (R57). -/
def selectX (x imm : Word) : Except Illegal Instr :=
  unless0 (bits x 0 21 == 0) <| .ok (.li (fieldsOf x).rd imm)

/-- Format P: `DPARSE` with its digit words; padding bytes must be 0 (R58, R70 g). -/
def selectP (x : Word) (digitWords : List Word) : Except Illegal Instr :=
  let bytes := unpackBytes digitWords
  if (bytes.drop (parseLen x)).all (· == 0) then
    .ok (.dparse (fieldsOf x).rd (fieldsOf x).ra (bits x 0 1 == 1) (bytes.take (parseLen x)))
  else .error .badPadding

/-- The command that the words of one complete command select, before R70 (c), (e), (f) and the digit check. -/
def select (x : Word) (operands : List Word) : Except Illegal Instr :=
  if bits x 26 6 = opLI then selectX x (operands.headD 0)
  else if bits x 26 6 = opDPARSE then selectP x operands
  else selectR (fieldsOf x)

/-- The selected command if it is legal, and otherwise the clause of R70 it breaks. -/
def checkLegal (i : Instr) : Except Illegal Instr :=
  if !i.limbCountOk then .error .limbCount
  else if !i.groupsFit then .error .groupPastEnd
  else if !i.destsApart then .error .destOverlap
  else if !i.digitsOk then .error .badDigit
  else .ok i

/-- The verdict on the words of one complete command (R70). -/
def decodeCommand (x : Word) (operands : List Word) : Except Illegal Instr :=
  match select x operands with
  | .ok i => checkLegal i
  | .error why => .error why

/-- The head of the command stream, decoded (R73, R262). -/
def decode : List Word → Decoded
  | [] => .incomplete
  | x :: tail =>
    let operands := commandLength x - 1
    if tail.length < operands then .incomplete
    else match decodeCommand x (tail.take operands) with
      | .ok i => .command i (tail.drop operands)
      | .error why => .illegal why (tail.drop operands)

/-- A format R word from its operands (R56). -/
def wordR (op : Fin 64) (fn : Fin 8) (rd ra : Reg) (rb rc : Reg := 0) (n : LimbField := 0) : Word :=
  wordOf { op := op, rd := rd, ra := ra, rb := rb, rc := rc, n := n, fn := fn }

/-- Word 0 of `DPARSE` (R58). -/
def wordP (rd ra : Reg) (len : Nat) (sgn : Bool) : Word :=
  BitVec.ofNat 32 (opDPARSE * 2 ^ 26 + rd.val * 2 ^ 21 + ra.val * 2 ^ 16 + len % 2 ^ 15 * 2 + sgn.toNat)

/-- The words of a command, written from R56 to R58 and R61. -/
def encode : Instr → List Word
  | .add n rd ra rb => [wordR 0x01 0 rd ra rb 0 n]
  | .adc n rd ra rb => [wordR 0x01 1 rd ra rb 0 n]
  | .sub n rd ra rb => [wordR 0x02 0 rd ra rb 0 n]
  | .sbb n rd ra rb => [wordR 0x02 1 rd ra rb 0 n]
  | .neg n rd ra => [wordR 0x03 0 rd ra 0 0 n]
  | .mul32 rd ra rb => [wordR 0x08 0 rd ra rb]
  | .mul64x32 rd ra rb => [wordR 0x09 0 rd ra rb]
  | .mul64 rd ra rb => [wordR 0x0A 0 rd ra rb]
  | .div64by32 rd rc ra rb => [wordR 0x10 0 rd ra rb rc]
  | .div128by64 rd rc ra rb => [wordR 0x11 0 rd ra rb rc]
  | .div96by32 rd rc ra rb => [wordR 0x12 0 rd ra rb rc]
  | .div128by96 rd rc ra rb => [wordR 0x13 0 rd ra rb rc]
  | .div160by96 rd rc ra rb => [wordR 0x14 0 rd ra rb rc]
  | .div96by64 rd rc ra rb => [wordR 0x15 0 rd ra rb rc]
  | .msb32 rd ra => [wordR 0x18 0 rd ra]
  | .msb64 rd ra => [wordR 0x18 1 rd ra]
  | .lzc32 rd ra => [wordR 0x19 0 rd ra]
  | .lzc64 rd ra => [wordR 0x19 1 rd ra]
  | .shl128 rd ra rb => [wordR 0x1A 0 rd ra rb]
  | .reduce rd ra rb rc => [wordR 0x20 0 rd ra rb rc]
  | .reduceAcc rd ra rb rc => [wordR 0x20 1 rd ra rb rc]
  | .reduceClr rd ra rb rc => [wordR 0x20 2 rd ra rb rc]
  | .scaleres rd ra rb => [wordR 0x21 0 rd ra rb]
  | .rndhe n rd ra rb => [wordR 0x22 0 rd ra rb 0 n]
  | .rndheS n rd ra rb => [wordR 0x22 1 rd ra rb 0 n]
  | .dmul rd ra rb => [wordR 0x28 0 rd ra rb]
  | .dadd rd ra rb => [wordR 0x29 0 rd ra rb]
  | .dsub rd ra rb => [wordR 0x29 1 rd ra rb]
  | .ddiv rd ra rb => [wordR 0x2B 0 rd ra rb]
  | .dparse rd ra sgn digits => wordP rd ra digits.length sgn :: packBytes digits
  | .li rd imm => [wordR 0x30 0 rd 0, imm]
  | .rdReg ra => [wordR 0x31 0 0 ra]

/-- The match and mask of a command's opcode-table row (R63). -/
def matchMask : Instr → Word × Word
  | .add .. => (0x04000000, 0xFC0007C7)
  | .adc .. => (0x04000001, 0xFC0007C7)
  | .sub .. => (0x08000000, 0xFC0007C7)
  | .sbb .. => (0x08000001, 0xFC0007C7)
  | .neg .. => (0x0C000000, 0xFC00FFC7)
  | .mul32 .. => (0x20000000, 0xFC0007FF)
  | .mul64x32 .. => (0x24000000, 0xFC0007FF)
  | .mul64 .. => (0x28000000, 0xFC0007FF)
  | .div64by32 .. => (0x40000000, 0xFC00003F)
  | .div128by64 .. => (0x44000000, 0xFC00003F)
  | .div96by32 .. => (0x48000000, 0xFC00003F)
  | .div128by96 .. => (0x4C000000, 0xFC00003F)
  | .div160by96 .. => (0x50000000, 0xFC00003F)
  | .div96by64 .. => (0x54000000, 0xFC00003F)
  | .msb32 .. => (0x60000000, 0xFC00FFFF)
  | .msb64 .. => (0x60000001, 0xFC00FFFF)
  | .lzc32 .. => (0x64000000, 0xFC00FFFF)
  | .lzc64 .. => (0x64000001, 0xFC00FFFF)
  | .shl128 .. => (0x68000000, 0xFC0007FF)
  | .reduce .. => (0x80000000, 0xFC00003F)
  | .reduceAcc .. => (0x80000001, 0xFC00003F)
  | .reduceClr .. => (0x80000002, 0xFC00003F)
  | .scaleres .. => (0x84000000, 0xFC0007FF)
  | .rndhe .. => (0x88000000, 0xFC0007C7)
  | .rndheS .. => (0x88000001, 0xFC0007C7)
  | .dmul .. => (0xA0000000, 0xFC0007FF)
  | .dadd .. => (0xA4000000, 0xFC0007FF)
  | .dsub .. => (0xA4000001, 0xFC0007FF)
  | .ddiv .. => (0xAC000000, 0xFC0007FF)
  | .dparse .. => (0xB0000000, 0xFC000000)
  | .li .. => (0xC0000000, 0xFC1FFFFF)
  | .rdReg .. => (0xC4000000, 0xFFE0FFFF)

/-- Word `k` of a command whose bits are `w`, bit 0 the least significant bit of the first word. -/
def tableWord (nbits w k : Nat) : Word := BitVec.ofNat 32 (w % 2 ^ nbits / 2 ^ (32 * k))

/-- The words of a command whose bits are `w`, as many as its first word calls for (R73); bits above
`nbits` are 0. -/
def tableWords (nbits w : Nat) : List Word :=
  (List.range (commandLength (tableWord nbits w 0))).map (tableWord nbits w)

/-- The command the decoder reads from an opcode-table row's bits, none where the words are illegal. -/
def decodeTableWord (nbits w : Nat) : Option Instr :=
  match decode (tableWords nbits w) with
  | .command i _ => some i
  | .illegal _ _ => none
  | .incomplete => none

end Sys2Proof
end

