-- ==== Sys2Proof/Machine/Arith.lean ====
section
/-! DEFINITION. The integer functions shared by the families: the rounding decision and `RHE` (R15, R130),
`msb` and `hiLimb` (R16). -/

namespace Sys2Proof.Machine

/-- Whether a quotient `q` with remainder `r` of divisor `d` is rounded up, half to even, a set sticky bit
deciding an apparent tie (R15, R130, R132). -/
def roundsUp (q r d : Nat) (sticky : Bool) : Bool :=
  decide (d < 2 * r ∨ (2 * r = d ∧ (q % 2 = 1 ∨ sticky = true)))

/-- `RHE(num, den)`: round half to even (R15). -/
def rhe (num den : Nat) : Nat :=
  num / den + (roundsUp (num / den) (num % den) den false).toNat

/-- `msb(x)`, the index of the most significant set bit of a nonzero `x` (R16). -/
def msb (x : Nat) : Nat := Nat.log2 x

/-- `hiLimb(x)`, the index of the highest nonzero 32-bit limb, 0 for 0 (R16). -/
def hiLimb (x : Nat) : Nat := if x = 0 then 0 else msb x / 32

end Sys2Proof.Machine
end

