-- ==== Sys2Proof/Machine/State.lean ====
section
/-! DEFINITION. The state of one CORE instance (R20 to R37, R41, R250, R261) and the reasons a step can stop. -/

namespace Sys2Proof.Machine

/-- Why the machine stops with no specified state: the reasons of `raise Undefined(reason)` (R226). Each is
safe: nothing can be concluded about what follows (notes/assumptions/5.md). -/
inductive Fault where
  /-- Raised by the six `DIV` commands: divisor zero, divisor not normalized where that is required, or the
  top-limb condition false (R101, R102). Safe. -/
  | divPrecondition
  /-- Raised by `MSB32`, `MSB64` on the operand 0 (R115, R116). Safe. -/
  | msbOfZero
  /-- Raised by `REDUCE` (all modes) and `SCALERES` when the `hi` register is above 5 (R126). Safe. -/
  | badHi
  /-- Raised by `RNDHE`, `RNDHE.S` when the divisor is 0 or the remainder not below it (R131, R132). Safe. -/
  | roundPrecondition
  /-- Raised by `DMUL`, `DADD`, `DSUB`, `DDIV` on a source with a scale above 28 (R26). Safe. -/
  | badScale
  /-- Raised by `execStrict` and `stepStrict` alone, on a read of a register not written since reset (R37);
  `exec` and `step` read the value the register holds (notes/assumptions/1.md, 14.md). Safe. -/
  | unwrittenRegister
deriving DecidableEq, Repr

/-- Why the model gives a command no meaning. -/
inductive Refusal where
  /-- Raised by an arm of `exec` that has no meaning yet; no arm is left in that case. Safe. -/
  | notModelled (mnemonic : String)
deriving DecidableEq, Repr

/-- `FLAGS`, its three fields; bits 7:5 read 0 and have no storage (R30). -/
structure Flags where
  /-- Carry or borrow out, bit 0. -/
  c : Bool
  /-- Sticky bit, bit 1. -/
  s : Bool
  /-- Completion code of the most recent command, bits 4:2. -/
  err : BitVec 3
deriving DecidableEq, Repr

/-- The 40-bit completion record of one command (R221). -/
structure Completion where
  /-- Bits 31:0. -/
  data : Word
  /-- Bits 39:32, `FLAGS` after the command. -/
  flags : BitVec 8
deriving DecidableEq, Repr

/-- The whole state of one CORE instance. -/
structure State where
  /-- The limb registers `w0 .. w31` (R20). -/
  w : Vector Word 32
  /-- Which of them a command has written since reset (R37). -/
  written : Vector Bool 32
  /-- `FLAGS` (R30). -/
  flags : Flags
  /-- The command stream: the words presented and not yet executed, first word first (R41, R55). -/
  commands : List Word
  /-- The completion stream: the records returned since reset, oldest first (R41, R221). -/
  completions : List Completion
deriving DecidableEq, Repr

/-- A Decimal value: sign (true = negative), scale, mantissa (R25). -/
structure Decimal where
  sign : Bool
  scale : Nat
  mant : Nat
deriving DecidableEq, Repr

/-- The state after reset (R36, R250, R251). The spec gives the limb registers no value: 0 is a
DESIGN CHOICE, unsafe, notes/assumptions/1.md. -/
def State.reset : State where
  w := Vector.replicate 32 0#32
  written := Vector.replicate 32 false
  flags := { c := false, s := false, err := 0 }
  commands := []
  completions := []

end Sys2Proof.Machine
end

