-- ==== Sys2Proof/Machine/Flags.lean ====
section
/-! DEFINITION. `FLAGS` as a byte, the completion codes, and every flag computation of the commands
(R30, R222, R81 to R85, R128 to R132). -/

namespace Sys2Proof.Machine

/-- The completion codes (R222). -/
inductive Code where
  | ok
  | overflow
  | divideByZero
  | illegalCommand
deriving DecidableEq, Repr

/-- The value of a completion code in `ERR` (R222). -/
def Code.bits : Code → BitVec 3
  | .ok => 0
  | .overflow => 1
  | .divideByZero => 2
  | .illegalCommand => 3

/-- `FLAGS` as the 8-bit register: bits 7:5 zero, `ERR` 4:2, `S` 1, `C` 0 (R30). -/
def Flags.byte (f : Flags) : BitVec 8 :=
  0#3 ++ f.err ++ BitVec.ofBool f.s ++ BitVec.ofBool f.c

/-- The completion record as 40 bits: `flags` 39:32, `data` 31:0 (R221). -/
def Completion.bits (r : Completion) : BitVec 40 := r.flags ++ r.data

/-- Carry out of an `n`-limb sum: `sum div 2^(32n)`, which is 0 or 1 (R81, R82, R131). -/
def carryOut (n sum : Nat) : Bool := decide (sum / 2 ^ (32 * n) = 1)

/-- Borrow out of a difference: 1 exactly when it is negative (R83, R84). -/
def borrowOut (diff : Int) : Bool := decide (diff < 0)

/-- Borrow of `0 - x` (R85). -/
def borrowOfNeg (x : Nat) : Bool := decide (x ≠ 0)

/-- The sticky bit after folding in a discarded remainder (R128). -/
def stickyWith (sticky : Bool) (remainder : Nat) : Bool := sticky || decide (remainder ≠ 0)

end Sys2Proof.Machine
end

