-- ==== Sys2Proof/Machine/Ops.lean ====
section
/-! DEFINITION. The named operations over the state: limb registers and groups (R14, R20, R23, R37), Decimal
groups (R26, R27), completing a command (R221 to R224), and what the host can do (R244, R250).

CORE has no trap (R233): what stands in the place of taking an exception is `State.complete` with an error
code, the one operation by which every command ends; nothing is saved and there is no return (R234). -/

namespace Sys2Proof.Machine

/-- The outcome of a command. -/
abbrev Outcome := Host.Outcome State Fault Refusal

/-- `w[k]` (R14). No legal command names a number past 31 (R70 e); such a read would give 0
(notes/assumptions/13.md). -/
def State.limb (s : State) (k : Nat) : Word := s.w[k]?.getD 0

/-- Register `k` counts as written since reset (R37). -/
def State.isWritten (s : State) (k : Nat) : Bool := s.written[k]?.getD false

/-- `w[k] <- v`, which makes `w[k]` a written register (R14, R37). -/
def State.setLimb (s : State) (k : Nat) (v : Word) : State :=
  { s with w := s.w.setIfInBounds k v, written := s.written.setIfInBounds k true }

/-- `G(r, n)`: the value group of `n` limbs at `r`, least significant limb first (R14, R23). -/
def State.group (s : State) : Nat → Nat → Nat
  | _, 0 => 0
  | r, n + 1 => (s.limb r).toNat + 2 ^ 32 * s.group (r + 1) n

/-- `G(r, n) <- v` (R14). -/
def State.setGroup (s : State) : Nat → Nat → Nat → State
  | _, 0, _ => s
  | r, n + 1, v => (s.setLimb r (BitVec.ofNat 32 v)).setGroup (r + 1) n (v / 2 ^ 32)

/-- `C <- b`. -/
def State.setC (s : State) (b : Bool) : State := { s with flags := { s.flags with c := b } }

/-- `S <- b`. -/
def State.setS (s : State) (b : Bool) : State := { s with flags := { s.flags with s := b } }

/-- The sign bit of a `ctl` word, bit 31 (R26). -/
def ctlSign (ctl : Word) : Bool := ctl.getLsbD 31

/-- The scale field of a `ctl` word, bits 23:16 (R26). -/
def ctlScale (ctl : Word) : Nat := bits ctl 16 8

/-- The `ctl` word of a sign and a scale, unused bits zero (R27). -/
def ctlWord (sign : Bool) (scale : Nat) : Word := BitVec.ofNat 32 (sign.toNat * 2 ^ 31 + scale * 2 ^ 16)

/-- `D(r)`: read a Decimal group; the unused `ctl` bits are ignored (R26). -/
def State.decimal (s : State) (r : Nat) : Decimal where
  sign := ctlSign (s.limb (r + 3))
  scale := ctlScale (s.limb (r + 3))
  mant := s.group r 3

/-- `D(r) <- d` (R27). -/
def State.setDecimal (s : State) (r : Nat) (d : Decimal) : State :=
  (s.setGroup r 3 d.mant).setLimb (r + 3) (ctlWord d.sign d.scale)

/-- End a command: `ERR` takes the code, and one completion record is returned with the `FLAGS` after the
command (R221, R222). -/
def State.complete (s : State) (code : Code) (data : Word) : State :=
  let flags := { s.flags with err := code.bits }
  { s with flags := flags, completions := s.completions ++ [{ data := data, flags := flags.byte }] }

/-- `complete OK` with data 0 (R14, R218). -/
def State.completeOk (s : State) : State := s.complete .ok 0

/-- `complete Overflow`, `DivideByZero` or `IllegalCommand`: nothing but `ERR` changes, data is 0 (R223). -/
def State.completeError (s : State) (code : Code) : State := s.complete code 0

/-- The effect of a legal command, or `IllegalCommand` judged before any register is read
(R224, R231; notes/assumptions/6.md). -/
def whenLegal (i : Instr) (s : State) (effect : Outcome) : Outcome :=
  if i.wellFormed then effect else .next (s.completeError .illegalCommand)

/-- Run a Decimal command on `D(ra)`, `D(rb)`: a scale above 28 in either is undefined (R26, R231), an error
completes with its code, and a value is written to `D(rd)` (R151, R161, R177). -/
def decimalCommand (f : Decimal → Decimal → Except Code Decimal) (rd ra rb : Nat) (s : State) : Outcome :=
  let a := s.decimal ra
  let b := s.decimal rb
  if Config.scaleMax < a.scale ∨ Config.scaleMax < b.scale then .fault .badScale
  else match f a b with
    | .ok d => .next (s.setDecimal rd d).completeOk
    | .error code => .next (s.completeError code)

/-- The host presents words: they wait at the end of the command stream (R73, R244). -/
def State.present (s : State) (ws : List Word) : State := { s with commands := s.commands ++ ws }

/-- The host asserts reset: the reset state, whatever the state before (R250). -/
def State.assertReset (_ : State) : State := State.reset

end Sys2Proof.Machine
end

