-- ==== Sys2Proof/Machine/AddSub.lean ====
section
/-! DEFINITION. WideArith: `ADD`, `ADC`, `SUB`, `SBB`, `NEG` (spec/40_widearith_addsub.md). -/

namespace Sys2Proof.Machine

/-- The shared addition: `G(ra, n) + G(rb, n) + cin` to `G(rd, n)`, carry to `C` (R81, R82). -/
def addGroups (n rd ra rb cin : Nat) (s : State) : State :=
  let sum := s.group ra n + s.group rb n + cin
  ((s.setGroup rd n (sum % 2 ^ (32 * n))).setC (carryOut n sum)).completeOk

/-- The shared subtraction: the residue of `G(ra, n) - G(rb, n) - bin` to `G(rd, n)`, borrow to `C`
(R83, R84). -/
def subGroups (n rd ra rb bin : Nat) (s : State) : State :=
  let diff : Int := (s.group ra n : Int) - (s.group rb n : Int) - (bin : Int)
  ((s.setGroup rd n (diff % 2 ^ (32 * n)).toNat).setC (borrowOut diff)).completeOk

/-- `ADD.n rd, ra, rb` (R81). -/
def execAdd (n : LimbField) (rd ra rb : Reg) (s : State) : Outcome :=
  whenLegal (.add n rd ra rb) s (.next (addGroups (limbs n) rd ra rb 0 s))

/-- `ADC.n rd, ra, rb` (R82). -/
def execAdc (n : LimbField) (rd ra rb : Reg) (s : State) : Outcome :=
  whenLegal (.adc n rd ra rb) s (.next (addGroups (limbs n) rd ra rb s.flags.c.toNat s))

/-- `SUB.n rd, ra, rb` (R83). -/
def execSub (n : LimbField) (rd ra rb : Reg) (s : State) : Outcome :=
  whenLegal (.sub n rd ra rb) s (.next (subGroups (limbs n) rd ra rb 0 s))

/-- `SBB.n rd, ra, rb` (R84). -/
def execSbb (n : LimbField) (rd ra rb : Reg) (s : State) : Outcome :=
  whenLegal (.sbb n rd ra rb) s (.next (subGroups (limbs n) rd ra rb s.flags.c.toNat s))

/-- `NEG.n rd, ra` (R85). -/
def execNeg (n : LimbField) (rd ra : Reg) (s : State) : Outcome :=
  let x := s.group ra (limbs n)
  whenLegal (.neg n rd ra) s
    (.next ((s.setGroup rd (limbs n) ((2 ^ (32 * limbs n) - x) % 2 ^ (32 * limbs n))).setC
      (borrowOfNeg x)).completeOk)

end Sys2Proof.Machine
end

