-- ==== Sys2Proof/Machine/ScaleEngine.lean ====
section
/-! DEFINITION. ScaleEngine: `REDUCE`, `REDUCE.ACC`, `REDUCE.CLR`, `RNDHE`, `RNDHE.S`, `SCALERES` and the
function `ScaleResult` (spec/44_scale_engine.md). -/

namespace Sys2Proof.Machine

/-- One reduction step, the sticky bit afterwards given: divide the magnitude of limbs `0 .. hi` by the
largest power of ten the budget allows, at most `10^9` (R126, R127). -/
def reduceStep (sticky : Bool) (rd ra rb rc : Nat) (s : State) : Outcome :=
  let hi := (s.limb ra).toNat
  if Config.hiMax < hi then .fault .badHi
  else
    let m := s.group rd (hi + 1)
    let d := 10 ^ min (s.limb rb).toNat Config.reduceMaxPow
    .next (((((s.setGroup rd (hi + 1) (m / d)).setLimb ra (BitVec.ofNat 32 (hiLimb (m / d)))).setLimb rc
      (BitVec.ofNat 32 d)).setLimb (rc + 1) (BitVec.ofNat 32 (m % d))).setS sticky).completeOk

/-- `REDUCE rd, ra, rb, rc`: `S` keeps its value (R127). -/
def execReduce (rd ra rb rc : Reg) (s : State) : Outcome :=
  whenLegal (.reduce rd ra rb rc) s (reduceStep s.flags.s rd ra rb rc s)

/-- `REDUCE.ACC rd, ra, rb, rc`: the remainder of the step before is folded into `S` (R128). -/
def execReduceAcc (rd ra rb rc : Reg) (s : State) : Outcome :=
  whenLegal (.reduceAcc rd ra rb rc) s
    (reduceStep (stickyWith s.flags.s (s.limb (rc + 1)).toNat) rd ra rb rc s)

/-- `REDUCE.CLR rd, ra, rb, rc`: `S` is cleared (R129). -/
def execReduceClr (rd ra rb rc : Reg) (s : State) : Outcome :=
  whenLegal (.reduceClr rd ra rb rc) s (reduceStep false rd ra rb rc s)

/-- The shared rounding step: `G(rd, n)` rounded from its remainder and divisor, carry to `C`
(R131, R132). -/
def roundGroups (n rd ra rb : Nat) (sticky : Bool) (s : State) : Outcome :=
  let q := s.group rd n
  let r := s.group ra n
  let d := s.group rb n
  if d = 0 ∨ d ≤ r then .fault .roundPrecondition
  else
    let sum := q + (roundsUp q r d sticky).toNat
    .next ((s.setGroup rd n (sum % 2 ^ (32 * n))).setC (carryOut n sum)).completeOk

/-- `RNDHE.n rd, ra, rb`: the sticky bit is ignored (R131). -/
def execRndhe (n : LimbField) (rd ra rb : Reg) (s : State) : Outcome :=
  whenLegal (.rndhe n rd ra rb) s (roundGroups (limbs n) rd ra rb false s)

/-- `RNDHE.S.n rd, ra, rb`: the sticky bit decides an apparent tie (R132). -/
def execRndheS (n : LimbField) (rd ra rb : Reg) (s : State) : Outcome :=
  whenLegal (.rndheS n rd ra rb) s (roundGroups (limbs n) rd ra rb s.flags.s s)

/-- The loop of R134 from `k`: the least power, within `fuel` increments, that brings `m` below `2^96`. -/
def leastFitFrom (m : Nat) : Nat → Nat → Nat
  | 0, k => k
  | fuel + 1, k => if m / 10 ^ k < Config.mantLimit then k else leastFitFrom m fuel (k + 1)

/-- The least `k` with `m div 10^k < 2^96`; `log2 m` increments suffice for every `m`, 29 below `2^192`
(R134, R260; notes/assumptions/8.md). -/
def leastFit (m : Nat) : Nat := leastFitFrom m (Nat.log2 m) 0

/-- `RHE(m, 10^k)`, not forming powers from `10^59` on: there the value of an `m < 2^192` is 0
(R134; notes/assumptions/8.md). -/
def rhePow (m k : Nat) : Nat := if 59 ≤ k ∧ m < 2 ^ 192 then 0 else rhe m (10 ^ k)

/-- `RHE(2^96, 10)`, the mantissa after a rounding carry (R134, R201). -/
def carryMant : Nat := 7922816251426433759354395034

/-- `ScaleResult(M, s)`: the mantissa and the new scale, or `Overflow` (R134). -/
def scaleResult (m s : Nat) : Except Code (Nat × Nat) :=
  let k := max (s - Config.scaleMax) (leastFit m)
  if k = 0 then .ok (m, s)
  else
    let q := rhePow m k
    if q = Config.mantLimit then
      if s < k + 1 then .error .overflow else .ok (carryMant, s - (k + 1))
    else if s < k then .error .overflow
    else .ok (q, s - k)

/-- The shared meaning of `SCALERES` (R138). -/
def scaleWindow (rd ra rb : Nat) (s : State) : Outcome :=
  let hi := (s.limb ra).toNat
  if Config.hiMax < hi then .fault .badHi
  else match scaleResult (s.group rd (hi + 1)) (s.limb rb).toNat with
    | .error code => .next (s.completeError code)
    | .ok (q, scale) =>
      .next (((s.setGroup rd (max (hi + 1) 3) q).setLimb ra (BitVec.ofNat 32 (hiLimb q))).setLimb rb
        (BitVec.ofNat 32 scale)).completeOk

/-- `SCALERES rd, ra, rb` (R138). -/
def execScaleres (rd ra rb : Reg) (s : State) : Outcome :=
  whenLegal (.scaleres rd ra rb) s (scaleWindow rd ra rb s)

/-- The estimate `KEST` of the procedure, which the normative closed form does not use (R135). -/
def kest (m : Nat) : Nat :=
  if m < Config.mantLimit then 0
  else (msb m - 96) * Config.log10TwoNum / Config.log10TwoDen + 1

/-- The loop of DS's procedure (R136): magnitude, running scale, sticky bit, last remainder, and the power
still to divide by. Without fuel it answers `Overflow`, which `scaleProcedure` never reaches
(notes/assumptions/17.md). -/
def procedureLoop : Nat → Nat → Int → Bool → Nat → Nat → Except Code (Nat × Nat)
  | 0, _, _, _, _, _ => .error .overflow
  | fuel + 1, m, s, sticky, rem, k =>
    let sticky := stickyWith sticky rem
    let p := min k Config.reduceMaxPow
    let q := m / 10 ^ p
    let r := m % 10 ^ p
    if 0 < k - p then procedureLoop fuel q s sticky r (k - p)
    else if Config.mantLimit ≤ q then procedureLoop fuel q (s - 1) sticky r 1
    else if 10 ^ p / 2 < r ∨ (r = 10 ^ p / 2 ∧ (q % 2 = 1 ∨ sticky = true)) then
      if q + 1 = Config.mantLimit then procedureLoop fuel (q + 1) (s - 1) false 0 1
      else if s < 0 then .error .overflow
      else .ok (q + 1, s.toNat)
    else if s < 0 then .error .overflow
    else .ok (q, s.toNat)

/-- The iterations the loop of R136 may need on `m` with the power `k` still to divide by: at most `k` reduction
steps, one more for each decimal digit too many, and two around a rounding carry (notes/assumptions/17.md). -/
def procedureFuel (m k : Nat) : Nat := k + Nat.log2 m + 3

/-- DS's procedure for `scale_result`, informative beside `scaleResult` (R136, R137). No command calls it. -/
def scaleProcedure (m s : Nat) : Except Code (Nat × Nat) :=
  let k := max (kest m) (s - Config.scaleMax)
  if s < kest m then .error .overflow
  else if k = 0 then .ok (m, s)
  else procedureLoop (procedureFuel m k) m ((s : Int) - (k : Int)) false 0 k

end Sys2Proof.Machine
end

