-- ==== Sys2Proof/Machine/DecimalAddSub.lean ====
section
/-! DEFINITION. Decimal addition and subtraction, `DADD` and `DSUB` (spec/46_decimal_addsub.md). -/

namespace Sys2Proof.Machine

/-- The aligned operation on the smaller-scale term `(tx, x)` and the other term `(ty, y)`, `delta` apart, at
scale `s` (R163). -/
def addAligned (tx : Bool) (x : Nat) (ty : Bool) (y : Nat) (delta s : Nat) : Except Code Decimal :=
  if 0 < delta ∧ x = 0 then .ok { sign := ty, scale := s, mant := y }
  else
    let x' := x * 10 ^ delta
    let (sign, m) : Bool × Nat :=
      if tx = ty then (tx, x' + y)
      else if y < x' then (tx, x' - y)
      else if x' < y then (ty, y - x')
      else (false, 0)
    if m < Config.mantLimit then .ok { sign := sign, scale := s, mant := m }
    else match scaleResult m s with
      | .error code => .error code
      | .ok (q, scale) => .ok { sign := sign, scale := scale, mant := q }

/-- `AddSub(a, b, sub)` (R163). -/
def addSubDecimal (sub : Bool) (a b : Decimal) : Except Code Decimal :=
  let tb := b.sign ^^ sub
  if a.scale ≤ b.scale then addAligned a.sign a.mant tb b.mant (b.scale - a.scale) (max a.scale b.scale)
  else addAligned tb b.mant a.sign a.mant (a.scale - b.scale) (max a.scale b.scale)

/-- `DADD rd, ra, rb` (R161). -/
def execDadd (rd ra rb : Reg) (s : State) : Outcome :=
  whenLegal (.dadd rd ra rb) s (decimalCommand (addSubDecimal false) rd ra rb s)

/-- `DSUB rd, ra, rb` (R162). -/
def execDsub (rd ra rb : Reg) (s : State) : Outcome :=
  whenLegal (.dsub rd ra rb) s (decimalCommand (addSubDecimal true) rd ra rb s)

end Sys2Proof.Machine
end

