-- ==== Sys2Proof/Machine/DecimalDivide.lean ====
section
/-! DEFINITION. Decimal division, `DDIV` (spec/47_decimal_divide.md). -/

namespace Sys2Proof.Machine

/-- The largest `k` up to the given bound with `k <= room` and `(q + 1) * 10^k <= 2^96` (R180). -/
def searchScaleFrom (q room : Nat) : Nat → Nat
  | 0 => 0
  | k + 1 =>
    if k + 1 ≤ room ∧ (q + 1) * 10 ^ (k + 1) ≤ Config.mantLimit then k + 1
    else searchScaleFrom q room k

/-- `SEARCH_SCALE(Q, s)`: the largest `k <= 19` with `s + k <= 28` and `(Q + 1) * 10^k <= 2^96`
(R11, R180). -/
def searchScale (q : Nat) (s : Int) : Nat :=
  searchScaleFrom q ((Config.scaleMax : Int) - s).toNat Config.searchMaxPow

/-- The loop of R178 on divisor `b`, quotient `q`, remainder `r`, running scale `s`; the result is the
quotient, its scale and whether a scaling step was taken. Without fuel it answers `Overflow`, which
`divideDecimal` never reaches (R181, R260; notes/assumptions/9.md). -/
def divideLoop (b : Nat) : Nat → Nat → Nat → Int → Bool → Except Code (Nat × Nat × Bool)
  | 0, _, _, _, _ => .error .overflow
  | fuel + 1, q, r, s, scaled =>
    if r = 0 then
      if s < 0 then
        if q * 10 ^ (-s).toNat < Config.mantLimit then .ok (q * 10 ^ (-s).toNat, 0, scaled)
        else .error .overflow
      else .ok (q, s.toNat, scaled)
    else
      let k := if s < Config.scaleMax then searchScale q s else 0
      if k = 0 then
        if s < 0 then .error .overflow
        else .ok (q + (roundsUp q r b false).toNat, s.toNat, scaled)
      else
        let n := (q * b + r) * 10 ^ k
        divideLoop b fuel (n / b) (n % b) (s + k) true

/-- The loop's bound on its iterations (R181). -/
def divideFuel : Nat := 57

/-- One trial of the unscale pass: divide by `10^j` if the scale allows it and the remainder is zero
(R178, R185). -/
def stripPow (j : Nat) (p : Nat × Nat) : Nat × Nat :=
  if j ≤ p.2 ∧ p.1 % 10 ^ j = 0 then (p.1 / 10 ^ j, p.2 - j) else p

/-- The unscale pass: `10^8` for as long as it succeeds, at most three times from a scale of 28, then
`10^4`, `10^2`, `10` once each (R178, R185; notes/assumptions/9.md). -/
def unscale (q scale : Nat) : Nat × Nat :=
  stripPow 1 (stripPow 2 (stripPow 4 (stripPow 8 (stripPow 8 (stripPow 8 (q, scale))))))

/-- `Divide(a, b)` (R176, R178). -/
def divideDecimal (a b : Decimal) : Except Code Decimal :=
  if b.mant = 0 then .error .divideByZero
  else match divideLoop b.mant divideFuel (a.mant / b.mant) (a.mant % b.mant)
      ((a.scale : Int) - (b.scale : Int)) false with
    | .error code => .error code
    | .ok (q, scale, scaled) =>
      let p := if scaled then unscale q scale else (q, scale)
      .ok { sign := a.sign ^^ b.sign, scale := p.2, mant := p.1 }

/-- `DDIV rd, ra, rb` (R177). -/
def execDdiv (rd ra rb : Reg) (s : State) : Outcome :=
  whenLegal (.ddiv rd ra rb) s (decimalCommand divideDecimal rd ra rb s)

end Sys2Proof.Machine
end

