-- ==== Sys2Proof/Machine/DecimalMultiply.lean ====
section
/-! DEFINITION. Decimal multiplication, `DMUL` (spec/45_decimal_multiply.md). -/

namespace Sys2Proof.Machine

/-- The product of two Decimals (R151 to R156). -/
def multiplyDecimal (a b : Decimal) : Except Code Decimal :=
  let p := a.mant * b.mant
  if p = 0 then .ok { sign := false, scale := 0, mant := 0 }
  else match scaleResult p (a.scale + b.scale) with
    | .error code => .error code
    | .ok (q, scale) => .ok { sign := a.sign ^^ b.sign, scale := scale, mant := q }

/-- `DMUL rd, ra, rb` (R151). -/
def execDmul (rd ra rb : Reg) (s : State) : Outcome :=
  whenLegal (.dmul rd ra rb) s (decimalCommand multiplyDecimal rd ra rb s)

end Sys2Proof.Machine
end

