-- ==== Sys2Proof/Machine/DecimalParse.lean ====
section
/-! DEFINITION. Decimal parse, `DPARSE` (spec/48_decimal_parse.md). -/

namespace Sys2Proof.Machine

/-- The value of an ASCII digit byte (R196). -/
def digitValue (b : Byte) : Nat := b.toNat - 0x30

/-- Take digits while the new accumulator stays below `2^96`; the accumulator and the unconsumed digits
(R198, R199). -/
def consume (acc : Nat) : List Nat → Nat × List Nat
  | [] => (acc, [])
  | d :: ds => if acc * 10 + d < Config.mantLimit then consume (acc * 10 + d) ds else (acc, d :: ds)

/-- Whether the first unconsumed digit `f`, followed by `rest`, rounds the accumulator up: the digits after
the 20-digit window are never examined (R198, R200). -/
def parseRoundsUp (acc f : Nat) (rest : List Nat) : Bool :=
  if f = 5 ∧ (rest.take Config.parseTieWindow).all (· == 0) then decide (acc % 2 = 1)
  else decide (5 ≤ f)

/-- Mantissa and exponent after the rounding of an early stop (R198, R200, R201). -/
def parseRound (acc : Nat) (unconsumed : List Nat) (e : Int) : Nat × Int :=
  match unconsumed with
  | [] => (acc, e)
  | f :: rest =>
    let e' := e + (unconsumed.length : Int)
    if parseRoundsUp acc f rest then
      if acc + 1 = Config.mantLimit then (carryMant, e' + 1) else (acc + 1, e')
    else (acc, e')

/-- Scale bookkeeping of a mantissa and the exponent of its last digit (R198, R202 b, c, d). -/
def parseScale (sign : Bool) (acc : Nat) (e : Int) : Decimal :=
  if (Config.scaleMax : Int) < -e then { sign := sign, scale := Config.scaleMax, mant := 0 }
  else if 0 < e then
    if acc * 10 ^ e.toNat < Config.mantLimit then { sign := sign, scale := 0, mant := acc * 10 ^ e.toNat }
    else { sign := sign, scale := 0, mant := 0 }
  else { sign := sign, scale := (-e).toNat, mant := acc }

/-- `Parse(sign, digits, e)`, total (R198). -/
def parseDecimal (sign : Bool) (digits : List Nat) (e : Int) : Decimal :=
  if (Config.maxPrecision : Int) < e then { sign := sign, scale := 0, mant := 0 }
  else
    let (acc, unconsumed) := consume 0 digits
    let (m, e') := parseRound acc unconsumed e
    parseScale sign m e'

/-- `DPARSE rd, ra, sgn, digits`: the exponent is `sext_32(w[ra])` (R196, R197). -/
def execDparse (rd ra : Reg) (sgn : Bool) (digits : List Byte) (s : State) : Outcome :=
  whenLegal (.dparse rd ra sgn digits) s
    (.next (s.setDecimal rd (parseDecimal sgn (digits.map digitValue) (s.limb ra).toInt)).completeOk)

end Sys2Proof.Machine
end

