-- ==== Sys2Proof/Machine/Division.lean ====
section
/-! DEFINITION. WideArith: the six division commands (spec/42_widearith_divide.md). -/

namespace Sys2Proof.Machine

/-- The preconditions of R101 for an `a`-limb dividend, a `b`-limb divisor and a `q`-limb quotient:
`D != 0`, `NORM` where `norm`, and `TOP` with `L = 32 * q` where `top`. -/
def divPrecondition (a b q : Nat) (norm top : Bool) (dividend divisor : Nat) : Bool :=
  decide (divisor ≠ 0) && (!norm || decide (2 ^ (32 * b - 1) ≤ divisor)) &&
    (!top || decide (dividend / 2 ^ (32 * a - 32 * q) < divisor / 2 ^ (32 * b - 32 * q)))

/-- The shared division: exact floor quotient and remainder, undefined where the precondition fails
(R100, R102, R103). -/
def divGroups (a b q : Nat) (norm top : Bool) (rd rc ra rb : Nat) (s : State) : Outcome :=
  let dividend := s.group ra a
  let divisor := s.group rb b
  if divPrecondition a b q norm top dividend divisor then
    .next ((s.setGroup rd q (dividend / divisor)).setGroup rc b (dividend % divisor)).completeOk
  else .fault .divPrecondition

/-- `DIV64BY32 rd, rc, ra, rb` (R104). -/
def execDiv64by32 (rd rc ra rb : Reg) (s : State) : Outcome :=
  whenLegal (.div64by32 rd rc ra rb) s (divGroups 2 1 1 false true rd rc ra rb s)

/-- `DIV128BY64 rd, rc, ra, rb` (R105). -/
def execDiv128by64 (rd rc ra rb : Reg) (s : State) : Outcome :=
  whenLegal (.div128by64 rd rc ra rb) s (divGroups 4 2 2 false true rd rc ra rb s)

/-- `DIV96BY32 rd, rc, ra, rb` (R106). -/
def execDiv96by32 (rd rc ra rb : Reg) (s : State) : Outcome :=
  whenLegal (.div96by32 rd rc ra rb) s (divGroups 3 1 3 false false rd rc ra rb s)

/-- `DIV128BY96 rd, rc, ra, rb` (R107). -/
def execDiv128by96 (rd rc ra rb : Reg) (s : State) : Outcome :=
  whenLegal (.div128by96 rd rc ra rb) s (divGroups 4 3 1 true true rd rc ra rb s)

/-- `DIV160BY96 rd, rc, ra, rb` (R108). -/
def execDiv160by96 (rd rc ra rb : Reg) (s : State) : Outcome :=
  whenLegal (.div160by96 rd rc ra rb) s (divGroups 5 3 2 true true rd rc ra rb s)

/-- `DIV96BY64 rd, rc, ra, rb` (R109). -/
def execDiv96by64 (rd rc ra rb : Reg) (s : State) : Outcome :=
  whenLegal (.div96by64 rd rc ra rb) s (divGroups 3 2 1 true true rd rc ra rb s)

end Sys2Proof.Machine
end

