-- ==== Sys2Proof/Machine/HostAccess.lean ====
section
/-! DEFINITION. Host access to the register file: `LI`, `RD` (spec/49_host_access.md). -/

namespace Sys2Proof.Machine

/-- `LI rd, imm32` (R216). -/
def execLi (rd : Reg) (imm : Word) (s : State) : Outcome :=
  whenLegal (.li rd imm) s (.next (s.setLimb rd imm).completeOk)

/-- `RD ra`: the register goes to the `data` field of the completion record (R217, R221). -/
def execRdReg (ra : Reg) (s : State) : Outcome :=
  whenLegal (.rdReg ra) s (.next (s.complete .ok (s.limb ra)))

end Sys2Proof.Machine
end

