-- ==== Sys2Proof/Machine/Multiply.lean ====
section
/-! DEFINITION. WideArith: `MUL32`, `MUL64X32`, `MUL64` (spec/41_widearith_multiply.md). -/

namespace Sys2Proof.Machine

/-- The shared multiplication: the full product of an `na`-limb and an `nb`-limb group (R90 to R94). -/
def mulGroups (na nb rd ra rb : Nat) (s : State) : State :=
  (s.setGroup rd (na + nb) (s.group ra na * s.group rb nb)).completeOk

/-- `MUL32 rd, ra, rb` (R90). -/
def execMul32 (rd ra rb : Reg) (s : State) : Outcome :=
  whenLegal (.mul32 rd ra rb) s (.next (mulGroups 1 1 rd ra rb s))

/-- `MUL64X32 rd, ra, rb` (R91). -/
def execMul64x32 (rd ra rb : Reg) (s : State) : Outcome :=
  whenLegal (.mul64x32 rd ra rb) s (.next (mulGroups 2 1 rd ra rb s))

/-- `MUL64 rd, ra, rb` (R92). -/
def execMul64 (rd ra rb : Reg) (s : State) : Outcome :=
  whenLegal (.mul64 rd ra rb) s (.next (mulGroups 2 2 rd ra rb s))

end Sys2Proof.Machine
end

