-- ==== Sys2Proof/Machine/ScanShift.lean ====
section
/-! DEFINITION. WideArith: bit scan, leading-zero count, left shift (spec/43_widearith_scan_shift.md). -/

namespace Sys2Proof.Machine

/-- The shared scan of an `n`-limb operand; the scan of 0 is undefined (R115, R116). -/
def msbGroup (n rd ra : Nat) (s : State) : Outcome :=
  let x := s.group ra n
  if x = 0 then .fault .msbOfZero
  else .next (s.setLimb rd (BitVec.ofNat 32 (msb x))).completeOk

/-- The leading zero bits of an `n`-limb operand, its width for 0 (R117, R118). -/
def leadingZeros (n x : Nat) : Nat := if x = 0 then 32 * n else 32 * n - 1 - msb x

/-- The shared leading-zero count (R117, R118). -/
def lzcGroup (n rd ra : Nat) (s : State) : State :=
  (s.setLimb rd (BitVec.ofNat 32 (leadingZeros n (s.group ra n)))).completeOk

/-- The 128-bit left shift; every count of 128 or more gives 0 (R119). -/
def shiftLeft128 (x count : Nat) : Nat := if 128 ≤ count then 0 else x * 2 ^ count % 2 ^ 128

/-- `MSB32 rd, ra` (R115). -/
def execMsb32 (rd ra : Reg) (s : State) : Outcome := whenLegal (.msb32 rd ra) s (msbGroup 1 rd ra s)

/-- `MSB64 rd, ra` (R116). -/
def execMsb64 (rd ra : Reg) (s : State) : Outcome := whenLegal (.msb64 rd ra) s (msbGroup 2 rd ra s)

/-- `LZC32 rd, ra` (R117). -/
def execLzc32 (rd ra : Reg) (s : State) : Outcome :=
  whenLegal (.lzc32 rd ra) s (.next (lzcGroup 1 rd ra s))

/-- `LZC64 rd, ra` (R118). -/
def execLzc64 (rd ra : Reg) (s : State) : Outcome :=
  whenLegal (.lzc64 rd ra) s (.next (lzcGroup 2 rd ra s))

/-- `SHL128 rd, ra, rb` (R119). -/
def execShl128 (rd ra rb : Reg) (s : State) : Outcome :=
  whenLegal (.shl128 rd ra rb) s
    (.next (s.setGroup rd 4 (shiftLeft128 (s.group ra 4) (s.limb rb).toNat)).completeOk)

end Sys2Proof.Machine
end

