-- ==== Sys2Proof/Machine/Dispatch.lean ====
section
/-! DEFINITION. One arm per constructor of `Instr`, each one direct call of its meaning. -/

namespace Sys2Proof.Machine

/-- The meaning of every command (R261, R262). -/
def exec (i : Instr) (s : State) : Host.Outcome State Fault Refusal :=
  match i with
  | .add n rd ra rb => Sys2Proof.Machine.execAdd n rd ra rb s
  | .adc n rd ra rb => Sys2Proof.Machine.execAdc n rd ra rb s
  | .sub n rd ra rb => Sys2Proof.Machine.execSub n rd ra rb s
  | .sbb n rd ra rb => Sys2Proof.Machine.execSbb n rd ra rb s
  | .neg n rd ra => Sys2Proof.Machine.execNeg n rd ra s
  | .mul32 rd ra rb => Sys2Proof.Machine.execMul32 rd ra rb s
  | .mul64x32 rd ra rb => Sys2Proof.Machine.execMul64x32 rd ra rb s
  | .mul64 rd ra rb => Sys2Proof.Machine.execMul64 rd ra rb s
  | .div64by32 rd rc ra rb => Sys2Proof.Machine.execDiv64by32 rd rc ra rb s
  | .div128by64 rd rc ra rb => Sys2Proof.Machine.execDiv128by64 rd rc ra rb s
  | .div96by32 rd rc ra rb => Sys2Proof.Machine.execDiv96by32 rd rc ra rb s
  | .div128by96 rd rc ra rb => Sys2Proof.Machine.execDiv128by96 rd rc ra rb s
  | .div160by96 rd rc ra rb => Sys2Proof.Machine.execDiv160by96 rd rc ra rb s
  | .div96by64 rd rc ra rb => Sys2Proof.Machine.execDiv96by64 rd rc ra rb s
  | .msb32 rd ra => Sys2Proof.Machine.execMsb32 rd ra s
  | .msb64 rd ra => Sys2Proof.Machine.execMsb64 rd ra s
  | .lzc32 rd ra => Sys2Proof.Machine.execLzc32 rd ra s
  | .lzc64 rd ra => Sys2Proof.Machine.execLzc64 rd ra s
  | .shl128 rd ra rb => Sys2Proof.Machine.execShl128 rd ra rb s
  | .reduce rd ra rb rc => Sys2Proof.Machine.execReduce rd ra rb rc s
  | .reduceAcc rd ra rb rc => Sys2Proof.Machine.execReduceAcc rd ra rb rc s
  | .reduceClr rd ra rb rc => Sys2Proof.Machine.execReduceClr rd ra rb rc s
  | .scaleres rd ra rb => Sys2Proof.Machine.execScaleres rd ra rb s
  | .rndhe n rd ra rb => Sys2Proof.Machine.execRndhe n rd ra rb s
  | .rndheS n rd ra rb => Sys2Proof.Machine.execRndheS n rd ra rb s
  | .dmul rd ra rb => Sys2Proof.Machine.execDmul rd ra rb s
  | .dadd rd ra rb => Sys2Proof.Machine.execDadd rd ra rb s
  | .dsub rd ra rb => Sys2Proof.Machine.execDsub rd ra rb s
  | .ddiv rd ra rb => Sys2Proof.Machine.execDdiv rd ra rb s
  | .dparse rd ra sgn digits => Sys2Proof.Machine.execDparse rd ra sgn digits s
  | .li rd imm => Sys2Proof.Machine.execLi rd imm s
  | .rdReg ra => Sys2Proof.Machine.execRdReg ra s

end Sys2Proof.Machine
end

