-- ==== Sys2Proof/Machine/Step.lean ====
section
/-! DEFINITION. One step: the next complete command of the command stream is taken off it and executed
(R50, R73, R262). -/

namespace Sys2Proof.Machine

/-- One step of CORE. While no complete command waits, nothing happens (R73); an illegal command consumes its
words and completes `IllegalCommand` (R224); a legal one has its meaning. -/
def step (s : State) : Host.Outcome State Fault Refusal :=
  match decode s.commands with
  | .incomplete => .next s
  | .illegal _ rest => .next ({ s with commands := rest }.completeError .illegalCommand)
  | .command i rest => exec i { s with commands := rest }

/-- `s` with the command whose bits are `w` at the head of the command stream, where the next step takes it
(notes/assumptions/3.md, 16.md). -/
def State.withFetchWord (s : State) (nbits w : Nat) : State :=
  { s with commands := tableWords nbits w ++ s.commands }

end Sys2Proof.Machine
end

