-- ==== Sys2Proof/Machine/Record.lean ====
section
/-! DEFINITION. The 16-byte Decimal exchange record and the host's conversion between it and a Decimal group
(R42 to R45, R72, R219). CORE never sees the record; no step calls these functions (notes/assumptions/12.md). -/

namespace Sys2Proof.Machine

/-- The four words of a record, `W0` to `W3` (R44). -/
def recordWord (record : List Byte) (j : Nat) : Word := (packBytes record).getD j 0

/-- The Decimal a record holds; bytes 0..1 and bits 6:0 of byte 3 are ignored (R43). -/
def decimalOfRecord (record : List Byte) : Decimal where
  sign := ctlSign (recordWord record 0)
  scale := ctlScale (recordWord record 0)
  mant := (recordWord record 1).toNat + 2 ^ 32 * (recordWord record 2).toNat
    + 2 ^ 64 * (recordWord record 3).toNat

/-- The record of a Decimal, unused fields written as 0 (R43). -/
def recordOfDecimal (d : Decimal) : List Byte :=
  unpackBytes [ctlWord d.sign d.scale, BitVec.ofNat 32 d.mant, BitVec.ofNat 32 (d.mant / 2 ^ 32),
    BitVec.ofNat 32 (d.mant / 2 ^ 64)]

/-- The four `LI` commands by which a host loads a record into `D(r)` (R44, R219). -/
def loadRecord (r : Nat) (record : List Byte) : List Instr :=
  [.li (Fin.ofNat 32 r) (recordWord record 1), .li (Fin.ofNat 32 (r + 1)) (recordWord record 2),
    .li (Fin.ofNat 32 (r + 2)) (recordWord record 3), .li (Fin.ofNat 32 (r + 3)) (recordWord record 0)]

/-- The four `RD` commands by which a host takes `D(r)` out (R219). -/
def unloadDecimal (r : Nat) : List Instr :=
  [.rdReg (Fin.ofNat 32 r), .rdReg (Fin.ofNat 32 (r + 1)), .rdReg (Fin.ofNat 32 (r + 2)),
    .rdReg (Fin.ofNat 32 (r + 3))]

/-- Run a list of commands in order, stopping at the first fault: a program (R50, R261). -/
def execList : List Instr → State → Outcome
  | [], s => .next s
  | i :: is, s =>
    match exec i s with
    | .next t => execList is t
    | .fault r => .fault r
    | .refused r => .refused r

end Sys2Proof.Machine
end

