-- ==== Sys2Proof/Machine/Strict.lean ====
section
/-! DEFINITION. The registers a command reads, and the literal rule R37 on top of `exec` and `step`: a read of
a register not written since reset faults `UnwrittenRegister`, judged after legality (R226, R231). The main
machine goes on with the value the register holds (notes/assumptions/1.md, 14.md). -/

namespace Sys2Proof.Machine

/-- The limbs of the magnitude window that are read: `0 .. hi`, none when `hi` is above 5 (R126). -/
def windowReads (rd ra : Nat) (s : State) : List Nat :=
  if Config.hiMax < (s.limb ra).toNat then [] else List.range' rd ((s.limb ra).toNat + 1)

/-- The register numbers a command reads in state `s` (R62, R126, R128). -/
def readsOf (i : Instr) (s : State) : List Nat :=
  match i with
  | .reduce rd ra _ _ => ra.val :: windowReads rd ra s ++ i.srcs.flatMap Group.regs
  | .reduceAcc rd ra _ rc => ra.val :: (rc.val + 1) :: windowReads rd ra s ++ i.srcs.flatMap Group.regs
  | .reduceClr rd ra _ _ => ra.val :: windowReads rd ra s ++ i.srcs.flatMap Group.regs
  | .scaleres rd ra rb => ra.val :: rb.val :: windowReads rd ra s
  | .rndhe n rd _ _ => List.range' rd (limbs n) ++ i.srcs.flatMap Group.regs
  | .rndheS n rd _ _ => List.range' rd (limbs n) ++ i.srcs.flatMap Group.regs
  | .add .. | .adc .. | .sub .. | .sbb .. | .neg .. | .mul32 .. | .mul64x32 .. | .mul64 ..
  | .div64by32 .. | .div128by64 .. | .div96by32 .. | .div128by96 .. | .div160by96 .. | .div96by64 ..
  | .msb32 .. | .msb64 .. | .lzc32 .. | .lzc64 .. | .shl128 .. | .dmul .. | .dadd .. | .dsub ..
  | .ddiv .. | .dparse .. | .li .. | .rdReg .. => i.srcs.flatMap Group.regs

/-- Every register the command reads has been written since reset (R37). -/
def readsWritten (i : Instr) (s : State) : Bool := (readsOf i s).all s.isWritten

/-- `exec` with R37 taken literally: legality first, then `UnwrittenRegister` (R231). -/
def execStrict (i : Instr) (s : State) : Outcome :=
  if i.wellFormed && !readsWritten i s then .fault .unwrittenRegister else exec i s

/-- `step` with R37 taken literally. -/
def stepStrict (s : State) : Outcome :=
  match decode s.commands with
  | .incomplete => .next s
  | .illegal _ rest => .next ({ s with commands := rest }.completeError .illegalCommand)
  | .command i rest => execStrict i { s with commands := rest }

end Sys2Proof.Machine
end

