-- ==== Sys2Proof/Safety.lean ====
section
/-! DEFINITION. What claims about CORE are stated in: how a command ends and what it leaves alone (R47, R221,
R223), the invariant of the state, and which runs the spec specifies (R37, R226, R253, R254). -/

namespace Sys2Proof.Safety

open Sys2Proof.Machine

/-- No group of the list holds register `k`. -/
def outside (gs : List Group) (k : Nat) : Bool := gs.all (fun g => !g.holds k)

/-- Registers outside the groups keep their value and their written mark (R47). -/
def sameElsewhere (gs : List Group) (s t : State) : Prop :=
  ∀ k, outside gs k = true → t.limb k = s.limb k ∧ t.isWritten k = s.isWritten k

/-- `t` is `s` after a command that completed `OK` with the given data, with flags `c` and `sticky`, and wrote
exactly the registers of the groups: one completion record is added, the waiting words stay (R37, R221, R222). -/
def endsOk (gs : List Group) (data : Word) (c sticky : Bool) (s t : State) : Prop :=
  t.flags = { c := c, s := sticky, err := 0 } ∧
  t.completions = s.completions ++ [{ data := data, flags := t.flags.byte }] ∧
  t.commands = s.commands ∧
  sameElsewhere gs s t ∧
  ∀ k, k < Config.nreg → outside gs k = false → t.isWritten k = true

/-- `t` is `s` after a command that completed with an error: nothing but `ERR` changes, and the record has
data 0 (R221, R223). -/
def endsWithError (code : Code) (s t : State) : Prop :=
  t.w = s.w ∧ t.written = s.written ∧ t.commands = s.commands ∧
  t.flags = { c := s.flags.c, s := s.flags.s, err := code.bits } ∧
  t.completions = s.completions ++ [{ data := 0, flags := t.flags.byte }]

/-- A completion record the spec can produce: bits 39:37 zero and `ERR` at most 3 (so the `flags` byte is below
16), and no data with an error (R221, R222). -/
def recordOk (r : Completion) : Prop := r.flags.toNat < 16 ∧ (4 ≤ r.flags.toNat → r.data = 0)

/-- The invariant of CORE's state: `ERR` is one of the four codes, every record returned is one the spec can
produce, and the last one shows the current `FLAGS` (R30, R221, R222). -/
def Inv (s : State) : Prop :=
  s.flags.err.toNat ≤ 3 ∧ (∀ r ∈ s.completions, recordOk r) ∧
  ∀ r, s.completions.getLast? = some r → r.flags = s.flags.byte

/-- The spec specifies the next step: it raises no `Undefined` and reads no unwritten register (R226, R253). -/
def specified (s : State) : Bool :=
  match stepStrict s with
  | .next _ => true
  | .fault _ => false
  | .refused _ => false

/-- A safe run: each of the next `k` steps is specified (R254). -/
def safeFor : Nat → State → Prop
  | 0, _ => True
  | k + 1, s => specified s = true ∧ ∀ t, step s = .next t → safeFor k t

/-- The signed integer a sign and a magnitude stand for (R25). -/
def signed (sign : Bool) (m : Nat) : Int := if sign then -(m : Int) else (m : Int)

/-- A Decimal that keeps the data model's invariants (R25). -/
def validDecimal (d : Decimal) : Prop := d.scale ≤ Config.scaleMax ∧ d.mant < Config.mantLimit

/-- Two Decimals have the same numeric value (R25): `m1 * 10^-s1 = m2 * 10^-s2` with their signs. -/
def sameValue (a b : Decimal) : Prop :=
  signed a.sign a.mant * 10 ^ b.scale = signed b.sign b.mant * 10 ^ a.scale

/-- The completion codes a command can end with (R222, R228). -/
def codesOf : Instr → List Code
  | .scaleres .. | .dmul .. | .dadd .. | .dsub .. => [.ok, .overflow, .illegalCommand]
  | .ddiv .. => [.ok, .overflow, .divideByZero, .illegalCommand]
  | .add .. | .adc .. | .sub .. | .sbb .. | .neg .. | .mul32 .. | .mul64x32 .. | .mul64 ..
  | .div64by32 .. | .div128by64 .. | .div96by32 .. | .div128by96 .. | .div160by96 .. | .div96by64 ..
  | .msb32 .. | .msb64 .. | .lzc32 .. | .lzc64 .. | .shl128 .. | .reduce .. | .reduceAcc ..
  | .reduceClr .. | .rndhe .. | .rndheS .. | .dparse .. | .li .. | .rdReg .. => [.ok, .illegalCommand]

/-- The reasons of `Undefined` a command can raise, `UnwrittenRegister` apart (R226, R228). -/
def faultsOf : Instr → List Fault
  | .div64by32 .. | .div128by64 .. | .div96by32 .. | .div128by96 .. | .div160by96 .. | .div96by64 .. =>
    [.divPrecondition]
  | .msb32 .. | .msb64 .. => [.msbOfZero]
  | .reduce .. | .reduceAcc .. | .reduceClr .. | .scaleres .. => [.badHi]
  | .rndhe .. | .rndheS .. => [.roundPrecondition]
  | .dmul .. | .dadd .. | .dsub .. | .ddiv .. => [.badScale]
  | .add .. | .adc .. | .sub .. | .sbb .. | .neg .. | .mul32 .. | .mul64x32 .. | .mul64 .. | .lzc32 ..
  | .lzc64 .. | .shl128 .. | .dparse .. | .li .. | .rdReg .. => []

/-- The commands that write `C` (R30). -/
def writesC : Instr → Bool
  | .add .. | .adc .. | .sub .. | .sbb .. | .neg .. | .rndhe .. | .rndheS .. => true
  | .mul32 .. | .mul64x32 .. | .mul64 .. | .div64by32 .. | .div128by64 .. | .div96by32 ..
  | .div128by96 .. | .div160by96 .. | .div96by64 .. | .msb32 .. | .msb64 .. | .lzc32 .. | .lzc64 ..
  | .shl128 .. | .reduce .. | .reduceAcc .. | .reduceClr .. | .scaleres .. | .dmul .. | .dadd ..
  | .dsub .. | .ddiv .. | .dparse .. | .li .. | .rdReg .. => false

/-- The commands that write `S` (R30). -/
def writesS : Instr → Bool
  | .reduceAcc .. | .reduceClr .. => true
  | .add .. | .adc .. | .sub .. | .sbb .. | .neg .. | .mul32 .. | .mul64x32 .. | .mul64 ..
  | .div64by32 .. | .div128by64 .. | .div96by32 .. | .div128by96 .. | .div160by96 .. | .div96by64 ..
  | .msb32 .. | .msb64 .. | .lzc32 .. | .lzc64 .. | .shl128 .. | .reduce .. | .scaleres .. | .rndhe ..
  | .rndheS .. | .dmul .. | .dadd .. | .dsub .. | .ddiv .. | .dparse .. | .li .. | .rdReg .. => false

/-- The commands that read `C` (R34). -/
def readsC : Instr → Bool
  | .adc .. | .sbb .. => true
  | .add .. | .sub .. | .neg .. | .mul32 .. | .mul64x32 .. | .mul64 .. | .div64by32 .. | .div128by64 ..
  | .div96by32 .. | .div128by96 .. | .div160by96 .. | .div96by64 .. | .msb32 .. | .msb64 .. | .lzc32 ..
  | .lzc64 .. | .shl128 .. | .reduce .. | .reduceAcc .. | .reduceClr .. | .scaleres .. | .rndhe ..
  | .rndheS .. | .dmul .. | .dadd .. | .dsub .. | .ddiv .. | .dparse .. | .li .. | .rdReg .. => false

/-- The commands that read `S` (R34). -/
def readsS : Instr → Bool
  | .reduceAcc .. | .rndheS .. => true
  | .add .. | .adc .. | .sub .. | .sbb .. | .neg .. | .mul32 .. | .mul64x32 .. | .mul64 ..
  | .div64by32 .. | .div128by64 .. | .div96by32 .. | .div128by96 .. | .div160by96 .. | .div96by64 ..
  | .msb32 .. | .msb64 .. | .lzc32 .. | .lzc64 .. | .shl128 .. | .reduce .. | .reduceClr ..
  | .scaleres .. | .rndhe .. | .dmul .. | .dadd .. | .dsub .. | .ddiv .. | .dparse .. | .li ..
  | .rdReg .. => false

/-- A division step ended in `t`: the exact quotient and remainder stand in their groups, and nothing else
changed (R100, R103). -/
def divided (a b q rd rc ra rb : Nat) (s t : State) : Prop :=
  s.group ra a = t.group rd q * s.group rb b + t.group rc b ∧ t.group rc b < s.group rb b ∧
  endsOk [⟨rd, q⟩, ⟨rc, b⟩] 0 s.flags.c s.flags.s s t

/-- Register `ra` of `t` holds the index of the highest nonzero limb of `m`, which stands in the window at
`rd`; 0 when `m` is 0 (R16, R126). -/
def highestLimb (rd ra m : Nat) (t : State) : Prop :=
  m < 2 ^ (32 * ((t.limb ra).toNat + 1)) ∧
  ((t.limb ra).toNat = 0 ∨ t.limb (rd + (t.limb ra).toNat) ≠ 0)

/-- A reduction step of the magnitude in limbs `0 .. hi` ended in `t` with the given sticky bit; limbs above
`hi` are untouched (R126, R127). -/
def reduced (rd ra rb rc : Nat) (sticky : Bool) (s t : State) : Prop :=
  let hi := (s.limb ra).toNat
  let m := s.group rd (hi + 1)
  let d := 10 ^ min (s.limb rb).toNat 9
  t.group rd (hi + 1) = m / d ∧ (t.limb rc).toNat = d ∧ (t.limb (rc + 1)).toNat = m % d ∧
  (t.limb ra).toNat ≤ hi ∧ highestLimb rd ra (m / d) t ∧
  endsOk [⟨rd, hi + 1⟩, ⟨ra, 1⟩, ⟨rc, 2⟩] 0 s.flags.c sticky s t

/-- `SCALERES` ended in `t` with mantissa `q` and scale `s'`: the mantissa in limbs `0 .. max(hi, 2)`, `hiLimb(q)`
in the `hi` register, the scale in the scale register. The limbs above `max(hi, 2)` keep their values and their
written marks (R138; notes/assumptions/7.md). -/
def scaled (rd ra rb q s' : Nat) (s t : State) : Prop :=
  let n := max ((s.limb ra).toNat + 1) 3
  t.group rd n = q ∧ (t.limb ra).toNat = hiLimb q ∧ (t.limb ra).toNat ≤ 2 ∧ highestLimb rd ra q t ∧
  (t.limb rb).toNat = s' ∧ s' ≤ 28 ∧
  endsOk [⟨rd, n⟩, ⟨ra, 1⟩, ⟨rb, 1⟩] 0 s.flags.c s.flags.s s t

/-- The Decimal group at `r` holds `d`, and its `ctl` word is `sign * 2^31 + scale * 2^16`: the unused bits are
zero (R27). -/
def holdsDecimal (r : Nat) (d : Decimal) (t : State) : Prop :=
  t.decimal r = d ∧ (t.limb (r + 3)).toNat = d.sign.toNat * 2 ^ 31 + d.scale * 2 ^ 16

/-- `Divide` takes no more digits than these `K`: the scale is 28, or one digit more need not fit 96 bits (R180,
R186). -/
def digitsEnd (a b : Decimal) (K : Nat) : Prop :=
  a.scale + K = b.scale + 28 ∨ 2 ^ 96 < (a.mant * 10 ^ K / b.mant + 1) * 10

/-- `K` is at most the `Kmax` of R186, the least number of digits at which `Divide` ends. -/
def digitsReach (a b : Decimal) (K : Nat) : Prop := ∀ j, j < K → ¬ digitsEnd a b j

/-- The commands that reduce a window by `10^p` for each `p` of the list: the budget is loaded before each
step, the first step clears `S` and the others accumulate into it (R130, R132). -/
def reduceChain (rd ra rb rc : Reg) : List Nat → List Instr
  | [] => []
  | p :: ps => [.li rb (BitVec.ofNat 32 p), .reduceClr rd ra rb rc] ++
      ps.flatMap fun q => [.li rb (BitVec.ofNat 32 q), .reduceAcc rd ra rb rc]

/-- The two states differ at most in what registers hold that no command has written since reset (R37). -/
def sameWritten (s t : State) : Prop :=
  s.written = t.written ∧ s.flags = t.flags ∧ s.commands = t.commands ∧ s.completions = t.completions ∧
  ∀ k, s.isWritten k = true → s.limb k = t.limb k

/-- The integer a digit string spells, most significant digit first (R203). -/
def spelled (digits : List Nat) : Nat := digits.foldl (fun n d => n * 10 + d) 0

end Sys2Proof.Safety
end

