-- ==== Sys2Proof/Certificates/Slice0/Obligations.lean ====
section
/-! DEFINITION. The statements for the provers, listed in OBLIGATIONS.json. Each docstring names the rules of
spec/ it formalises. -/

open Sys2Proof Sys2Proof.Machine Sys2Proof.Safety

/-! ## The step and the command stream -/

/-- R50, R262: when the decoder finds a command at the head of the stream, it is legal, and the step is that
command's meaning on the state whose stream has lost the command's words. -/
def Obligations.StepRunsDecodedCommand : Prop :=
  ∀ (s : State) (i : Instr) (rest : List Word), decode s.commands = .command i rest →
    i.wellFormed = true ∧ step s = exec i { s with commands := rest }

/-- R244: a complete legal command presented to a CORE that waits for one is what the next step runs, and the
stream is empty again. -/
def Obligations.PresentedCommandIsTheNextStep : Prop :=
  ∀ (s : State) (i : Instr), s.commands = [] → i.wellFormed = true →
    step (s.present (encode i)) = exec i s

/-- R73: the length of a command is read off its first word. With fewer words waiting nothing happens; with
enough, the step takes exactly that many words, whether the command is legal or not. -/
def Obligations.StreamIsConsumedByLength : Prop :=
  (∀ s : State, s.commands = [] → step s = .next s) ∧
  ∀ (s : State) (x : Word) (tail : List Word), s.commands = x :: tail →
    let length :=
      if x.toNat / 2 ^ 26 = 0x30 then 2
      else if x.toNat / 2 ^ 26 = 0x2C then 1 + (x.toNat / 2 % 2 ^ 15 + 3) / 4
      else 1
    ((x :: tail).length < length → step s = .next s) ∧
    (length ≤ (x :: tail).length → ∀ t, step s = .next t → t.commands = (x :: tail).drop length)

/-- R224, R262: illegal words, and a command term that no legal words stand for, complete `IllegalCommand`:
nothing but `ERR` changes, and the record has data 0. The second clause is the model's reading
(notes/assumptions/6.md). -/
def Obligations.IllegalCommandChangesOnlyErr : Prop :=
  (∀ (s : State) (why : Illegal) (rest : List Word), decode s.commands = .illegal why rest →
    ∃ t, step s = .next t ∧ endsWithError .illegalCommand { s with commands := rest } t) ∧
  ∀ (i : Instr) (s : State), i.wellFormed = false →
    ∃ t, exec i s = .next t ∧ endsWithError .illegalCommand s t

/-- R69: a first word with a reserved `op` is a one-word illegal command; so are all zeros and all ones. -/
def Obligations.ReservedOpIsOneWordIllegalCommand : Prop :=
  ∀ (x : Word) (tail : List Word),
    (x.toNat / 2 ^ 26 ∈ [0x00, 0x04, 0x05, 0x06, 0x07, 0x0B, 0x0C, 0x0D, 0x0E, 0x0F, 0x16, 0x17, 0x1B, 0x1C,
      0x1D, 0x1E, 0x1F, 0x23, 0x24, 0x25, 0x26, 0x27, 0x2A, 0x2D, 0x2E, 0x2F, 0x32, 0x33, 0x34, 0x35, 0x36,
      0x37, 0x38, 0x39, 0x3A, 0x3B, 0x3C, 0x3D, 0x3E, 0x3F] ∨ x = 0 ∨ x = BitVec.allOnes 32) →
    decode (x :: tail) = .illegal .reservedOp tail

/-- The host's fetch helper: the bits of an opcode-table row, put at the head of the stream, are run by the
very next step as the command the decoder reads from them (notes/assumptions/3.md, 16.md). -/
def Obligations.FetchedTableRowRuns : Prop :=
  ∀ (s : State) (nbits w : Nat) (i : Instr), decodeTableWord nbits w = some i →
    i.wellFormed = true ∧ step (s.withFetchWord nbits w) = exec i s

/-! ## Encoding -/

/-- R55 to R63, R70, R73: every legal command, with every operand value, is read back from its words, whatever
follows them in the stream. -/
def Obligations.DecodeOfEncodeIsTheCommand : Prop :=
  ∀ (i : Instr) (rest : List Word), i.wellFormed = true → decode (encode i ++ rest) = .command i rest

/-- R70, R262: the decoder reads a command only from that command's own words, and only if it is legal; so no
bit of a legal command is ignored and every other complete command is illegal. -/
def Obligations.DecodedWordsAreTheEncoding : Prop :=
  ∀ (ws rest : List Word) (i : Instr), decode ws = .command i rest →
    i.wellFormed = true ∧ ws = encode i ++ rest

/-- R63: of all rows of the opcode table, the first word of a legal command matches its own row's mask and
match and no other's. -/
def Obligations.MatchMaskSelectsOneRow : Prop :=
  ∀ i j : Instr, i.wellFormed = true →
    ((encode i).headD 0 &&& (matchMask j).2 = (matchMask j).1 ↔ matchMask i = matchMask j)

/-- The examples of R81, R85, R92, R104, R116, R119, R128, R132, R138, R162, R177, R197, R216 and R217: the
words the spec writes out decode to the commands it names. -/
def Obligations.WrittenOutWordsDecode : Prop :=
  decode [0x04044010] = .command (.add 2 0 4 8) [] ∧
  decode [0x0C000010] = .command (.neg 2 0 0) [] ∧
  decode [0x28043000] = .command (.mul64 0 4 6) [] ∧
  decode [0x40022040] = .command (.div64by32 0 1 2 4) [] ∧
  decode [0x60020001] = .command (.msb64 0 2) [] ∧
  decode [0x68044000] = .command (.shl128 0 4 8) [] ∧
  decode [0x80063A01] = .command (.reduceAcc 0 6 7 8) [] ∧
  decode [0x84063800] = .command (.scaleres 0 6 7) [] ∧
  decode [0x88044011] = .command (.rndheS 2 0 4 8) [] ∧
  decode [0xA5002001] = .command (.dsub 8 0 4) [] ∧
  decode [0xAD002000] = .command (.ddiv 8 0 4) [] ∧
  decode [0xB10C000B, 0x34333231, 0x00000035]
    = .command (.dparse 8 12 true [0x31, 0x32, 0x33, 0x34, 0x35]) [] ∧
  decode [0xC0A00000, 0x80020000] = .command (.li 5 0x80020000) [] ∧
  decode [0xC4050000] = .command (.rdReg 5) []

/-! ## Registers, groups, Decimals -/

/-- R14, R23: a value group is the sum of its limbs, least significant first. -/
def Obligations.GroupIsTheSumOfItsLimbs : Prop :=
  ∀ (s : State) (r n : Nat), s.group r n = ∑ j ∈ Finset.range n, (s.limb (r + j)).toNat * 2 ^ (32 * j)

/-- R27: writing a Decimal group stores the mantissa's three words and a `ctl` word
`sign * 2^31 + scale * 2^16`, its unused bits zero; the group then reads back as written. -/
def Obligations.DecimalGroupWrite : Prop :=
  ∀ (s : State) (r : Nat) (d : Decimal), r + 4 ≤ 32 → d.scale ≤ 28 → d.mant < 2 ^ 96 →
    let t := s.setDecimal r d
    t.group r 3 = d.mant ∧
    (t.limb (r + 3)).toNat = d.sign.toNat * 2 ^ 31 + d.scale * 2 ^ 16 ∧
    (t.limb (r + 3)).extractLsb' 24 7 = 0 ∧ (t.limb (r + 3)).extractLsb' 0 16 = 0 ∧
    t.decimal r = d

/-- R43, R44, R45: a Decimal's exchange record has 16 bytes: two zero bytes, the scale, the sign in the top
bit of the fourth byte, then the mantissa's twelve bytes, least significant first; and it is read back. -/
def Obligations.ExchangeRecordRoundTrip : Prop :=
  ∀ d : Decimal, validDecimal d →
    recordOfDecimal d = [0, 0, BitVec.ofNat 8 d.scale, BitVec.ofNat 8 (d.sign.toNat * 2 ^ 7)] ++
      (List.range 12).map (fun j => BitVec.ofNat 8 (d.mant / 2 ^ (8 * j))) ∧
    decimalOfRecord (recordOfDecimal d) = d

/-! ## Completions, flags, frames -/

/-- R221: every command that ends in a next state returns exactly one 40-bit record, with the data of an `RD`
in bits 31:0 (0 for every other command and every error) and `FLAGS` after the command in bits 39:32. -/
def Obligations.OneCompletionRecordPerCommand : Prop :=
  ∀ s t : State, decode s.commands ≠ .incomplete → step s = .next t →
    ∃ r : Completion, t.completions = s.completions ++ [r] ∧
      r.bits.extractLsb' 0 32 =
        (match decode s.commands with
        | .command (.rdReg ra) _ => s.limb ra
        | _ => 0) ∧
      r.bits.getLsbD 32 = t.flags.c ∧ r.bits.getLsbD 33 = t.flags.s ∧
      r.bits.extractLsb' 34 3 = t.flags.err ∧ r.bits.extractLsb' 37 3 = 0

/-- R223: a command that ends with a code other than `OK` changes nothing but `ERR`: no register, no written
mark, not `C`, not `S`; the code is one of the three error codes and the record's data is 0. -/
def Obligations.FailedCommandChangesOnlyErr : Prop :=
  ∀ s t : State, decode s.commands ≠ .incomplete → step s = .next t → t.flags.err ≠ 0 →
    t.w = s.w ∧ t.written = s.written ∧ t.flags.c = s.flags.c ∧ t.flags.s = s.flags.s ∧
    (t.flags.err = Code.overflow.bits ∨ t.flags.err = Code.divideByZero.bits ∨
      t.flags.err = Code.illegalCommand.bits) ∧
    ∃ r : Completion, t.completions = s.completions ++ [r] ∧ r.data = 0

/-- R222, R226, R228: how each command can end: with a code of its own list, `IllegalCommand` exactly when it
is not legal, or with a fault of its own list; never in another way. -/
def Obligations.OutcomesPerCommand : Prop :=
  ∀ (i : Instr) (s : State),
    (∃ t c, exec i s = .next t ∧ c ∈ codesOf i ∧ t.flags.err = c.bits ∧
      (c = .illegalCommand ↔ i.wellFormed = false)) ∨
    ∃ f, exec i s = .fault f ∧ f ∈ faultsOf i ∧ i.wellFormed = true

/-- R230: `DivideByZero` is the completion of a legal `DDIV` with operands in range exactly when the divisor's
mantissa is 0, and of no other command. -/
def Obligations.DivideByZeroExactlyForZeroDivisor : Prop :=
  (∀ (i : Instr) (s t : State), exec i s = .next t →
    (t.flags.err = Code.divideByZero.bits ↔
      ∃ rd ra rb, i = .ddiv rd ra rb ∧ i.wellFormed = true ∧ s.group rb 3 = 0)) ∧
  ∀ (rd ra rb : Reg) (s : State), (Instr.ddiv rd ra rb).wellFormed = true →
    (s.decimal ra).scale ≤ 28 → (s.decimal rb).scale ≤ 28 → s.group rb 3 = 0 →
    ∃ t, exec (.ddiv rd ra rb) s = .next t ∧ endsWithError .divideByZero s t

/-- R31: a command not listed for a flag leaves that flag unchanged, and so does every command that does not
complete `OK`. `writesC` and `writesS` are the "written by" column of R30. -/
def Obligations.FlagsWrittenOnlyByListedCommands : Prop :=
  ∀ (i : Instr) (s t : State), exec i s = .next t →
    (writesC i = false → t.flags.c = s.flags.c) ∧ (writesS i = false → t.flags.s = s.flags.s) ∧
    (t.flags.err ≠ 0 → t.flags.c = s.flags.c ∧ t.flags.s = s.flags.s)

/-- R47, R53: the frame of every command: a register outside its destination groups keeps its value and its
written mark, and no command alters the words of a later one. -/
def Obligations.RegistersOutsideDestinationsKeep : Prop :=
  ∀ (i : Instr) (s t : State), exec i s = .next t →
    sameElsewhere i.dests s t ∧ t.commands = s.commands

/-- R34: the result of a command depends on nothing but the registers it reads and, for `ADC`, `SBB`,
`RNDHE.S` and `REDUCE.ACC`, the flag it reads: from two states that agree on these it ends the same way, and
every register, flag and record is either equal or in both runs untouched. -/
def Obligations.ResultDependsOnNamedInputsOnly : Prop :=
  ∀ (i : Instr) (s₁ s₂ : State), (∀ k ∈ readsOf i s₁, s₁.limb k = s₂.limb k) →
    (readsC i = true → s₁.flags.c = s₂.flags.c) → (readsS i = true → s₁.flags.s = s₂.flags.s) →
    (∀ f, exec i s₁ = .fault f → exec i s₂ = .fault f) ∧
    ∀ t₁, exec i s₁ = .next t₁ →
      ∃ t₂, exec i s₂ = .next t₂ ∧ t₁.flags.err = t₂.flags.err ∧
        (∀ k, t₁.limb k = t₂.limb k ∨ (t₁.limb k = s₁.limb k ∧ t₂.limb k = s₂.limb k)) ∧
        (t₁.flags.c = t₂.flags.c ∨ (t₁.flags.c = s₁.flags.c ∧ t₂.flags.c = s₂.flags.c)) ∧
        (t₁.flags.s = t₂.flags.s ∨ (t₁.flags.s = s₁.flags.s ∧ t₂.flags.s = s₂.flags.s)) ∧
        ∃ r₁ r₂ : Completion, t₁.completions = s₁.completions ++ [r₁] ∧
          t₂.completions = s₂.completions ++ [r₂] ∧ r₁.data = r₂.data

/-- R37, R252: under the literal rule R37 nothing a run shows depends on what an unwritten register holds, so
not on the value the model resets registers to (notes/assumptions/1.md, 14.md): two states that differ only
there end the same way and again differ only there. -/
def Obligations.StrictStepIgnoresUnwrittenValues : Prop :=
  ∀ s₁ s₂ : State, sameWritten s₁ s₂ →
    match stepStrict s₁, stepStrict s₂ with
    | .next t₁, .next t₂ => sameWritten t₁ t₂
    | .fault f₁, .fault f₂ => f₁ = f₂
    | _, _ => False

/-- R37, R231 under the literal rule R37 (notes/assumptions/14.md): a legal command that reads an unwritten
register faults; an illegal one completes `IllegalCommand` whatever it names; and where all registers read
have been written the model's two forms agree. -/
def Obligations.UnwrittenReadIsJudgedAfterLegality : Prop :=
  ∀ (i : Instr) (s : State),
    (i.wellFormed = true → (∃ k ∈ readsOf i s, s.isWritten k = false) →
      execStrict i s = .fault .unwrittenRegister) ∧
    (i.wellFormed = false → ∃ t, execStrict i s = .next t ∧ endsWithError .illegalCommand s t) ∧
    ((∀ k ∈ readsOf i s, s.isWritten k = true) → execStrict i s = exec i s)

/-! ## Reset and the invariant -/

/-- R250, R251: reset gives, from every state, `FLAGS = 0`, no written register, and empty streams. Nothing is
said of what the registers hold: that is the model's choice (notes/assumptions/1.md). -/
def Obligations.ResetState : Prop :=
  (∀ s : State, s.assertReset = State.reset) ∧
  State.reset.flags = { c := false, s := false, err := 0 } ∧
  (∀ k, State.reset.isWritten k = false) ∧ State.reset.commands = [] ∧ State.reset.completions = []

/-- R30, R221, R222: the invariant holds after reset. -/
def Obligations.InvariantHoldsAtReset : Prop := Safety.Inv State.reset

/-- R30, R221, R222: every step keeps the invariant: `ERR` is one of the four codes, every record returned is
one the spec can produce, and the last one shows the current `FLAGS`. -/
def Obligations.StepKeepsTheInvariant : Prop :=
  ∀ s t : State, Safety.Inv s → step s = .next t → Safety.Inv t

/-! ## Add, subtract, negate -/

/-- R81, R82: a legal `ADD.n` or `ADC.n` completes with the sum modulo `2^(32n)`, and `C` is set exactly when
the sum does not fit. -/
def Obligations.AdditionResults : Prop :=
  ∀ (n : LimbField) (rd ra rb : Reg) (s : State),
    let N := limbs n
    ((Instr.add n rd ra rb).wellFormed = true →
      ∃ t, exec (.add n rd ra rb) s = .next t ∧
        t.group rd N = (s.group ra N + s.group rb N) % 2 ^ (32 * N) ∧
        endsOk [⟨rd, N⟩] 0 (decide (2 ^ (32 * N) ≤ s.group ra N + s.group rb N)) s.flags.s s t) ∧
    ((Instr.adc n rd ra rb).wellFormed = true →
      ∃ t, exec (.adc n rd ra rb) s = .next t ∧
        t.group rd N = (s.group ra N + s.group rb N + s.flags.c.toNat) % 2 ^ (32 * N) ∧
        endsOk [⟨rd, N⟩] 0 (decide (2 ^ (32 * N) ≤ s.group ra N + s.group rb N + s.flags.c.toNat))
          s.flags.s s t)

/-- R83, R84: a legal `SUB.n` or `SBB.n` completes with the residue of the difference modulo `2^(32n)`, and
`C` is set exactly when the difference is negative. -/
def Obligations.SubtractionResults : Prop :=
  ∀ (n : LimbField) (rd ra rb : Reg) (s : State),
    let N := limbs n
    ((Instr.sub n rd ra rb).wellFormed = true →
      ∃ t, exec (.sub n rd ra rb) s = .next t ∧
        (t.group rd N : Int) = ((s.group ra N : Int) - s.group rb N) % 2 ^ (32 * N) ∧
        endsOk [⟨rd, N⟩] 0 (decide (s.group ra N < s.group rb N)) s.flags.s s t) ∧
    ((Instr.sbb n rd ra rb).wellFormed = true →
      ∃ t, exec (.sbb n rd ra rb) s = .next t ∧
        (t.group rd N : Int) = ((s.group ra N : Int) - s.group rb N - s.flags.c.toNat) % 2 ^ (32 * N) ∧
        endsOk [⟨rd, N⟩] 0 (decide (s.group ra N < s.group rb N + s.flags.c.toNat)) s.flags.s s t)

/-- R85: a legal `NEG.n` completes with the two's complement: 0 for 0 with `C` clear, and otherwise the value
that adds up to `2^(32n)` with `C` set. -/
def Obligations.NegationResult : Prop :=
  ∀ (n : LimbField) (rd ra : Reg) (s : State), (Instr.neg n rd ra).wellFormed = true →
    let N := limbs n
    ∃ t, exec (.neg n rd ra) s = .next t ∧
      (s.group ra N = 0 → t.group rd N = 0) ∧
      (s.group ra N ≠ 0 → t.group rd N + s.group ra N = 2 ^ (32 * N)) ∧
      endsOk [⟨rd, N⟩] 0 (decide (s.group ra N ≠ 0)) s.flags.s s t

/-- R85: after a `SUB.n` that borrowed, `NEG.n` of the destination gives the magnitude of the difference. -/
def Obligations.NegationRecoversTheMagnitude : Prop :=
  ∀ (n : LimbField) (rd ra rb : Reg) (s : State), (Instr.sub n rd ra rb).wellFormed = true →
    s.group ra (limbs n) < s.group rb (limbs n) →
    ∃ t u, exec (.sub n rd ra rb) s = .next t ∧ t.flags.c = true ∧
      exec (.neg n rd rd) t = .next u ∧ u.flags.c = true ∧
      u.group rd (limbs n) = s.group rb (limbs n) - s.group ra (limbs n)

/-- R86: an addition or subtraction of `n1 + n2` limbs has the effect of its `n1`-limb form followed by the
carry form on the next `n2` limbs, if the first destination does not overlap the second step's sources. -/
def Obligations.WideAdditionSplitsIntoAChain : Prop :=
  ∀ (n n₁ n₂ : LimbField) (rd ra rb rd₂ ra₂ rb₂ : Reg) (s : State),
    limbs n = limbs n₁ + limbs n₂ → rd₂.val = rd.val + limbs n₁ → ra₂.val = ra.val + limbs n₁ →
    rb₂.val = rb.val + limbs n₁ →
    Group.meets ⟨rd, limbs n₁⟩ ⟨ra₂, limbs n₂⟩ = false →
    Group.meets ⟨rd, limbs n₁⟩ ⟨rb₂, limbs n₂⟩ = false →
    (Instr.add n rd ra rb).wellFormed = true →
    (∃ t t₁ t₂, exec (.add n rd ra rb) s = .next t ∧ exec (.add n₁ rd ra rb) s = .next t₁ ∧
      exec (.adc n₂ rd₂ ra₂ rb₂) t₁ = .next t₂ ∧
      t₂.w = t.w ∧ t₂.written = t.written ∧ t₂.flags = t.flags) ∧
    ∃ t t₁ t₂, exec (.sub n rd ra rb) s = .next t ∧ exec (.sub n₁ rd ra rb) s = .next t₁ ∧
      exec (.sbb n₂ rd₂ ra₂ rb₂) t₁ = .next t₂ ∧
      t₂.w = t.w ∧ t₂.written = t.written ∧ t₂.flags = t.flags

/-! ## Multiply and divide -/

/-- R90, R91, R92, R93: the three multiplications complete with the whole product, no flag written. -/
def Obligations.MultiplicationResults : Prop :=
  ∀ (rd ra rb : Reg) (s : State),
    ((Instr.mul32 rd ra rb).wellFormed = true →
      ∃ t, exec (.mul32 rd ra rb) s = .next t ∧
        t.group rd 2 = (s.limb ra).toNat * (s.limb rb).toNat ∧
        endsOk [⟨rd, 2⟩] 0 s.flags.c s.flags.s s t) ∧
    ((Instr.mul64x32 rd ra rb).wellFormed = true →
      ∃ t, exec (.mul64x32 rd ra rb) s = .next t ∧
        t.group rd 3 = s.group ra 2 * (s.limb rb).toNat ∧
        endsOk [⟨rd, 3⟩] 0 s.flags.c s.flags.s s t) ∧
    ((Instr.mul64 rd ra rb).wellFormed = true →
      ∃ t, exec (.mul64 rd ra rb) s = .next t ∧
        t.group rd 4 = s.group ra 2 * s.group rb 2 ∧
        endsOk [⟨rd, 4⟩] 0 s.flags.c s.flags.s s t)

/-- R100 to R109: each division, legal and with its preconditions met as R104 to R109 write them out, completes
with the exact quotient and remainder in full, no flag written. -/
def Obligations.DivisionResults : Prop :=
  ∀ (rd rc ra rb : Reg) (s : State),
    ((Instr.div64by32 rd rc ra rb).wellFormed = true → s.limb (ra + 1 : Nat) < s.limb rb →
      ∃ t, exec (.div64by32 rd rc ra rb) s = .next t ∧ divided 2 1 1 rd rc ra rb s t) ∧
    ((Instr.div128by64 rd rc ra rb).wellFormed = true → s.group (ra + 2 : Nat) 2 < s.group rb 2 →
      ∃ t, exec (.div128by64 rd rc ra rb) s = .next t ∧ divided 4 2 2 rd rc ra rb s t) ∧
    ((Instr.div96by32 rd rc ra rb).wellFormed = true → s.limb rb ≠ 0 →
      ∃ t, exec (.div96by32 rd rc ra rb) s = .next t ∧ divided 3 1 3 rd rc ra rb s t) ∧
    ((Instr.div128by96 rd rc ra rb).wellFormed = true → (s.limb (rb + 2 : Nat)).getLsbD 31 = true →
      s.limb (ra + 3 : Nat) < s.limb (rb + 2 : Nat) →
      ∃ t, exec (.div128by96 rd rc ra rb) s = .next t ∧ divided 4 3 1 rd rc ra rb s t) ∧
    ((Instr.div160by96 rd rc ra rb).wellFormed = true → (s.limb (rb + 2 : Nat)).getLsbD 31 = true →
      s.group (ra + 3 : Nat) 2 < s.group (rb + 1 : Nat) 2 →
      ∃ t, exec (.div160by96 rd rc ra rb) s = .next t ∧ divided 5 3 2 rd rc ra rb s t) ∧
    ((Instr.div96by64 rd rc ra rb).wellFormed = true → (s.limb (rb + 1 : Nat)).getLsbD 31 = true →
      s.limb (ra + 2 : Nat) < s.limb (rb + 1 : Nat) →
      ∃ t, exec (.div96by64 rd rc ra rb) s = .next t ∧ divided 3 2 1 rd rc ra rb s t)

/-- R102, R226: where a precondition fails, a zero divisor among them, a legal division raises
`Undefined(DivPrecondition)`. -/
def Obligations.DivisionPreconditionFaults : Prop :=
  ∀ (rd rc ra rb : Reg) (s : State),
    ((Instr.div64by32 rd rc ra rb).wellFormed = true → ¬ s.limb (ra + 1 : Nat) < s.limb rb →
      exec (.div64by32 rd rc ra rb) s = .fault .divPrecondition) ∧
    ((Instr.div128by64 rd rc ra rb).wellFormed = true → ¬ s.group (ra + 2 : Nat) 2 < s.group rb 2 →
      exec (.div128by64 rd rc ra rb) s = .fault .divPrecondition) ∧
    ((Instr.div96by32 rd rc ra rb).wellFormed = true → s.limb rb = 0 →
      exec (.div96by32 rd rc ra rb) s = .fault .divPrecondition) ∧
    ((Instr.div128by96 rd rc ra rb).wellFormed = true →
      ¬ ((s.limb (rb + 2 : Nat)).getLsbD 31 = true ∧ s.limb (ra + 3 : Nat) < s.limb (rb + 2 : Nat)) →
      exec (.div128by96 rd rc ra rb) s = .fault .divPrecondition) ∧
    ((Instr.div160by96 rd rc ra rb).wellFormed = true →
      ¬ ((s.limb (rb + 2 : Nat)).getLsbD 31 = true ∧
        s.group (ra + 3 : Nat) 2 < s.group (rb + 1 : Nat) 2) →
      exec (.div160by96 rd rc ra rb) s = .fault .divPrecondition) ∧
    ((Instr.div96by64 rd rc ra rb).wellFormed = true →
      ¬ ((s.limb (rb + 1 : Nat)).getLsbD 31 = true ∧ s.limb (ra + 2 : Nat) < s.limb (rb + 1 : Nat)) →
      exec (.div96by64 rd rc ra rb) s = .fault .divPrecondition)

/-! ## Scan, count, shift -/

/-- R115, R116: the scan of a nonzero operand completes with the index of its most significant set bit. -/
def Obligations.ScanResults : Prop :=
  ∀ (rd ra : Reg) (s : State),
    (s.limb ra ≠ 0 →
      ∃ t, exec (.msb32 rd ra) s = .next t ∧
        2 ^ (t.limb rd).toNat ≤ (s.limb ra).toNat ∧ (s.limb ra).toNat < 2 ^ ((t.limb rd).toNat + 1) ∧
        endsOk [⟨rd, 1⟩] 0 s.flags.c s.flags.s s t) ∧
    ((Instr.msb64 rd ra).wellFormed = true → s.group ra 2 ≠ 0 →
      ∃ t, exec (.msb64 rd ra) s = .next t ∧
        2 ^ (t.limb rd).toNat ≤ s.group ra 2 ∧ s.group ra 2 < 2 ^ ((t.limb rd).toNat + 1) ∧
        endsOk [⟨rd, 1⟩] 0 s.flags.c s.flags.s s t)

/-- R117, R118: the leading-zero count is total: the width for 0, and otherwise the count that brings the top
bit of the operand to the top of its width. -/
def Obligations.LeadingZeroResults : Prop :=
  ∀ (rd ra : Reg) (s : State),
    (∃ t, exec (.lzc32 rd ra) s = .next t ∧
      (s.limb ra = 0 → t.limb rd = 32) ∧
      (s.limb ra ≠ 0 → 2 ^ 31 ≤ (s.limb ra).toNat * 2 ^ (t.limb rd).toNat ∧
        (s.limb ra).toNat * 2 ^ (t.limb rd).toNat < 2 ^ 32) ∧
      endsOk [⟨rd, 1⟩] 0 s.flags.c s.flags.s s t) ∧
    ((Instr.lzc64 rd ra).wellFormed = true →
      ∃ t, exec (.lzc64 rd ra) s = .next t ∧
        (s.group ra 2 = 0 → t.limb rd = 64) ∧
        (s.group ra 2 ≠ 0 → 2 ^ 63 ≤ s.group ra 2 * 2 ^ (t.limb rd).toNat ∧
          s.group ra 2 * 2 ^ (t.limb rd).toNat < 2 ^ 64) ∧
        endsOk [⟨rd, 1⟩] 0 s.flags.c s.flags.s s t)

/-- R120: for a nonzero operand of width `W`, 32 or 64, `LZC_W(x) = W - 1 - MSB_W(x)`,
`2^MSB_W(x) <= x < 2^(MSB_W(x) + 1)`, and shifting `x` left by `LZC_W(x)` sets its top bit and loses
nothing. -/
def Obligations.CountIsWidthLessScan : Prop :=
  ∀ (rd rd' ra : Reg) (s : State),
    (s.limb ra ≠ 0 →
      ∃ t u, exec (.msb32 rd ra) s = .next t ∧ exec (.lzc32 rd' ra) s = .next u ∧
        let x := (s.limb ra).toNat
        let msb := (t.limb rd).toNat
        let lzc := (u.limb rd').toNat
        lzc + 1 + msb = 32 ∧ 2 ^ msb ≤ x ∧ x < 2 ^ (msb + 1) ∧
        2 ^ 31 ≤ x * 2 ^ lzc ∧ x * 2 ^ lzc < 2 ^ 32) ∧
    ((Instr.msb64 rd ra).wellFormed = true → s.group ra 2 ≠ 0 →
      ∃ t u, exec (.msb64 rd ra) s = .next t ∧ exec (.lzc64 rd' ra) s = .next u ∧
        let x := s.group ra 2
        let msb := (t.limb rd).toNat
        let lzc := (u.limb rd').toNat
        lzc + 1 + msb = 64 ∧ 2 ^ msb ≤ x ∧ x < 2 ^ (msb + 1) ∧ 2 ^ 63 ≤ x * 2 ^ lzc ∧ x * 2 ^ lzc < 2 ^ 64)

/-- R119: the 128-bit left shift by the whole count register; from 128 on the result is 0. -/
def Obligations.ShiftResult : Prop :=
  ∀ (rd ra rb : Reg) (s : State), (Instr.shl128 rd ra rb).wellFormed = true →
    ∃ t, exec (.shl128 rd ra rb) s = .next t ∧
      t.group rd 4 = s.group ra 4 * 2 ^ (s.limb rb).toNat % 2 ^ 128 ∧
      (128 ≤ (s.limb rb).toNat → t.group rd 4 = 0) ∧
      endsOk [⟨rd, 4⟩] 0 s.flags.c s.flags.s s t

/-! ## The scale engine -/

/-- R126 to R129: a legal reduction step with `hi` at most 5 completes with quotient, divisor, remainder and the
new `hi`; the three modes keep, accumulate into and clear `S`. -/
def Obligations.ReductionResults : Prop :=
  ∀ (rd ra rb rc : Reg) (s : State), (s.limb ra).toNat ≤ 5 →
    ((Instr.reduce rd ra rb rc).wellFormed = true →
      ∃ t, exec (.reduce rd ra rb rc) s = .next t ∧ reduced rd ra rb rc s.flags.s s t) ∧
    ((Instr.reduceAcc rd ra rb rc).wellFormed = true →
      ∃ t, exec (.reduceAcc rd ra rb rc) s = .next t ∧
        reduced rd ra rb rc (s.flags.s || decide (s.limb (rc + 1 : Nat) ≠ 0)) s t) ∧
    ((Instr.reduceClr rd ra rb rc).wellFormed = true →
      ∃ t, exec (.reduceClr rd ra rb rc) s = .next t ∧ reduced rd ra rb rc false s t)

/-- R130: a chain of truncating reduction steps that collects the discarded remainders in `S` rounds exactly:
the decision of R132 on the last remainder and divisor gives `RHE` of the first magnitude by the product of
all divisors. -/
def Obligations.StickyChainRoundsExactly : Prop :=
  ∀ (rd ra rb rc : Reg) (ps : List Nat) (s : State),
    (Instr.reduceClr rd ra rb rc).wellFormed = true →
    outside (Instr.reduceClr rd ra rb rc).dests rb = true →
    (s.limb ra).toNat ≤ 5 → ps ≠ [] → (∀ p ∈ ps, 1 ≤ p ∧ p ≤ 9) →
    ∃ t, execList (reduceChain rd ra rb rc ps) s = .next t ∧
      let hi := (s.limb ra).toNat
      let q := t.group rd (hi + 1)
      let r := (t.limb (rc + 1 : Nat)).toNat
      let d := (t.limb rc).toNat
      let up := decide (d < 2 * r ∨ (2 * r = d ∧ (q % 2 = 1 ∨ t.flags.s = true)))
      q + up.toNat = rhe (s.group rd (hi + 1)) (10 ^ ps.sum)

/-- R131, R132: a legal rounding step with a remainder below a nonzero divisor completes with the quotient
rounded half to even, `C` set exactly when the increment carries out; only `RNDHE.S` looks at `S`. -/
def Obligations.RoundingResults : Prop :=
  ∀ (n : LimbField) (rd ra rb : Reg) (s : State), s.group ra (limbs n) < s.group rb (limbs n) →
    let N := limbs n
    let q := s.group rd N
    let r := s.group ra N
    let d := s.group rb N
    ((Instr.rndhe n rd ra rb).wellFormed = true →
      ∃ t, exec (.rndhe n rd ra rb) s = .next t ∧
        let sum := q + (decide (d < 2 * r ∨ (2 * r = d ∧ q % 2 = 1))).toNat
        t.group rd N = sum % 2 ^ (32 * N) ∧
        endsOk [⟨rd, N⟩] 0 (decide (2 ^ (32 * N) ≤ sum)) s.flags.s s t) ∧
    ((Instr.rndheS n rd ra rb).wellFormed = true →
      ∃ t, exec (.rndheS n rd ra rb) s = .next t ∧
        let sum := q + (decide (d < 2 * r ∨ (2 * r = d ∧ (q % 2 = 1 ∨ s.flags.s = true)))).toNat
        t.group rd N = sum % 2 ^ (32 * N) ∧
        endsOk [⟨rd, N⟩] 0 (decide (2 ^ (32 * N) ≤ sum)) s.flags.s s t)

/-- R138, R139: a legal `SCALERES` with `hi` at most 5 completes. Where the magnitude fits 96 bits and the scale is
at most 28 it completes `OK` with both unchanged; in general it completes `OK` with the mantissa, its `hiLimb` and
the new scale that `ScaleResult` gives, and `Overflow` with nothing changed where that overflows; there is no third
case. Window limbs above `max(hi, 2)` keep their values and their written marks (notes/assumptions/7.md). -/
def Obligations.ScaleresResult : Prop :=
  ∀ (rd ra rb : Reg) (s : State), (Instr.scaleres rd ra rb).wellFormed = true → (s.limb ra).toNat ≤ 5 →
    let m := s.group rd ((s.limb ra).toNat + 1)
    let scale := (s.limb rb).toNat
    (∃ t, exec (.scaleres rd ra rb) s = .next t ∧ (t.flags.err = 0 ∨ t.flags.err = Code.overflow.bits)) ∧
    (m < 2 ^ 96 → scale ≤ 28 →
      ∃ t, exec (.scaleres rd ra rb) s = .next t ∧ scaled rd ra rb m scale s t) ∧
    (∀ q s', scaleResult m scale = .ok (q, s') →
      ∃ t, exec (.scaleres rd ra rb) s = .next t ∧ scaled rd ra rb q s' s t) ∧
    (scaleResult m scale = .error .overflow →
      ∃ t, exec (.scaleres rd ra rb) s = .next t ∧ endsWithError .overflow s t)

/-- R134, R156, R222: for a magnitude below `2^192`, `ScaleResult` gives the value rounded half to even at the
largest scale, at most 28 and at most the given one, at which it fits 96 bits; and `Overflow` exactly when
there is no such scale. -/
def Obligations.ScaleResultIsTheBestFit : Prop :=
  ∀ m s : Nat, m < 2 ^ 192 →
    (∀ q s', scaleResult m s = .ok (q, s') ↔
      (s' ≤ s ∧ s' ≤ 28 ∧ q = rhe m (10 ^ (s - s')) ∧ q < 2 ^ 96 ∧
        ∀ j, s' < j → j ≤ s → j ≤ 28 → 2 ^ 96 ≤ rhe m (10 ^ (s - j)))) ∧
    (scaleResult m s = .error .overflow ↔
      ∀ j, j ≤ s → j ≤ 28 → 2 ^ 96 ≤ rhe m (10 ^ (s - j)))

/-- R135: the estimate `KEST` never exceeds the least power that brings a magnitude below `2^96`, and is below
it by at most 1. -/
def Obligations.EstimateIsACloseLowerBound : Prop :=
  ∀ m k : Nat, m < 2 ^ 192 → m / 10 ^ k < 2 ^ 96 → (∀ j, j < k → 2 ^ 96 ≤ m / 10 ^ j) →
    kest m ≤ k ∧ k ≤ kest m + 1

/-- R137: DS's procedure and the closed form return the same value for every magnitude below `2^192` and every
scale in 0..56. -/
def Obligations.ProcedureEqualsTheClosedForm : Prop :=
  ∀ m s : Nat, m < 2 ^ 192 → s ≤ 56 → scaleProcedure m s = scaleResult m s

/-! ## Decimal multiply, add, subtract -/

/-- R151, R152, R155, R156: a legal `DMUL` of operands in range: four zero registers where a mantissa is zero;
the exact product at the summed scale where that fits; in general the sign xor and what `ScaleResult` gives
for the product; `Overflow` with nothing changed where `ScaleResult` overflows. A written group's unused `ctl`
bits are 0 (R27). -/
def Obligations.DecimalProductResult : Prop :=
  ∀ (rd ra rb : Reg) (s : State), (Instr.dmul rd ra rb).wellFormed = true →
    let a := s.decimal ra
    let b := s.decimal rb
    let p := a.mant * b.mant
    let sg := a.sign ^^ b.sign
    a.scale ≤ 28 → b.scale ≤ 28 →
    (p = 0 → ∃ t, exec (.dmul rd ra rb) s = .next t ∧
      t.limb rd = 0 ∧ t.limb (rd + 1 : Nat) = 0 ∧ t.limb (rd + 2 : Nat) = 0 ∧ t.limb (rd + 3 : Nat) = 0 ∧
      endsOk [⟨rd, 4⟩] 0 s.flags.c s.flags.s s t) ∧
    (p ≠ 0 → p < 2 ^ 96 → a.scale + b.scale ≤ 28 → ∃ t, exec (.dmul rd ra rb) s = .next t ∧
      holdsDecimal rd { sign := sg, scale := a.scale + b.scale, mant := p } t ∧
      endsOk [⟨rd, 4⟩] 0 s.flags.c s.flags.s s t) ∧
    (∀ q s', p ≠ 0 → scaleResult p (a.scale + b.scale) = .ok (q, s') →
      ∃ t, exec (.dmul rd ra rb) s = .next t ∧
        holdsDecimal rd { sign := sg, scale := s', mant := q } t ∧
        endsOk [⟨rd, 4⟩] 0 s.flags.c s.flags.s s t) ∧
    (p ≠ 0 → scaleResult p (a.scale + b.scale) = .error .overflow →
      ∃ t, exec (.dmul rd ra rb) s = .next t ∧ endsWithError .overflow s t)

/-- R161, R162: a legal `DADD` or `DSUB` of operands in range completes with the Decimal that `AddSub` gives,
the unused `ctl` bits 0 (R27), or `Overflow` with nothing changed. -/
def Obligations.DecimalSumResults : Prop :=
  ∀ (rd ra rb : Reg) (s : State), (Instr.dadd rd ra rb).wellFormed = true →
    let a := s.decimal ra
    let b := s.decimal rb
    a.scale ≤ 28 → b.scale ≤ 28 →
    ((∀ d, addSubDecimal false a b = .ok d →
        ∃ t, exec (.dadd rd ra rb) s = .next t ∧ holdsDecimal rd d t ∧
          endsOk [⟨rd, 4⟩] 0 s.flags.c s.flags.s s t) ∧
      (addSubDecimal false a b = .error .overflow →
        ∃ t, exec (.dadd rd ra rb) s = .next t ∧ endsWithError .overflow s t)) ∧
    (∀ d, addSubDecimal true a b = .ok d →
      ∃ t, exec (.dsub rd ra rb) s = .next t ∧ holdsDecimal rd d t ∧
        endsOk [⟨rd, 4⟩] 0 s.flags.c s.flags.s s t) ∧
    (addSubDecimal true a b = .error .overflow →
      ∃ t, exec (.dsub rd ra rb) s = .next t ∧ endsWithError .overflow s t)

/-- R163, R164, R167, R168: `AddSub` in closed form. With `V` the exact sum or difference in units of
`10^-s`, `s` the larger scale: below `2^96` in magnitude it is the result itself; from there on it is what
`ScaleResult` makes of the magnitude, with the sign of `V`; and the sign of an exact zero is as R167 and R168
say. -/
def Obligations.DecimalSumIsExactOrBestFit : Prop :=
  ∀ (sub : Bool) (a b : Decimal), validDecimal a → validDecimal b →
    let s := max a.scale b.scale
    let tb := b.sign ^^ sub
    let V := signed a.sign (a.mant * 10 ^ (s - a.scale)) + signed tb (b.mant * 10 ^ (s - b.scale))
    (V ≠ 0 → V.natAbs < 2 ^ 96 →
      addSubDecimal sub a b = .ok { sign := decide (V < 0), scale := s, mant := V.natAbs }) ∧
    (V = 0 →
      let zeroSign :=
        if a.scale < b.scale ∧ a.mant = 0 then tb
        else if b.scale < a.scale ∧ b.mant = 0 then a.sign
        else if a.sign = tb then a.sign else false
      addSubDecimal sub a b = .ok { sign := zeroSign, scale := s, mant := 0 }) ∧
    (2 ^ 96 ≤ V.natAbs →
      (∀ q s', scaleResult V.natAbs s = .ok (q, s') →
        addSubDecimal sub a b = .ok { sign := decide (V < 0), scale := s', mant := q }) ∧
      (scaleResult V.natAbs s = .error .overflow → addSubDecimal sub a b = .error .overflow))

/-- R170 (a), (b): `DADD` with its sources exchanged is the same step; `AddSub` of the difference with its
operands exchanged overflows in both orders, or has the same scale and mantissa and, unless it is zero, the
opposite sign. -/
def Obligations.DecimalSumCommutes : Prop :=
  (∀ (rd ra rb : Reg) (s : State), exec (.dadd rd ra rb) s = exec (.dadd rd rb ra) s) ∧
  ∀ a b : Decimal, validDecimal a → validDecimal b →
    match addSubDecimal true a b, addSubDecimal true b a with
    | .ok x, .ok y => x.scale = y.scale ∧ x.mant = y.mant ∧ (x.mant ≠ 0 → x.sign = !y.sign)
    | .error e, .error f => e = .overflow ∧ f = .overflow
    | _, _ => False

/-- R166, R169: `AddSub` can overflow only when the magnitudes are added. -/
def Obligations.OverflowOnlyWhenMagnitudesAdd : Prop :=
  ∀ (sub : Bool) (a b : Decimal) (e : Code), validDecimal a → validDecimal b →
    addSubDecimal sub a b = .error e → e = .overflow ∧ a.sign = (b.sign ^^ sub)

/-! ## Decimal divide -/

/-- R176, R177, R178: a legal `DDIV` of operands in range: `DivideByZero` where the divisor's mantissa is 0; the
exact quotient at the difference of the scales where it needs no scaling; in general the Decimal that `Divide`
gives, or `Overflow`; nothing changed by an error; the unused `ctl` bits of a result 0 (R27). -/
def Obligations.DecimalQuotientResult : Prop :=
  ∀ (rd ra rb : Reg) (s : State), (Instr.ddiv rd ra rb).wellFormed = true →
    let a := s.decimal ra
    let b := s.decimal rb
    a.scale ≤ 28 → b.scale ≤ 28 →
    (b.mant = 0 → ∃ t, exec (.ddiv rd ra rb) s = .next t ∧ endsWithError .divideByZero s t) ∧
    (b.mant ≠ 0 → a.mant % b.mant = 0 → b.scale ≤ a.scale →
      ∃ t, exec (.ddiv rd ra rb) s = .next t ∧
        holdsDecimal rd
          { sign := a.sign ^^ b.sign, scale := a.scale - b.scale, mant := a.mant / b.mant } t ∧
        endsOk [⟨rd, 4⟩] 0 s.flags.c s.flags.s s t) ∧
    (∀ d, divideDecimal a b = .ok d →
      ∃ t, exec (.ddiv rd ra rb) s = .next t ∧ holdsDecimal rd d t ∧
        endsOk [⟨rd, 4⟩] 0 s.flags.c s.flags.s s t) ∧
    (divideDecimal a b = .error .overflow →
      ∃ t, exec (.ddiv rd ra rb) s = .next t ∧ endsWithError .overflow s t)

/-- R180, R181: the scale search gives the one power that is safe and maximal; it is 0 exactly from the
threshold R180 names on. -/
def Obligations.ScaleSearchIsSafeAndMaximal : Prop :=
  ∀ (q : Nat) (s : Int), q < 2 ^ 96 → s < 28 →
    let k := searchScale q s
    (k ≤ 19 ∧ s + k ≤ 28 ∧ (q + 1) * 10 ^ k ≤ 2 ^ 96) ∧
    (∀ j : Nat, j ≤ 19 → s + j ≤ 28 → (q + 1) * 10 ^ j ≤ 2 ^ 96 → j ≤ k) ∧
    (k = 0 ↔ 7922816251426433759354395033 ≤ q)

/-- R178, R182, R184, R185, R186, R187, R190 (c): what `Divide` answers. A quotient is a valid Decimal with the xor of
the signs. Its value is exact if the division is exact at some `K` up to R186's `Kmax`, and else is the true quotient
rounded half to even at `Kmax` more digits. Which of the equal Decimals it is: without a scaling step the quotient at
the difference of the scales with its zeros kept, brought up to scale 0 from a negative one; after a scaling step the
one without a trailing zero unless the scale is 0 (a zero stands at scale 0 then, notes/assumptions/10.md). `Overflow`
means (a) an exact quotient of at least `2^96` or (b) an inexact one at `Kmax` with the scale still negative; the true
quotient is at least `2^96 - 6` in both. -/
def Obligations.QuotientIsExactOrNearest : Prop :=
  ∀ a b : Decimal, validDecimal a → validDecimal b → b.mant ≠ 0 →
    (∀ d, divideDecimal a b = .ok d →
      validDecimal d ∧ d.sign = (a.sign ^^ b.sign) ∧
      ((a.mant * 10 ^ b.scale * 10 ^ d.scale = d.mant * b.mant * 10 ^ a.scale ∧
          ∃ K, digitsReach a b K ∧ a.mant * 10 ^ K % b.mant = 0) ∨
        ∃ K sK : Nat, a.scale + K = b.scale + sK ∧ sK ≤ 28 ∧ d.scale ≤ sK ∧
          digitsEnd a b K ∧ digitsReach a b K ∧
          a.mant * 10 ^ K % b.mant ≠ 0 ∧
          rhe (a.mant * 10 ^ K) b.mant = d.mant * 10 ^ (sK - d.scale)) ∧
      (a.mant % b.mant = 0 →
        d.scale = a.scale - b.scale ∧ d.mant = a.mant / b.mant * 10 ^ (b.scale - a.scale)) ∧
      (a.mant % b.mant ≠ 0 → digitsEnd a b 0 →
        b.scale + d.scale = a.scale ∧ d.mant = rhe a.mant b.mant) ∧
      (a.mant % b.mant ≠ 0 → ¬ digitsEnd a b 0 → d.mant % 10 ≠ 0 ∨ d.scale = 0)) ∧
    ∀ e, divideDecimal a b = .error e →
      e = .overflow ∧ (2 ^ 96 - 6) * b.mant * 10 ^ a.scale ≤ a.mant * 10 ^ b.scale ∧
      ∃ K, digitsReach a b K ∧
        (a.mant * 10 ^ K % b.mant = 0 ∧ 2 ^ 96 * b.mant * 10 ^ a.scale ≤ a.mant * 10 ^ b.scale ∨
          a.mant * 10 ^ K % b.mant ≠ 0 ∧ digitsEnd a b K ∧ a.scale + K < b.scale)

/-- R185: the unscale pass keeps the value, never makes the scale negative, and leaves no trailing decimal
zero unless the scale is 0. -/
def Obligations.UnscaleStripsEveryZero : Prop :=
  ∀ q scale : Nat, scale ≤ 28 →
    let p := unscale q scale
    p.2 ≤ scale ∧ q = p.1 * 10 ^ (scale - p.2) ∧ (p.1 % 10 ≠ 0 ∨ p.2 = 0)

/-- R158, R190 (a): multiplying and then dividing by the same Decimal gives back the first one's value, and the
Decimal itself when it is not zero, if no rounding occurred. -/
def Obligations.MultiplyThenDivideRecovers : Prop :=
  ∀ (rd rq ra rb : Reg) (s : State), (Instr.dmul rd ra rb).wellFormed = true →
    (Instr.ddiv rq rd rb).wellFormed = true → Group.meets ⟨rd, 4⟩ ⟨rb, 4⟩ = false →
    let a := s.decimal ra
    let b := s.decimal rb
    a.scale ≤ 28 → b.scale ≤ 28 → a.mant * b.mant < 2 ^ 96 → a.scale + b.scale ≤ 28 → b.mant ≠ 0 →
    ∃ t u, exec (.dmul rd ra rb) s = .next t ∧ exec (.ddiv rq rd rb) t = .next u ∧
      sameValue (u.decimal rq) a ∧ (a.mant ≠ 0 → u.decimal rq = a)

/-! ## Decimal parse -/

/-- R196, R197, R202, R204: a legal `DPARSE` always completes, with the Decimal that `Parse` gives for the digits
and the signed exponent `e`: a valid Decimal with the sign argument, its unused `ctl` bits 0 (R27).
R202 (a): `e > 29` gives zero at scale 0. Otherwise, with `m` and `E` the mantissa and exponent after the rounding of
an early stop (`ParseRoundsHalfToEven`): (b) `E < -28` gives zero at scale 28; (d) `-28 <= E <= 0` gives `m` at scale
`-E`; (c) a positive `E` gives `m * 10^E` at scale 0 where that fits 96 bits, and zero at scale 0 where it does not.
Where the whole digit string fits 96 bits the same is said of the integer it spells and of `e` itself. -/
def Obligations.ParseResult : Prop :=
  ∀ (rd ra : Reg) (sgn : Bool) (digits : List Byte) (s : State),
    (Instr.dparse rd ra sgn digits).wellFormed = true →
    let ds := digits.map fun b => b.toNat - 0x30
    let e := (s.limb ra).toInt
    let N := spelled ds
    let m := (parseRound (consume 0 ds).1 (consume 0 ds).2 e).1
    let E := (parseRound (consume 0 ds).1 (consume 0 ds).2 e).2
    ∃ t d, exec (.dparse rd ra sgn digits) s = .next t ∧ holdsDecimal rd d t ∧
      d = parseDecimal sgn ds e ∧ validDecimal d ∧ d.sign = sgn ∧
      (29 < e → d = { sign := sgn, scale := 0, mant := 0 }) ∧
      (e ≤ 29 →
        (E < -28 → d = { sign := sgn, scale := 28, mant := 0 }) ∧
        (-28 ≤ E → E ≤ 0 → d = { sign := sgn, scale := (-E).toNat, mant := m }) ∧
        (0 < E → m * 10 ^ E.toNat < 2 ^ 96 → d = { sign := sgn, scale := 0, mant := m * 10 ^ E.toNat }) ∧
        (0 < E → 2 ^ 96 ≤ m * 10 ^ E.toNat → d = { sign := sgn, scale := 0, mant := 0 })) ∧
      (N < 2 ^ 96 →
        (e < -28 → d = { sign := sgn, scale := 28, mant := 0 }) ∧
        (-28 ≤ e → e ≤ 0 → d = { sign := sgn, scale := (-e).toNat, mant := N }) ∧
        (0 < e → N * 10 ^ e.toNat < 2 ^ 96 → d = { sign := sgn, scale := 0, mant := N * 10 ^ e.toNat }) ∧
        (0 < e → 2 ^ 96 ≤ N * 10 ^ e.toNat → d = { sign := sgn, scale := 0, mant := 0 })) ∧
      endsOk [⟨rd, 4⟩] 0 s.flags.c s.flags.s s t

/-- R199, R200, R201: the parser consumes the longest prefix that fits 96 bits. It rounds what it consumed and the
first 21 digits left (the first unconsumed one and the window of twenty) half to even, and every digit left counts
one in the exponent; one more, with the mantissa `RHE(2^96, 10)`, when the rounding carries out of 96 bits. With at
most 21 digits left that is the rounding of the whole digit string; further digits add only to the exponent. -/
def Obligations.ParseRoundsHalfToEven : Prop :=
  ∀ (digits : List Nat) (e : Int), (∀ d ∈ digits, d < 10) →
    let acc := (consume 0 digits).1
    let left := (consume 0 digits).2
    acc < 2 ^ 96 ∧
    (∃ used, digits = used ++ left ∧ acc = spelled used) ∧
    (∀ f rest, left = f :: rest → 2 ^ 96 ≤ acc * 10 + f) ∧
    (let seen := left.take 21
      let q := rhe (acc * 10 ^ seen.length + spelled seen) (10 ^ seen.length)
      parseRound acc left e =
        if q = 2 ^ 96 then (7922816251426433759354395034, e + left.length + 1) else (q, e + left.length)) ∧
    (left.length ≤ 21 →
      let q := rhe (spelled digits) (10 ^ left.length)
      parseRound acc left e =
        if q = 2 ^ 96 then (7922816251426433759354395034, e + left.length + 1) else (q, e + left.length)) ∧
    (21 ≤ left.length → ∀ more : List Nat,
      parseRound acc (left ++ more) e = ((parseRound acc left e).1, (parseRound acc left e).2 + more.length))

/-! ## Host access -/

/-- R216, R217, R48: `LI` writes its immediate to its register; `RD` returns its register in the record and
changes nothing but `ERR`. -/
def Obligations.HostAccessResults : Prop :=
  (∀ (rd : Reg) (imm : Word) (s : State),
    ∃ t, exec (.li rd imm) s = .next t ∧ t.limb rd = imm ∧
      endsOk [⟨rd, 1⟩] 0 s.flags.c s.flags.s s t) ∧
  ∀ (ra : Reg) (s : State),
    ∃ t, exec (.rdReg ra) s = .next t ∧ endsOk [] (s.limb ra) s.flags.c s.flags.s s t

/-- R44, R219: four `LI` commands load a 16-byte record into a Decimal group, and four `RD` commands return the
four words. -/
def Obligations.LoadedRecordReadsBack : Prop :=
  ∀ (r : Nat) (record : List Byte) (s : State), r + 4 ≤ 32 → record.length = 16 →
    ∃ t u, execList (loadRecord r record) s = .next t ∧
      t.decimal r = decimalOfRecord record ∧
      execList (unloadDecimal r) t = .next u ∧
      (u.completions.drop t.completions.length).map Completion.data
        = [recordWord record 1, recordWord record 2, recordWord record 3, recordWord record 0] ∧
      u.w = t.w

/-! ## Preconditions of the other commands -/

/-- R115, R116, R126, R131, R26, R226, R231: a legal scan of 0 raises `MsbOfZero`; a window step with `hi` above 5
`BadHi`; a rounding step whose divisor is 0 or not above the remainder `RoundPrecondition`; a Decimal command
with a source scale above 28 `BadScale`, also where the divisor is zero. -/
def Obligations.PreconditionFaults : Prop :=
  ∀ (n : LimbField) (rd ra rb rc : Reg) (s : State),
    (s.limb ra = 0 → exec (.msb32 rd ra) s = .fault .msbOfZero) ∧
    ((Instr.msb64 rd ra).wellFormed = true → s.group ra 2 = 0 →
      exec (.msb64 rd ra) s = .fault .msbOfZero) ∧
    (5 < (s.limb ra).toNat →
      ((Instr.reduce rd ra rb rc).wellFormed = true → exec (.reduce rd ra rb rc) s = .fault .badHi) ∧
      ((Instr.reduceAcc rd ra rb rc).wellFormed = true → exec (.reduceAcc rd ra rb rc) s = .fault .badHi) ∧
      ((Instr.reduceClr rd ra rb rc).wellFormed = true → exec (.reduceClr rd ra rb rc) s = .fault .badHi) ∧
      ((Instr.scaleres rd ra rb).wellFormed = true → exec (.scaleres rd ra rb) s = .fault .badHi)) ∧
    (s.group rb (limbs n) = 0 ∨ s.group rb (limbs n) ≤ s.group ra (limbs n) →
      ((Instr.rndhe n rd ra rb).wellFormed = true →
        exec (.rndhe n rd ra rb) s = .fault .roundPrecondition) ∧
      ((Instr.rndheS n rd ra rb).wellFormed = true →
        exec (.rndheS n rd ra rb) s = .fault .roundPrecondition)) ∧
    (28 < (s.decimal ra).scale ∨ 28 < (s.decimal rb).scale → (Instr.dmul rd ra rb).wellFormed = true →
      exec (.dmul rd ra rb) s = .fault .badScale ∧ exec (.dadd rd ra rb) s = .fault .badScale ∧
      exec (.dsub rd ra rb) s = .fault .badScale ∧ exec (.ddiv rd ra rb) s = .fault .badScale)
end

