-- ==== Sys2Proof/Laws/Arith.lean ====
section
/-! SUPPORT. Lemmas about the integer functions: rounding (R15, R130), the search for the least power (R134) and
the range of the results they give. -/

namespace Sys2Proof.Machine

/-- When a quotient is rounded up (R15, R130). -/
theorem roundsUp_iff (q r d : Nat) (sticky : Bool) :
    roundsUp q r d sticky = true ↔ d < 2 * r ∨ (2 * r = d ∧ (q % 2 = 1 ∨ sticky = true)) := by
  simp [roundsUp]

/-- `RHE` is the floor quotient or one more (R15). -/
theorem rhe_cases (num den : Nat) : rhe num den = num / den ∨ rhe num den = num / den + 1 := by
  unfold rhe
  cases roundsUp (num / den) (num % den) den false <;> simp

theorem rhe_le (num den : Nat) : rhe num den ≤ num / den + 1 := by
  rcases rhe_cases num den with h | h <;> omega

/-- Far below one half, `RHE` is 0 (R134). -/
theorem rhe_eq_zero {num den : Nat} (h : 2 * num < den) : rhe num den = 0 := by
  have h1 : num / den = 0 := Nat.div_eq_of_lt (by omega)
  have h2 : num % den = num := Nat.mod_eq_of_lt (by omega)
  have h3 : ¬ (den < 2 * num ∨ (2 * num = den ∧ (0 % 2 = 1 ∨ false = true))) := by omega
  simp only [rhe, h1, h2, roundsUp, h3, decide_false, Bool.toNat_false]

/-- An exact quotient is not changed by rounding (R15). -/
theorem rhe_mul_self (q : Nat) {d : Nat} (h : 0 < d) : rhe (q * d) d = q := by
  have h3 : ¬ (d < 2 * 0 ∨ (2 * 0 = d ∧ (q % 2 = 1 ∨ false = true))) := by omega
  simp only [rhe, Nat.mul_div_cancel _ h, Nat.mul_mod_left, roundsUp, h3, decide_false, Bool.toNat_false,
    Nat.add_zero]

/-- The cut at `10^59` changes no value: `rhePow` is `RHE(m, 10^k)` (R134; notes/assumptions/8.md). -/
theorem rhePow_eq (m k : Nat) : rhePow m k = rhe m (10 ^ k) := by
  unfold rhePow
  split
  case isTrue h =>
    have h1 : (10 : Nat) ^ 59 ≤ 10 ^ k := Nat.pow_le_pow_right (by omega) h.1
    have h2 : 2 * m < 10 ^ k := by
      have : 2 * 2 ^ 192 < 10 ^ 59 := by norm_num
      omega
    exact (rhe_eq_zero h2).symm
  case isFalse h => rfl

/-- What the search for the least power answers: no smaller power from `k` on fits, and the answer fits
unless the fuel ran out (R134). -/
theorem leastFitFrom_spec (m fuel k : Nat) :
    k ≤ leastFitFrom m fuel k ∧ leastFitFrom m fuel k ≤ k + fuel ∧
    (∀ j, k ≤ j → j < leastFitFrom m fuel k → 2 ^ 96 ≤ m / 10 ^ j) ∧
    (leastFitFrom m fuel k < k + fuel → m / 10 ^ leastFitFrom m fuel k < 2 ^ 96) := by
  induction fuel generalizing k with
  | zero => exact ⟨le_rfl, le_rfl, fun j h1 h2 => absurd h2 (by simp [leastFitFrom]; omega),
      fun h => absurd h (by simp [leastFitFrom])⟩
  | succ fuel ih =>
    rw [leastFitFrom]
    split
    case isTrue h => exact ⟨le_rfl, by omega, fun j h1 h2 => by omega, fun _ => h⟩
    case isFalse h =>
      obtain ⟨h1, h2, h3, h4⟩ := ih (k + 1)
      refine ⟨by omega, by omega, fun j hj1 hj2 => ?_, fun hlt => h4 (by omega)⟩
      rcases Nat.eq_or_lt_of_le hj1 with rfl | hj
      · exact Nat.le_of_not_lt h
      · exact h3 j hj hj2

/-- `leastFit` is the least power that brings a magnitude below `2^96` (R134). -/
theorem leastFit_spec (m : Nat) :
    m / 10 ^ leastFit m < 2 ^ 96 ∧ ∀ j, j < leastFit m → 2 ^ 96 ≤ m / 10 ^ j := by
  obtain ⟨-, h2, h3, h4⟩ := leastFitFrom_spec m (Nat.log2 m) 0
  rw [Nat.zero_add] at h2 h4
  refine ⟨?_, fun j hj => h3 j (Nat.zero_le j) hj⟩
  rcases Nat.lt_or_ge (leastFit m) (Nat.log2 m) with hlt | hge
  · exact h4 hlt
  · have h5 : m < 10 ^ Nat.log2 m * 2 ^ 96 := by
      have h6 : m < 2 ^ (Nat.log2 m + 1) := Nat.lt_log2_self
      have h7 : 2 ^ Nat.log2 m ≤ 10 ^ Nat.log2 m := Nat.pow_le_pow_left (by decide) _
      have h8 : 2 ^ (Nat.log2 m + 1) = 2 ^ Nat.log2 m * 2 := pow_succ _ _
      omega
    have heq : leastFit m = Nat.log2 m := le_antisymm h2 hge
    rw [heq]
    exact Nat.div_lt_of_lt_mul h5

/-- Below `2^192` the least power is at most 29 (R260). -/
theorem leastFit_le {m : Nat} (h : m < 2 ^ 192) : leastFit m ≤ 29 := by
  by_contra hn
  have h1 := (leastFit_spec m).2 29 (by omega)
  have h2 : m / 10 ^ 29 < 2 ^ 96 := Nat.div_lt_of_lt_mul (lt_of_lt_of_le h (by norm_num))
  omega

/-- Every larger power fits as well. -/
theorem fits_of_leastFit_le {m k : Nat} (hk : leastFit m ≤ k) : m / 10 ^ k < 2 ^ 96 :=
  lt_of_le_of_lt (Nat.div_le_div_left (Nat.pow_le_pow_right (by omega) hk) (Nat.pow_pos (by omega)))
    (leastFit_spec m).1

/-- One limb quotient's index is below 6 when the value has at most 192 bits (R16, R126). -/
theorem hiLimb_le_five {x : Nat} (h : x < 2 ^ 192) : hiLimb x ≤ 5 := by
  unfold hiLimb msb
  split
  · omega
  case isFalse hx =>
    have : Nat.log2 x < 192 := (Nat.log2_lt hx).2 h
    omega

/-- A power of ten of at most nine digits fits a limb (R127). -/
theorem ten_pow_lt (k : Nat) (h : k ≤ 9) : 10 ^ k < 2 ^ 32 :=
  lt_of_le_of_lt (Nat.pow_le_pow_right (by omega) h) (by norm_num)

/-- After a rounding carry the procedure of R136 ends within one iteration. -/
theorem procedureLoop_carry (fuel : Nat) (s : Int) (sticky : Bool) :
    procedureLoop (fuel + 1) (2 ^ 96) s sticky 0 1 =
      if s < 0 then .error .overflow else .ok (carryMant, s.toNat) := by
  have h1 : min 1 Config.reduceMaxPow = 1 := by decide
  have h2 : ¬ 0 < 1 - 1 := by decide
  have h3 : ¬ Config.mantLimit ≤ 2 ^ 96 / 10 ^ 1 := by decide
  have h4 : 10 ^ 1 / 2 < 2 ^ 96 % 10 ^ 1 := by decide
  have h5 : carryMant ≠ Config.mantLimit := by decide
  have h6 : 2 ^ 96 / 10 ^ 1 + 1 = carryMant := by decide
  simp only [procedureLoop, h1, h2, h3, h4, h5, h6, if_true, if_false, true_or]

/-- More fuel than a magnitude below `10^j * 2^96` can use changes nothing: the loop of R136 is unbounded. -/
theorem procedureLoop_succ {fuel j m k : Nat} {s : Int} {sticky : Bool} {rem : Nat} (hk : 1 ≤ k)
    (hm : m < 10 ^ j * 2 ^ 96) (hf : k + j + 2 ≤ fuel) :
    procedureLoop (fuel + 1) m s sticky rem k = procedureLoop fuel m s sticky rem k := by
  induction fuel generalizing j m k s sticky rem with
  | zero => omega
  | succ fuel ih =>
    have hp : 1 ≤ min k Config.reduceMaxPow := Nat.le_min.2 ⟨hk, by decide⟩
    conv_lhs => rw [procedureLoop]
    conv_rhs => rw [procedureLoop]
    generalize min k Config.reduceMaxPow = p at hp
    by_cases h1 : 0 < k - p
    · rw [if_pos h1, if_pos h1]
      exact ih h1 (lt_of_le_of_lt (Nat.div_le_self _ _) hm) (by omega)
    · rw [if_neg h1, if_neg h1]
      by_cases h2 : Config.mantLimit ≤ m / 10 ^ p
      · rw [if_pos h2, if_pos h2]
        have h3 : m / 10 ^ p ≤ m / 10 :=
          Nat.div_le_div_left (by simpa using Nat.pow_le_pow_right (by decide : 0 < 10) hp) (by decide)
        have h4 : 2 ^ 96 ≤ m / 10 ^ p := h2
        obtain _ | j := j
        · omega
        · have h5 : (10 : Nat) ^ (j + 1) = 10 ^ j * 10 := pow_succ 10 j
          exact ih (j := j) le_rfl (by omega) (by omega)
      · rw [if_neg h2, if_neg h2]
        split_ifs with h3 h4
        · obtain ⟨f, rfl⟩ : ∃ f, fuel = f + 1 := ⟨fuel - 1, by omega⟩
          have h5 : m / 10 ^ p + 1 = 2 ^ 96 := h4
          rw [h5, procedureLoop_carry, procedureLoop_carry]
        all_goals rfl

/-- The fuel of `scaleProcedure` is enough for every magnitude and every scale (R136). -/
theorem procedureLoop_eq_of_enough {fuel m k : Nat} (s : Int) (sticky : Bool) (rem : Nat) (hk : 1 ≤ k)
    (hf : procedureFuel m k ≤ fuel) :
    procedureLoop fuel m s sticky rem k = procedureLoop (procedureFuel m k) m s sticky rem k := by
  have hm : m < 10 ^ (Nat.log2 m + 1) * 2 ^ 96 := by
    have h1 : m < 2 ^ (Nat.log2 m + 1) := Nat.lt_log2_self
    have h2 : 2 ^ (Nat.log2 m + 1) ≤ 10 ^ (Nat.log2 m + 1) := Nat.pow_le_pow_left (by decide) _
    omega
  induction fuel, hf using Nat.le_induction with
  | base => rfl
  | succ fuel hf ih =>
    rw [← ih]
    refine procedureLoop_succ hk hm ?_
    simp only [procedureFuel] at hf
    omega

end Sys2Proof.Machine
end

