-- ==== Sys2Proof/Laws/Encoding.lean ====
section
/-! SUPPORT. Lemmas about the fields of a word and about packing bytes, which the encoding statements rest on
(R45, R56, R58). -/

namespace Sys2Proof

/-- The value of a word written from its fields (R56). -/
theorem wordOf_toNat (f : Fields) :
    (wordOf f).toNat = f.op.val * 2 ^ 26 + f.rd.val * 2 ^ 21 + f.ra.val * 2 ^ 16 + f.rb.val * 2 ^ 11
      + f.rc.val * 2 ^ 6 + f.n.val * 2 ^ 3 + f.fn.val := by
  obtain ⟨⟨op, _⟩, ⟨rd, _⟩, ⟨ra, _⟩, ⟨rb, _⟩, ⟨rc, _⟩, ⟨n, _⟩, ⟨fn, _⟩⟩ := f
  simp only [wordOf, BitVec.toNat_ofNat]
  omega

/-- Two field lists are equal when their values are. -/
theorem Fields.ext_val {f g : Fields} (op : f.op.val = g.op.val) (rd : f.rd.val = g.rd.val)
    (ra : f.ra.val = g.ra.val) (rb : f.rb.val = g.rb.val) (rc : f.rc.val = g.rc.val)
    (n : f.n.val = g.n.val) (fn : f.fn.val = g.fn.val) : f = g := by
  cases f
  cases g
  simp only [Fields.mk.injEq]
  exact ⟨Fin.ext op, Fin.ext rd, Fin.ext ra, Fin.ext rb, Fin.ext rc, Fin.ext n, Fin.ext fn⟩

/-- Reading the fields of a word written from fields gives them back (R56). -/
theorem fieldsOf_wordOf (f : Fields) : fieldsOf (wordOf f) = f := by
  have h := wordOf_toNat f
  have := f.op.isLt
  have := f.rd.isLt
  have := f.ra.isLt
  have := f.rb.isLt
  have := f.rc.isLt
  have := f.n.isLt
  have := f.fn.isLt
  apply Fields.ext_val <;> simp only [fieldsOf, bits, h, Fin.val_ofNat] <;> omega

/-- A 32-bit number is the sum of its format R fields (R56). -/
theorem sum_of_fields (v : Nat) (h : v < 4294967296) :
    v / 67108864 % 64 * 67108864 + v / 2097152 % 32 * 2097152 + v / 65536 % 32 * 65536
      + v / 2048 % 32 * 2048 + v / 64 % 32 * 64 + v / 8 % 8 * 8 + v % 8 = v := by
  omega

/-- Writing the fields of a word gives the word back: no bit of a word is outside the fields (R56). -/
theorem wordOf_fieldsOf (x : Word) : wordOf (fieldsOf x) = x := by
  apply BitVec.eq_of_toNat_eq
  have h := sum_of_fields x.toNat x.isLt
  refine (wordOf_toNat (fieldsOf x)).trans ?_
  simp only [fieldsOf, bits, Fin.val_ofNat, Nat.reducePow, Nat.mod_mod, Nat.div_one]
  exact h

/-- The `op` field of a word written from fields. -/
theorem bits_op_wordOf (f : Fields) : bits (wordOf f) 26 6 = f.op.val := by
  rw [bits, wordOf_toNat]
  have := f.op.isLt
  have := f.rd.isLt
  have := f.ra.isLt
  have := f.rb.isLt
  have := f.rc.isLt
  have := f.n.isLt
  have := f.fn.isLt
  omega

/-- The low 21 bits of a word written from fields, the fields below `rd` (R57). -/
theorem bits_low_wordOf (f : Fields) :
    bits (wordOf f) 0 21 = f.ra.val * 2 ^ 16 + f.rb.val * 2 ^ 11 + f.rc.val * 2 ^ 6 + f.n.val * 2 ^ 3
      + f.fn.val := by
  rw [bits, wordOf_toNat]
  have := f.ra.isLt
  have := f.rb.isLt
  have := f.rc.isLt
  have := f.n.isLt
  have := f.fn.isLt
  omega

/-- The value of word 0 of `DPARSE` (R58). -/
theorem wordP_toNat (rd ra : Reg) (len : Nat) (sgn : Bool) :
    (wordP rd ra len sgn).toNat
      = 0x2C * 2 ^ 26 + rd.val * 2 ^ 21 + ra.val * 2 ^ 16 + len % 2 ^ 15 * 2 + sgn.toNat := by
  obtain ⟨rd, _⟩ := rd
  obtain ⟨ra, _⟩ := ra
  have := Bool.toNat_lt sgn
  simp only [wordP, opDPARSE, BitVec.toNat_ofNat]
  omega

/-- The value of a word packed from four bytes (R45). -/
theorem wordOfBytes_toNat (a b c d : Byte) :
    (wordOfBytes a b c d).toNat = d.toNat * 2 ^ 24 + c.toNat * 2 ^ 16 + b.toNat * 2 ^ 8 + a.toNat := by
  have := a.isLt
  have := b.isLt
  have := c.isLt
  have := d.isLt
  rw [wordOfBytes, BitVec.toNat_ofNat]
  omega

/-- The bytes of a word packed from four bytes (R45). -/
@[simp] theorem bytesOfWord_wordOfBytes (a b c d : Byte) : bytesOfWord (wordOfBytes a b c d) = [a, b, c, d] := by
  have := a.isLt
  have := b.isLt
  have := c.isLt
  have := d.isLt
  rw [bytesOfWord, wordOfBytes_toNat]
  simp only [List.cons.injEq, and_true]
  refine ⟨?_, ?_, ?_, ?_⟩ <;> (apply BitVec.eq_of_toNat_eq; rw [BitVec.toNat_ofNat]; omega)

/-- A word is packed from its own bytes (R45). -/
theorem packBytes_bytesOfWord (x : Word) : packBytes (bytesOfWord x) = [x] := by
  have := x.isLt
  simp only [bytesOfWord, packBytes, List.cons.injEq, and_true]
  apply BitVec.eq_of_toNat_eq
  rw [wordOfBytes_toNat]
  simp only [BitVec.toNat_ofNat]
  omega

/-- How many words bytes pack into (R55, R58). -/
@[simp] theorem packBytes_length (l : List Byte) : (packBytes l).length = (l.length + 3) / 4 := by
  fun_induction packBytes l <;> simp_all; omega

/-- Unpacking packed bytes gives them back, followed by zero bytes that fill the last word (R58). -/
theorem unpackBytes_packBytes (l : List Byte) :
    ∃ k, k < 4 ∧ unpackBytes (packBytes l) = l ++ List.replicate k 0#8 := by
  fun_induction packBytes l with
  | case1 => exact ⟨0, by omega, rfl⟩
  | case2 a => exact ⟨3, by omega, by simp [unpackBytes]⟩
  | case3 a b => exact ⟨2, by omega, by simp [unpackBytes]⟩
  | case4 a b c => exact ⟨1, by omega, by simp [unpackBytes]⟩
  | case5 a b c d rest ih =>
    obtain ⟨k, hk, h⟩ := ih
    exact ⟨k, hk, by simpa [unpackBytes] using h⟩

end Sys2Proof
end

