-- ==== Sys2Proof/Laws/State.lean ====
section
/-! SUPPORT. One lemma per field per update of the state, so that no proof unfolds a record update. Each is true
by `rfl`, written `(rfl)`: simp then rewrites with it as an equation, and leaves the kernel no comparison of two
whole states to make. -/

namespace Sys2Proof.Machine

theorem State.limb_eq (s : State) (k : Nat) : s.limb k = s.w[k]?.getD 0 := (rfl)
theorem State.isWritten_eq (s : State) (k : Nat) : s.isWritten k = s.written[k]?.getD false := (rfl)

@[simp] theorem State.setLimb_flags (s : State) (k : Nat) (v : Word) : (s.setLimb k v).flags = s.flags := (rfl)
@[simp] theorem State.setLimb_commands (s : State) (k : Nat) (v : Word) :
    (s.setLimb k v).commands = s.commands := (rfl)
@[simp] theorem State.setLimb_completions (s : State) (k : Nat) (v : Word) :
    (s.setLimb k v).completions = s.completions := (rfl)

@[simp] theorem State.setC_w (s : State) (b : Bool) : (s.setC b).w = s.w := (rfl)
@[simp] theorem State.setC_written (s : State) (b : Bool) : (s.setC b).written = s.written := (rfl)
@[simp] theorem State.setC_flags (s : State) (b : Bool) : (s.setC b).flags = { s.flags with c := b } := (rfl)
@[simp] theorem State.setC_commands (s : State) (b : Bool) : (s.setC b).commands = s.commands := (rfl)
@[simp] theorem State.setC_completions (s : State) (b : Bool) : (s.setC b).completions = s.completions := (rfl)
@[simp] theorem State.setC_limb (s : State) (b : Bool) (k : Nat) : (s.setC b).limb k = s.limb k := (rfl)
@[simp] theorem State.setC_isWritten (s : State) (b : Bool) (k : Nat) :
    (s.setC b).isWritten k = s.isWritten k := (rfl)

@[simp] theorem State.setS_w (s : State) (b : Bool) : (s.setS b).w = s.w := (rfl)
@[simp] theorem State.setS_written (s : State) (b : Bool) : (s.setS b).written = s.written := (rfl)
@[simp] theorem State.setS_flags (s : State) (b : Bool) : (s.setS b).flags = { s.flags with s := b } := (rfl)
@[simp] theorem State.setS_commands (s : State) (b : Bool) : (s.setS b).commands = s.commands := (rfl)
@[simp] theorem State.setS_completions (s : State) (b : Bool) : (s.setS b).completions = s.completions := (rfl)
@[simp] theorem State.setS_limb (s : State) (b : Bool) (k : Nat) : (s.setS b).limb k = s.limb k := (rfl)
@[simp] theorem State.setS_isWritten (s : State) (b : Bool) (k : Nat) :
    (s.setS b).isWritten k = s.isWritten k := (rfl)

@[simp] theorem State.complete_w (s : State) (e : Code) (d : Word) : (s.complete e d).w = s.w := (rfl)
@[simp] theorem State.complete_written (s : State) (e : Code) (d : Word) :
    (s.complete e d).written = s.written := (rfl)
@[simp] theorem State.complete_flags (s : State) (e : Code) (d : Word) :
    (s.complete e d).flags = { s.flags with err := e.bits } := (rfl)
@[simp] theorem State.complete_commands (s : State) (e : Code) (d : Word) :
    (s.complete e d).commands = s.commands := (rfl)
@[simp] theorem State.complete_completions (s : State) (e : Code) (d : Word) :
    (s.complete e d).completions =
      s.completions ++ [{ data := d, flags := ({ s.flags with err := e.bits } : Flags).byte }] := (rfl)
@[simp] theorem State.complete_limb (s : State) (e : Code) (d : Word) (k : Nat) :
    (s.complete e d).limb k = s.limb k := (rfl)
@[simp] theorem State.complete_isWritten (s : State) (e : Code) (d : Word) (k : Nat) :
    (s.complete e d).isWritten k = s.isWritten k := (rfl)

theorem State.completeOk_eq (s : State) : s.completeOk = s.complete .ok 0 := (rfl)
theorem State.completeError_eq (s : State) (e : Code) : s.completeError e = s.complete e 0 := (rfl)

@[simp] theorem State.present_w (s : State) (ws : List Word) : (s.present ws).w = s.w := (rfl)
@[simp] theorem State.present_written (s : State) (ws : List Word) : (s.present ws).written = s.written := (rfl)
@[simp] theorem State.present_flags (s : State) (ws : List Word) : (s.present ws).flags = s.flags := (rfl)
@[simp] theorem State.present_commands (s : State) (ws : List Word) :
    (s.present ws).commands = s.commands ++ ws := (rfl)
@[simp] theorem State.present_completions (s : State) (ws : List Word) :
    (s.present ws).completions = s.completions := (rfl)

@[simp] theorem State.assertReset_eq (s : State) : s.assertReset = State.reset := (rfl)

@[simp] theorem State.withCommands_limb (s : State) (ws : List Word) (k : Nat) :
    ({ s with commands := ws } : State).limb k = s.limb k := (rfl)
@[simp] theorem State.withCommands_isWritten (s : State) (ws : List Word) (k : Nat) :
    ({ s with commands := ws } : State).isWritten k = s.isWritten k := (rfl)

@[simp] theorem State.withFetchWord_w (s : State) (n w : Nat) : (s.withFetchWord n w).w = s.w := (rfl)
@[simp] theorem State.withFetchWord_written (s : State) (n w : Nat) :
    (s.withFetchWord n w).written = s.written := (rfl)
@[simp] theorem State.withFetchWord_flags (s : State) (n w : Nat) : (s.withFetchWord n w).flags = s.flags := (rfl)
@[simp] theorem State.withFetchWord_commands (s : State) (n w : Nat) :
    (s.withFetchWord n w).commands = tableWords n w ++ s.commands := (rfl)
@[simp] theorem State.withFetchWord_completions (s : State) (n w : Nat) :
    (s.withFetchWord n w).completions = s.completions := (rfl)

/-- Reading a limb after writing one. -/
theorem State.limb_setLimb (s : State) (k j : Nat) (v : Word) :
    (s.setLimb k v).limb j = if k = j ∧ k < 32 then v else s.limb j := by
  by_cases h : k = j
  · subst h
    by_cases hk : k < 32 <;> simp [State.limb, State.setLimb, hk]
  · simp [State.limb, State.setLimb, h]

@[simp] theorem State.limb_setLimb_same (s : State) (k : Nat) (v : Word) (h : k < 32) :
    (s.setLimb k v).limb k = v := by simp [State.limb_setLimb, h]

@[simp] theorem State.limb_setLimb_ne (s : State) {k j : Nat} (v : Word) (h : k ≠ j) :
    (s.setLimb k v).limb j = s.limb j := by simp [State.limb_setLimb, h]

/-- The written marks after writing a limb (R37). -/
theorem State.isWritten_setLimb (s : State) (k j : Nat) (v : Word) :
    (s.setLimb k v).isWritten j = if k = j ∧ k < 32 then true else s.isWritten j := by
  by_cases h : k = j
  · subst h
    by_cases hk : k < 32 <;> simp [State.isWritten, State.setLimb, hk]
  · simp [State.isWritten, State.setLimb, h]

/-- Two states with the same limbs have the same register file. -/
theorem State.w_ext {s t : State} (h : ∀ k, k < 32 → s.limb k = t.limb k) : s.w = t.w := by
  refine Vector.ext fun k hk => ?_
  have := h k hk
  simp only [State.limb, Vector.getElem?_eq_getElem hk, Option.getD_some] at this
  exact this

end Sys2Proof.Machine
end

