-- ==== Sys2Proof/Laws/Groups.lean ====
section
/-! SUPPORT. What reading and writing value groups and Decimal groups does (R14, R23, R26, R27). -/

namespace Sys2Proof.Machine

@[simp] theorem State.setGroup_flags (s : State) (r n v : Nat) : (s.setGroup r n v).flags = s.flags := by
  induction n generalizing s r v with
  | zero => rfl
  | succ n ih => simp [State.setGroup, ih]

@[simp] theorem State.setGroup_commands (s : State) (r n v : Nat) :
    (s.setGroup r n v).commands = s.commands := by
  induction n generalizing s r v with
  | zero => rfl
  | succ n ih => simp [State.setGroup, ih]

@[simp] theorem State.setGroup_completions (s : State) (r n v : Nat) :
    (s.setGroup r n v).completions = s.completions := by
  induction n generalizing s r v with
  | zero => rfl
  | succ n ih => simp [State.setGroup, ih]

/-- Limb `k` after writing a group: its digit of `v` inside the group, the old value outside. -/
theorem State.limb_setGroup (s : State) (r n v k : Nat) (h : r + n ≤ 32) :
    (s.setGroup r n v).limb k =
      if r ≤ k ∧ k < r + n then BitVec.ofNat 32 (v / 2 ^ (32 * (k - r))) else s.limb k := by
  induction n generalizing s r v with
  | zero => simp [State.setGroup]
  | succ n ih =>
    rw [State.setGroup, ih _ _ _ (by omega)]
    by_cases h1 : r + 1 ≤ k ∧ k < r + 1 + n
    · have h2 : r ≤ k ∧ k < r + (n + 1) := by omega
      rw [if_pos h1, if_pos h2, Nat.div_div_eq_div_mul, ← pow_add]
      congr 3
      omega
    · rw [if_neg h1]
      by_cases h3 : r = k
      · subst h3
        rw [State.limb_setLimb_same _ _ _ (by omega), if_pos (by omega)]
        simp
      · rw [State.limb_setLimb_ne _ _ h3, if_neg (by omega)]

/-- The written mark of register `k` after writing a group (R37). -/
theorem State.isWritten_setGroup (s : State) (r n v k : Nat) (h : r + n ≤ 32) :
    (s.setGroup r n v).isWritten k = if r ≤ k ∧ k < r + n then true else s.isWritten k := by
  induction n generalizing s r v with
  | zero => simp [State.setGroup]
  | succ n ih =>
    rw [State.setGroup, ih _ _ _ (by omega), State.isWritten_setLimb]
    split_ifs <;> first | rfl | omega

/-- A group's value is below `2^(32n)` (R23). -/
theorem State.group_lt (s : State) (r n : Nat) : s.group r n < 2 ^ (32 * n) := by
  induction n generalizing r with
  | zero => simp [State.group]
  | succ n ih =>
    have h1 := ih (r + 1)
    have h2 := (s.limb r).isLt
    have h3 : 2 ^ (32 * (n + 1)) = 2 ^ 32 * 2 ^ (32 * n) := by rw [← pow_add]; congr 1; omega
    rw [State.group, h3]
    nlinarith

/-- A group depends on its own limbs alone. -/
theorem State.group_congr {s t : State} {r n : Nat} (h : ∀ k, r ≤ k → k < r + n → s.limb k = t.limb k) :
    s.group r n = t.group r n := by
  induction n generalizing r with
  | zero => rfl
  | succ n ih =>
    rw [State.group, State.group, h r (by omega) (by omega), ih (fun k h1 h2 => h k (by omega) (by omega))]

/-- A group reads back what was written to it. -/
theorem State.group_setGroup (s : State) (r n v : Nat) (h : r + n ≤ 32) (hv : v < 2 ^ (32 * n)) :
    (s.setGroup r n v).group r n = v := by
  induction n generalizing s r v with
  | zero => simp at hv; simp [State.group, hv]
  | succ n ih =>
    have h3 : 2 ^ (32 * (n + 1)) = 2 ^ 32 * 2 ^ (32 * n) := by rw [← pow_add]; congr 1; omega
    have hd : v / 2 ^ 32 < 2 ^ (32 * n) := Nat.div_lt_of_lt_mul (h3 ▸ hv)
    have hl : (s.setGroup r (n + 1) v).limb r = BitVec.ofNat 32 v := by
      rw [State.limb_setGroup _ _ _ _ _ h]; simp
    rw [State.group, hl, State.setGroup, ih _ _ _ (by omega) hd]
    simp only [BitVec.toNat_ofNat]
    exact Nat.mod_add_div v (2 ^ 32)

/-- Writing a limb outside a group leaves the group. -/
theorem State.group_setLimb_of_outside (s : State) (k r n : Nat) (v : Word) (h : k < r ∨ r + n ≤ k) :
    (s.setLimb k v).group r n = s.group r n :=
  State.group_congr fun _ h1 h2 => State.limb_setLimb_ne _ _ (by omega)

/-- Writing a group leaves a group apart from it. -/
theorem State.group_setGroup_of_apart (s : State) (r n v r' n' : Nat) (h : r + n ≤ 32)
    (ha : r' + n' ≤ r ∨ r + n ≤ r') : (s.setGroup r n v).group r' n' = s.group r' n' :=
  State.group_congr fun _ h1 h2 => by rw [State.limb_setGroup _ _ _ _ _ h, if_neg (by omega)]

@[simp] theorem State.setC_group (s : State) (b : Bool) (r n : Nat) : (s.setC b).group r n = s.group r n :=
  State.group_congr fun _ _ _ => (rfl)
@[simp] theorem State.setS_group (s : State) (b : Bool) (r n : Nat) : (s.setS b).group r n = s.group r n :=
  State.group_congr fun _ _ _ => (rfl)
@[simp] theorem State.complete_group (s : State) (e : Code) (d : Word) (r n : Nat) :
    (s.complete e d).group r n = s.group r n := State.group_congr fun _ _ _ => (rfl)
@[simp] theorem State.withCommands_group (s : State) (ws : List Word) (r n : Nat) :
    ({ s with commands := ws } : State).group r n = s.group r n := State.group_congr fun _ _ _ => (rfl)

/-- A group of one limb is the limb. -/
@[simp] theorem State.group_one (s : State) (r : Nat) : s.group r 1 = (s.limb r).toNat := by
  simp [State.group]

/-- The fields of a `ctl` word read back what was written (R26, R27). -/
theorem ctlScale_ctlWord (sign : Bool) (scale : Nat) (h : scale < 256) :
    ctlScale (ctlWord sign scale) = scale := by
  cases sign <;>
    simp only [ctlScale, ctlWord, bits, BitVec.toNat_ofNat, Bool.toNat_false, Bool.toNat_true] <;> omega

theorem ctlSign_ctlWord (sign : Bool) (scale : Nat) (h : scale < 256) :
    ctlSign (ctlWord sign scale) = sign := by
  rw [ctlSign, BitVec.getLsbD, Nat.testBit_eq_decide_div_mod_eq]
  cases sign <;> simp only [ctlWord, BitVec.toNat_ofNat, Bool.toNat_false, Bool.toNat_true,
    decide_eq_true_eq, decide_eq_false_iff_not] <;> omega

@[simp] theorem State.setDecimal_flags (s : State) (r : Nat) (d : Decimal) :
    (s.setDecimal r d).flags = s.flags := by simp [State.setDecimal]
@[simp] theorem State.setDecimal_commands (s : State) (r : Nat) (d : Decimal) :
    (s.setDecimal r d).commands = s.commands := by simp [State.setDecimal]
@[simp] theorem State.setDecimal_completions (s : State) (r : Nat) (d : Decimal) :
    (s.setDecimal r d).completions = s.completions := by simp [State.setDecimal]

/-- Registers outside a Decimal group keep their value when it is written. -/
theorem State.limb_setDecimal_outside (s : State) (r k : Nat) (d : Decimal) (h : r + 4 ≤ 32)
    (hk : k < r ∨ r + 4 ≤ k) : (s.setDecimal r d).limb k = s.limb k := by
  rw [State.setDecimal, State.limb_setLimb_ne _ _ (by omega), State.limb_setGroup _ _ _ _ _ (by omega),
    if_neg (by omega)]

/-- The written marks after a Decimal group is written. -/
theorem State.isWritten_setDecimal (s : State) (r k : Nat) (d : Decimal) (h : r + 4 ≤ 32) :
    (s.setDecimal r d).isWritten k = if r ≤ k ∧ k < r + 4 then true else s.isWritten k := by
  rw [State.setDecimal, State.isWritten_setLimb, State.isWritten_setGroup _ _ _ _ _ (by omega)]
  split_ifs <;> first | rfl | omega

/-- A Decimal group reads its mantissa limbs and its `ctl` limb alone. -/
theorem State.decimal_congr {s t : State} {r : Nat} (h : ∀ k, r ≤ k → k < r + 4 → s.limb k = t.limb k) :
    s.decimal r = t.decimal r := by
  have hg : s.group r 3 = t.group r 3 := State.group_congr fun k h1 h2 => h k h1 (by omega)
  simp [State.decimal, hg, h (r + 3) (by omega) (by omega)]

@[simp] theorem State.complete_decimal (s : State) (e : Code) (d : Word) (r : Nat) :
    (s.complete e d).decimal r = s.decimal r := State.decimal_congr fun _ _ _ => (rfl)

end Sys2Proof.Machine
end

