-- ==== Sys2Proof/Laws/Outcomes.lean ====
section
/-! SUPPORT. One lemma for each shared operation that says once how a command that uses it can end. -/

namespace Sys2Proof.Machine

theorem whenLegal_of_legal {i : Instr} (h : i.wellFormed = true) (s : State) (e : Outcome) :
    whenLegal i s e = e := by simp [whenLegal, h]

theorem whenLegal_of_illegal {i : Instr} (h : i.wellFormed = false) (s : State) (e : Outcome) :
    whenLegal i s e = .next (s.completeError .illegalCommand) := by simp [whenLegal, h]

/-- A command with a next state is illegal, or legal with that effect (R224, R231). -/
theorem whenLegal_next {i : Instr} {s t : State} {e : Outcome} (h : whenLegal i s e = .next t) :
    (i.wellFormed = false ∧ t = s.completeError .illegalCommand) ∨ (i.wellFormed = true ∧ e = .next t) := by
  unfold whenLegal at h
  cases hw : i.wellFormed
  · left
    simpa [hw, eq_comm] using h
  · right
    simpa [hw] using h

/-- A command that faults is legal and its effect faults (R231). -/
theorem whenLegal_fault {i : Instr} {s : State} {e : Outcome} {f : Fault} (h : whenLegal i s e = .fault f) :
    i.wellFormed = true ∧ e = .fault f := by
  unfold whenLegal at h
  cases hw : i.wellFormed
  · simp [hw] at h
  · exact ⟨rfl, by simpa [hw] using h⟩

/-- The three ways a Decimal command ends (R26, R223, R231). -/
theorem decimalCommand_cases (f : Decimal → Decimal → Except Code Decimal) (rd ra rb : Nat) (s : State) :
    ((28 < (s.decimal ra).scale ∨ 28 < (s.decimal rb).scale) ∧
      decimalCommand f rd ra rb s = .fault .badScale) ∨
    ((s.decimal ra).scale ≤ 28 ∧ (s.decimal rb).scale ≤ 28 ∧
      ((∃ d, f (s.decimal ra) (s.decimal rb) = .ok d ∧
        decimalCommand f rd ra rb s = .next (s.setDecimal rd d).completeOk) ∨
      (∃ e, f (s.decimal ra) (s.decimal rb) = .error e ∧
        decimalCommand f rd ra rb s = .next (s.completeError e)))) := by
  unfold decimalCommand
  by_cases h : 28 < (s.decimal ra).scale ∨ 28 < (s.decimal rb).scale
  · exact .inl ⟨h, by simp [h]⟩
  · right
    refine ⟨by omega, by omega, ?_⟩
    cases hf : f (s.decimal ra) (s.decimal rb) with
    | ok d => exact .inl ⟨d, rfl, by simp only [h, hf, if_false]⟩
    | error e => exact .inr ⟨e, rfl, by simp only [h, hf, if_false]⟩

/-- Each group a legal command names stays within the register file (R70 e). -/
theorem fits_of_wellFormed {i : Instr} (h : i.wellFormed = true) {g : Group} (hg : g ∈ i.dests ++ i.srcs) :
    g.base + g.size ≤ 32 := by
  have h1 : i.groupsFit = true := by
    simp only [Instr.wellFormed, Bool.and_eq_true] at h
    exact h.1.1.2
  have h2 := List.all_eq_true.1 h1 g hg
  simpa [Group.fits] using h2

/-- The destination groups of a legal command share no register (R71). -/
theorem destsApart_of_wellFormed {i : Instr} (h : i.wellFormed = true) : i.destsApart = true := by
  simp only [Instr.wellFormed, Bool.and_eq_true] at h
  exact h.1.2

/-- The limb count of a legal command is at most 6 (R70 c). -/
theorem limbCountOk_of_wellFormed {i : Instr} (h : i.wellFormed = true) : i.limbCountOk = true := by
  simp only [Instr.wellFormed, Bool.and_eq_true] at h
  exact h.1.1.1

/-- Two groups that do not meet lie one below the other (R71). -/
theorem apart_of_not_meets {g h : Group} (hm : g.meets h = false) :
    g.base + g.size ≤ h.base ∨ h.base + h.size ≤ g.base := by
  simp only [Group.meets, decide_eq_false_iff_not] at hm
  omega

end Sys2Proof.Machine
end

