-- ==== Sys2Proof/Laws/Endings.lean ====
section
/-! SUPPORT. How the shared operations end, in the terms of Sys2Proof/Safety.lean: one lemma for each shape of
writing (one group, two groups, a window with its registers), and for each shared operation one lemma that says
once everything it can do. -/

namespace Sys2Proof.Machine

open Sys2Proof.Safety

/-- A single group holds exactly the registers from its base on. -/
theorem outside_cons (r n : Nat) (gs : List Group) (k : Nat) :
    outside (⟨r, n⟩ :: gs) k = true ↔ ¬ (r ≤ k ∧ k < r + n) ∧ outside gs k = true := by
  simp only [outside, List.all_cons, Group.holds, Bool.and_eq_true, Bool.not_eq_true', decide_eq_false_iff_not]

theorem outside_nil (k : Nat) : outside [] k = true := rfl

/-- A command that wrote exactly the groups, and whose flags are as given, ended `OK` (R221, R222). -/
theorem endsOk_complete {gs : List Group} {s u : State} {c sticky : Bool} (data : Word)
    (hc : u.flags.c = c) (hs : u.flags.s = sticky) (hcmd : u.commands = s.commands)
    (hcmp : u.completions = s.completions)
    (hout : ∀ k, outside gs k = true → u.limb k = s.limb k ∧ u.isWritten k = s.isWritten k)
    (hin : ∀ k, k < 32 → outside gs k = false → u.isWritten k = true) :
    endsOk gs data c sticky s (u.complete .ok data) := by
  subst hc hs
  refine ⟨rfl, ?_, hcmd, fun k hk => ?_, fun k h1 h2 => ?_⟩
  · rw [State.complete_completions, hcmp, State.complete_flags]
  · exact hout k hk
  · exact hin k h1 h2

/-- Writing one group and flag `C`. -/
theorem endsOk_one_group (s : State) (r n v : Nat) (c : Bool) (h : r + n ≤ 32) :
    endsOk [⟨r, n⟩] 0 c s.flags.s s ((s.setGroup r n v).setC c).completeOk := by
  refine endsOk_complete 0 rfl (by simp) (by simp) (by simp) (fun k hk => ?_) fun k _ hk => ?_
  · have := (outside_cons _ _ _ _).1 hk
    simp [State.limb_setGroup, State.isWritten_setGroup, h, this.1]
  · have : r ≤ k ∧ k < r + n := by
      by_contra hn
      simp [(outside_cons _ _ _ _).2 ⟨hn, outside_nil k⟩] at hk
    simp [State.isWritten_setGroup, h, this]

/-- Writing one group and no flag. -/
theorem endsOk_one_group_only (s : State) (r n v : Nat) (h : r + n ≤ 32) :
    endsOk [⟨r, n⟩] 0 s.flags.c s.flags.s s (s.setGroup r n v).completeOk := by
  refine endsOk_complete 0 (by simp) (by simp) (by simp) (by simp) (fun k hk => ?_) fun k _ hk => ?_
  · have := (outside_cons _ _ _ _).1 hk
    simp [State.limb_setGroup, State.isWritten_setGroup, h, this.1]
  · have : r ≤ k ∧ k < r + n := by
      by_contra hn
      simp [(outside_cons _ _ _ _).2 ⟨hn, outside_nil k⟩] at hk
    simp [State.isWritten_setGroup, h, this]

/-- Writing two groups and no flag. -/
theorem endsOk_two_groups (s : State) (r n v r' n' v' : Nat) (h : r + n ≤ 32) (h' : r' + n' ≤ 32) :
    endsOk [⟨r, n⟩, ⟨r', n'⟩] 0 s.flags.c s.flags.s s
      ((s.setGroup r n v).setGroup r' n' v').completeOk := by
  refine endsOk_complete 0 (by simp) (by simp) (by simp) (by simp) (fun k hk => ?_) fun k _ hk => ?_
  · obtain ⟨h1, h2⟩ := (outside_cons _ _ _ _).1 hk
    have h3 := ((outside_cons _ _ _ _).1 h2).1
    rw [State.limb_setGroup _ _ _ _ _ h', if_neg h3, State.limb_setGroup _ _ _ _ _ h, if_neg h1,
      State.isWritten_setGroup _ _ _ _ _ h', if_neg h3, State.isWritten_setGroup _ _ _ _ _ h, if_neg h1]
    exact ⟨rfl, rfl⟩
  · rw [State.isWritten_setGroup _ _ _ _ _ h', State.isWritten_setGroup _ _ _ _ _ h]
    by_cases h1 : r' ≤ k ∧ k < r' + n'
    · rw [if_pos h1]
    · by_cases h2 : r ≤ k ∧ k < r + n
      · rw [if_neg h1, if_pos h2]
      · simp [(outside_cons _ _ _ _).2 ⟨h2, (outside_cons _ _ _ _).2 ⟨h1, outside_nil k⟩⟩] at hk

/-- Writing one register and no flag. -/
theorem endsOk_one_limb (s : State) (r : Nat) (v : Word) (h : r < 32) :
    endsOk [⟨r, 1⟩] 0 s.flags.c s.flags.s s (s.setLimb r v).completeOk := by
  refine endsOk_complete 0 (by simp) (by simp) (by simp) (by simp) (fun k hk => ?_) fun k _ hk => ?_
  · have h1 := ((outside_cons _ _ _ _).1 hk).1
    have h2 : r ≠ k := by rintro rfl; exact h1 ⟨le_rfl, Nat.lt_succ_self _⟩
    simp [h2, State.isWritten_setLimb]
  · have h1 : r = k := by
      by_contra hn
      have h2 : ¬ (r ≤ k ∧ k < r + 1) := by omega
      simp [(outside_cons _ _ _ _).2 ⟨h2, outside_nil k⟩] at hk
    simp [State.isWritten_setLimb, h1, h1 ▸ h]

/-- Writing a Decimal group and no flag (R27). -/
theorem endsOk_decimal (s : State) (r : Nat) (d : Decimal) (h : r + 4 ≤ 32) :
    endsOk [⟨r, 4⟩] 0 s.flags.c s.flags.s s (s.setDecimal r d).completeOk := by
  refine endsOk_complete 0 (by simp) (by simp) (by simp) (by simp) (fun k hk => ?_) fun k _ hk => ?_
  · have h1 := ((outside_cons _ _ _ _).1 hk).1
    exact ⟨State.limb_setDecimal_outside s r k d h (by omega),
      by rw [State.isWritten_setDecimal s r k d h, if_neg h1]⟩
  · have : r ≤ k ∧ k < r + 4 := by
      by_contra hn
      simp [(outside_cons _ _ _ _).2 ⟨hn, outside_nil k⟩] at hk
    rw [State.isWritten_setDecimal s r k d h, if_pos this]

/-- Completing with an error changes nothing but `ERR` (R223). -/
theorem endsWithError_completeError (s : State) (code : Code) :
    endsWithError code s (s.completeError code) :=
  ⟨rfl, rfl, rfl, rfl, rfl⟩

/-- Everything a division step can do (R100 to R103). -/
theorem divGroups_cases (a b q : Nat) (norm top : Bool) (rd rc ra rb : Nat) (s : State) :
    (divPrecondition a b q norm top (s.group ra a) (s.group rb b) = true ∧
      divGroups a b q norm top rd rc ra rb s = .next ((s.setGroup rd q (s.group ra a / s.group rb b)).setGroup rc b
        (s.group ra a % s.group rb b)).completeOk) ∨
    (divPrecondition a b q norm top (s.group ra a) (s.group rb b) = false ∧
      divGroups a b q norm top rd rc ra rb s = .fault .divPrecondition) := by
  unfold divGroups
  cases h : divPrecondition a b q norm top (s.group ra a) (s.group rb b)
  · exact .inr ⟨rfl, by simp [h]⟩
  · exact .inl ⟨rfl, by simp [h]⟩

/-- Everything a scan can do (R115, R116). -/
theorem msbGroup_cases (n rd ra : Nat) (s : State) :
    (s.group ra n = 0 ∧ msbGroup n rd ra s = .fault .msbOfZero) ∨
    (s.group ra n ≠ 0 ∧
      msbGroup n rd ra s = .next (s.setLimb rd (BitVec.ofNat 32 (msb (s.group ra n)))).completeOk) := by
  unfold msbGroup
  by_cases h : s.group ra n = 0
  · exact .inl ⟨h, if_pos h⟩
  · exact .inr ⟨h, if_neg h⟩

/-- Everything a reduction step can do (R126, R127). -/
theorem reduceStep_cases (sticky : Bool) (rd ra rb rc : Nat) (s : State) :
    (5 < (s.limb ra).toNat ∧ reduceStep sticky rd ra rb rc s = .fault .badHi) ∨
    ((s.limb ra).toNat ≤ 5 ∧ ∃ m d, m = s.group rd ((s.limb ra).toNat + 1) ∧ d = 10 ^ min (s.limb rb).toNat 9 ∧
      reduceStep sticky rd ra rb rc s =
        .next (((((s.setGroup rd ((s.limb ra).toNat + 1) (m / d)).setLimb ra
          (BitVec.ofNat 32 (hiLimb (m / d)))).setLimb rc (BitVec.ofNat 32 d)).setLimb (rc + 1)
          (BitVec.ofNat 32 (m % d))).setS sticky).completeOk) := by
  unfold reduceStep
  by_cases h : 5 < (s.limb ra).toNat
  · exact .inl ⟨h, if_pos h⟩
  · exact .inr ⟨Nat.le_of_not_lt h, _, _, rfl, rfl, if_neg h⟩

/-- Everything a rounding step can do (R131, R132). -/
theorem roundGroups_cases (n rd ra rb : Nat) (sticky : Bool) (s : State) :
    ((s.group rb n = 0 ∨ s.group rb n ≤ s.group ra n) ∧
      roundGroups n rd ra rb sticky s = .fault .roundPrecondition) ∨
    (s.group ra n < s.group rb n ∧ ∃ sum,
      sum = s.group rd n + (roundsUp (s.group rd n) (s.group ra n) (s.group rb n) sticky).toNat ∧
      roundGroups n rd ra rb sticky s
        = .next ((s.setGroup rd n (sum % 2 ^ (32 * n))).setC (carryOut n sum)).completeOk) := by
  unfold roundGroups
  by_cases h : s.group rb n = 0 ∨ s.group rb n ≤ s.group ra n
  · exact .inl ⟨h, if_pos h⟩
  · exact .inr ⟨by omega, _, rfl, if_neg h⟩

/-- Everything `SCALERES` can do once it is legal (R138). -/
theorem scaleWindow_cases (rd ra rb : Nat) (s : State) :
    (5 < (s.limb ra).toNat ∧ scaleWindow rd ra rb s = .fault .badHi) ∨
    ((s.limb ra).toNat ≤ 5 ∧
      ((∃ e, scaleResult (s.group rd ((s.limb ra).toNat + 1)) (s.limb rb).toNat = .error e ∧
        scaleWindow rd ra rb s = .next (s.completeError e)) ∨
      ∃ q scale, scaleResult (s.group rd ((s.limb ra).toNat + 1)) (s.limb rb).toNat = .ok (q, scale) ∧
        scaleWindow rd ra rb s =
          .next (((s.setGroup rd (max ((s.limb ra).toNat + 1) 3) q).setLimb ra
            (BitVec.ofNat 32 (hiLimb q))).setLimb rb (BitVec.ofNat 32 scale)).completeOk)) := by
  unfold scaleWindow
  by_cases h : 5 < (s.limb ra).toNat
  · exact .inl ⟨h, if_pos h⟩
  · refine .inr ⟨Nat.le_of_not_lt h, ?_⟩
    cases hr : scaleResult (s.group rd ((s.limb ra).toNat + 1)) (s.limb rb).toNat with
    | error e => exact .inl ⟨e, rfl, by simp only [h, hr, if_false]⟩
    | ok p => exact .inr ⟨p.1, p.2, rfl, by simp only [h, hr, if_false]⟩

/-- `ScaleResult` overflows and does nothing else but answer (R134). -/
theorem scaleResult_error {m s : Nat} {e : Code} (h : scaleResult m s = .error e) : e = .overflow := by
  simp only [scaleResult] at h
  split at h
  · cases h
  · split at h <;> split at h <;> first | exact (Except.error.inj h).symm | cases h

end Sys2Proof.Machine
end

