-- ==== Sys2Proof/Laws/PerInstr.lean ====
section
/-! SUPPORT. The per-instruction family `EncodedLength`: the first word of a legal command's encoding gives the
number of words it has (R73). -/

namespace Sys2Proof.Laws.EncodedLength

/-- The length R73 reads off the first word of an encoded command is the number of its words. -/
def Statement (i : Instr) : Prop :=
  i.wellFormed = true → commandLength ((encode i).headD 0) = (encode i).length

/-- A format R word that is neither `LI` nor `DPARSE` is a command of one word (R73). -/
theorem commandLength_wordR (op : Fin 64) (fn : Fin 8) (rd ra rb rc : Reg) (n : LimbField)
    (h1 : op.val ≠ opLI) (h2 : op.val ≠ opDPARSE) : commandLength (wordR op fn rd ra rb rc n) = 1 := by
  simp [commandLength, wordR, bits_op_wordOf, h1, h2]

theorem add (n : LimbField) (rd ra rb : Reg) : Statement (.add n rd ra rb) := by
  exact fun _ => commandLength_wordR _ _ _ _ _ _ _ (by decide) (by decide)

theorem adc (n : LimbField) (rd ra rb : Reg) : Statement (.adc n rd ra rb) := by
  exact fun _ => commandLength_wordR _ _ _ _ _ _ _ (by decide) (by decide)

theorem sub (n : LimbField) (rd ra rb : Reg) : Statement (.sub n rd ra rb) := by
  exact fun _ => commandLength_wordR _ _ _ _ _ _ _ (by decide) (by decide)

theorem sbb (n : LimbField) (rd ra rb : Reg) : Statement (.sbb n rd ra rb) := by
  exact fun _ => commandLength_wordR _ _ _ _ _ _ _ (by decide) (by decide)

theorem neg (n : LimbField) (rd ra : Reg) : Statement (.neg n rd ra) := by
  exact fun _ => commandLength_wordR _ _ _ _ _ _ _ (by decide) (by decide)

theorem mul32 (rd ra rb : Reg) : Statement (.mul32 rd ra rb) := by
  exact fun _ => commandLength_wordR _ _ _ _ _ _ _ (by decide) (by decide)

theorem mul64x32 (rd ra rb : Reg) : Statement (.mul64x32 rd ra rb) := by
  exact fun _ => commandLength_wordR _ _ _ _ _ _ _ (by decide) (by decide)

theorem mul64 (rd ra rb : Reg) : Statement (.mul64 rd ra rb) := by
  exact fun _ => commandLength_wordR _ _ _ _ _ _ _ (by decide) (by decide)

theorem div64by32 (rd rc ra rb : Reg) : Statement (.div64by32 rd rc ra rb) := by
  exact fun _ => commandLength_wordR _ _ _ _ _ _ _ (by decide) (by decide)

theorem div128by64 (rd rc ra rb : Reg) : Statement (.div128by64 rd rc ra rb) := by
  exact fun _ => commandLength_wordR _ _ _ _ _ _ _ (by decide) (by decide)

theorem div96by32 (rd rc ra rb : Reg) : Statement (.div96by32 rd rc ra rb) := by
  exact fun _ => commandLength_wordR _ _ _ _ _ _ _ (by decide) (by decide)

theorem div128by96 (rd rc ra rb : Reg) : Statement (.div128by96 rd rc ra rb) := by
  exact fun _ => commandLength_wordR _ _ _ _ _ _ _ (by decide) (by decide)

theorem div160by96 (rd rc ra rb : Reg) : Statement (.div160by96 rd rc ra rb) := by
  exact fun _ => commandLength_wordR _ _ _ _ _ _ _ (by decide) (by decide)

theorem div96by64 (rd rc ra rb : Reg) : Statement (.div96by64 rd rc ra rb) := by
  exact fun _ => commandLength_wordR _ _ _ _ _ _ _ (by decide) (by decide)

theorem msb32 (rd ra : Reg) : Statement (.msb32 rd ra) := by
  exact fun _ => commandLength_wordR _ _ _ _ _ _ _ (by decide) (by decide)

theorem msb64 (rd ra : Reg) : Statement (.msb64 rd ra) := by
  exact fun _ => commandLength_wordR _ _ _ _ _ _ _ (by decide) (by decide)

theorem lzc32 (rd ra : Reg) : Statement (.lzc32 rd ra) := by
  exact fun _ => commandLength_wordR _ _ _ _ _ _ _ (by decide) (by decide)

theorem lzc64 (rd ra : Reg) : Statement (.lzc64 rd ra) := by
  exact fun _ => commandLength_wordR _ _ _ _ _ _ _ (by decide) (by decide)

theorem shl128 (rd ra rb : Reg) : Statement (.shl128 rd ra rb) := by
  exact fun _ => commandLength_wordR _ _ _ _ _ _ _ (by decide) (by decide)

theorem reduce (rd ra rb rc : Reg) : Statement (.reduce rd ra rb rc) := by
  exact fun _ => commandLength_wordR _ _ _ _ _ _ _ (by decide) (by decide)

theorem reduceAcc (rd ra rb rc : Reg) : Statement (.reduceAcc rd ra rb rc) := by
  exact fun _ => commandLength_wordR _ _ _ _ _ _ _ (by decide) (by decide)

theorem reduceClr (rd ra rb rc : Reg) : Statement (.reduceClr rd ra rb rc) := by
  exact fun _ => commandLength_wordR _ _ _ _ _ _ _ (by decide) (by decide)

theorem scaleres (rd ra rb : Reg) : Statement (.scaleres rd ra rb) := by
  exact fun _ => commandLength_wordR _ _ _ _ _ _ _ (by decide) (by decide)

theorem rndhe (n : LimbField) (rd ra rb : Reg) : Statement (.rndhe n rd ra rb) := by
  exact fun _ => commandLength_wordR _ _ _ _ _ _ _ (by decide) (by decide)

theorem rndheS (n : LimbField) (rd ra rb : Reg) : Statement (.rndheS n rd ra rb) := by
  exact fun _ => commandLength_wordR _ _ _ _ _ _ _ (by decide) (by decide)

theorem dmul (rd ra rb : Reg) : Statement (.dmul rd ra rb) := by
  exact fun _ => commandLength_wordR _ _ _ _ _ _ _ (by decide) (by decide)

theorem dadd (rd ra rb : Reg) : Statement (.dadd rd ra rb) := by
  exact fun _ => commandLength_wordR _ _ _ _ _ _ _ (by decide) (by decide)

theorem dsub (rd ra rb : Reg) : Statement (.dsub rd ra rb) := by
  exact fun _ => commandLength_wordR _ _ _ _ _ _ _ (by decide) (by decide)

theorem ddiv (rd ra rb : Reg) : Statement (.ddiv rd ra rb) := by
  exact fun _ => commandLength_wordR _ _ _ _ _ _ _ (by decide) (by decide)

theorem dparse (rd ra : Reg) (sgn : Bool) (digits : List Byte) : Statement (.dparse rd ra sgn digits) := by
  intro h
  have hl : digits.length ≤ 32767 := by
    simp only [Instr.wellFormed, Instr.digitsOk, Bool.and_eq_true, decide_eq_true_eq] at h
    exact h.2.1
  have hw := wordP_toNat rd ra digits.length sgn
  have hb := Bool.toNat_lt sgn
  have h1 : bits (wordP rd ra digits.length sgn) 26 6 = 0x2C := by
    rw [bits, hw]
    omega
  have h2 : parseLen (wordP rd ra digits.length sgn) = digits.length := by
    rw [parseLen, bits, hw]
    omega
  simp [encode, commandLength, h1, h2, opLI, opDPARSE, Nat.add_comm]

theorem li (rd : Reg) (imm : Word) : Statement (.li rd imm) := by
  intro _
  simp [encode, commandLength, wordR, bits_op_wordOf, opLI]

theorem rdReg (ra : Reg) : Statement (.rdReg ra) := by
  exact fun _ => commandLength_wordR _ _ _ _ _ _ _ (by decide) (by decide)

end Sys2Proof.Laws.EncodedLength
end

