-- ==== Sys2Proof/Machine/Assembler.lean ====
section
/-! DEFINITION. The assembler form of every command (R74) and the pseudo-instructions (R75). Text only: nothing
in the machine depends on it. -/

namespace Sys2Proof

/-- A register's name (R74). -/
def regName (r : Reg) : String := "w" ++ toString r.val

/-- A mnemonic and its operands (R74). -/
def asmLine (mnemonic : String) (operands : List String) : String :=
  mnemonic ++ " " ++ String.intercalate ", " operands

/-- A mnemonic with its limb-count suffix (R74). -/
def sized (mnemonic : String) (n : LimbField) : String := mnemonic ++ "." ++ toString (limbs n)

/-- A digit string, quoted (R74). -/
def quoted (digits : List Byte) : String :=
  "\"" ++ String.ofList (digits.map (fun b => Char.ofNat b.toNat)) ++ "\""

/-- The assembler form: destinations, then sources (R74). -/
def Instr.asm : Instr → String
  | .add n rd ra rb => asmLine (sized "ADD" n) [regName rd, regName ra, regName rb]
  | .adc n rd ra rb => asmLine (sized "ADC" n) [regName rd, regName ra, regName rb]
  | .sub n rd ra rb => asmLine (sized "SUB" n) [regName rd, regName ra, regName rb]
  | .sbb n rd ra rb => asmLine (sized "SBB" n) [regName rd, regName ra, regName rb]
  | .neg n rd ra => asmLine (sized "NEG" n) [regName rd, regName ra]
  | .mul32 rd ra rb => asmLine "MUL32" [regName rd, regName ra, regName rb]
  | .mul64x32 rd ra rb => asmLine "MUL64X32" [regName rd, regName ra, regName rb]
  | .mul64 rd ra rb => asmLine "MUL64" [regName rd, regName ra, regName rb]
  | .div64by32 rd rc ra rb => asmLine "DIV64BY32" [regName rd, regName rc, regName ra, regName rb]
  | .div128by64 rd rc ra rb => asmLine "DIV128BY64" [regName rd, regName rc, regName ra, regName rb]
  | .div96by32 rd rc ra rb => asmLine "DIV96BY32" [regName rd, regName rc, regName ra, regName rb]
  | .div128by96 rd rc ra rb => asmLine "DIV128BY96" [regName rd, regName rc, regName ra, regName rb]
  | .div160by96 rd rc ra rb => asmLine "DIV160BY96" [regName rd, regName rc, regName ra, regName rb]
  | .div96by64 rd rc ra rb => asmLine "DIV96BY64" [regName rd, regName rc, regName ra, regName rb]
  | .msb32 rd ra => asmLine "MSB32" [regName rd, regName ra]
  | .msb64 rd ra => asmLine "MSB64" [regName rd, regName ra]
  | .lzc32 rd ra => asmLine "LZC32" [regName rd, regName ra]
  | .lzc64 rd ra => asmLine "LZC64" [regName rd, regName ra]
  | .shl128 rd ra rb => asmLine "SHL128" [regName rd, regName ra, regName rb]
  | .reduce rd ra rb rc => asmLine "REDUCE" [regName rd, regName ra, regName rb, regName rc]
  | .reduceAcc rd ra rb rc => asmLine "REDUCE.ACC" [regName rd, regName ra, regName rb, regName rc]
  | .reduceClr rd ra rb rc => asmLine "REDUCE.CLR" [regName rd, regName ra, regName rb, regName rc]
  | .scaleres rd ra rb => asmLine "SCALERES" [regName rd, regName ra, regName rb]
  | .rndhe n rd ra rb => asmLine (sized "RNDHE" n) [regName rd, regName ra, regName rb]
  | .rndheS n rd ra rb => asmLine (sized "RNDHE.S" n) [regName rd, regName ra, regName rb]
  | .dmul rd ra rb => asmLine "DMUL" [regName rd, regName ra, regName rb]
  | .dadd rd ra rb => asmLine "DADD" [regName rd, regName ra, regName rb]
  | .dsub rd ra rb => asmLine "DSUB" [regName rd, regName ra, regName rb]
  | .ddiv rd ra rb => asmLine "DDIV" [regName rd, regName ra, regName rb]
  | .dparse rd ra sgn digits =>
    asmLine "DPARSE" [regName rd, regName ra, if sgn then "-" else "+", quoted digits]
  | .li rd imm => asmLine "LI" [regName rd, toString imm.toNat]
  | .rdReg ra => asmLine "RD" [regName ra]

/-- The pseudo-mnemonics, each with the sized mnemonic it stands for (R75). -/
def pseudoMnemonics : List (String × String) :=
  (["ADD", "ADC", "SUB", "SBB", "NEG"].flatMap fun op =>
    (List.range 6).map fun k => (op ++ toString (32 * (k + 1)), op ++ "." ++ toString (k + 1)))
  ++ [("RNDHE96", "RNDHE.3"), ("RNDHES96", "RNDHE.S.3")]

end Sys2Proof
end

