-- ==== Sys2Proof/Tests/Slice0.lean ====
section
/-! SUPPORT. Tests: ill-formed commands are refused, written-out words decode, single commands give the spec's
example results, and every statement of Obligations.lean has inputs that meet its hypotheses. Expected values
are the examples of the cited rules of spec/, not the model's answers. -/

namespace Sys2Proof.Tests

open Sys2Proof Sys2Proof.Machine Sys2Proof.Safety

/-- The reset state with the given groups written: base, size, value. -/
def st (groups : List (Nat × Nat × Nat)) : State :=
  groups.foldl (fun s g => s.setGroup g.1 g.2.1 g.2.2) State.reset

/-- That state with flags `C` and `S`. -/
def stFlags (c sticky : Bool) (groups : List (Nat × Nat × Nat)) : State :=
  ((st groups).setC c).setS sticky

/-- The reset state with these words waiting. -/
def waiting (ws : List Word) : State := State.reset.present ws

/-- What `f` shows of the state a command ends in; nothing if it faults. -/
def after {α : Type} (i : Instr) (s : State) (f : State → α) : Option α :=
  match exec i s with
  | .next t => some (f t)
  | .fault _ => none
  | .refused _ => none

/-- The reason a command faults with, if it does. -/
def faultOf (i : Instr) (s : State) : Option Fault :=
  match exec i s with
  | .fault r => some r
  | .next _ => none
  | .refused _ => none

/-- The `ctl` word of a sign and a scale as a number (R27). -/
def ctl (sign scale : Nat) : Nat := sign * 2 ^ 31 + scale * 2 ^ 16

/-! ## Ill-formed commands are refused (R70) -/

/-- R70 (c): `n` is 6 or 7. -/
theorem test_limb_count_refused :
    (Instr.add 6 0 8 16).wellFormed = false ∧ (Instr.rndheS 7 0 8 16).wellFormed = false := by decide

/-- R70 (e): a group passes `w31`; the last one that fits does not. -/
theorem test_group_past_end_refused :
    (Instr.add 2 30 0 4).wellFormed = false ∧ (Instr.mul64 0 31 4).wellFormed = false ∧
    (Instr.add 2 29 0 4).wellFormed = true := by decide

/-- R70 (f), R71: destinations overlap; the budget of `REDUCE` may lie in the window. -/
theorem test_dest_overlap_refused :
    (Instr.div128by64 0 1 4 8).wellFormed = false ∧ (Instr.reduce 0 5 6 8).wellFormed = false ∧
    (Instr.scaleres 0 6 6).wellFormed = false ∧ (Instr.reduce 0 6 3 8).wellFormed = true := by decide

/-- R70 (g): a byte outside `0x30 .. 0x39`. -/
theorem test_digit_refused :
    (Instr.dparse 8 12 false [0x31, 0x3A]).wellFormed = false ∧
    (Instr.dparse 8 12 false [0x2F]).wellFormed = false ∧
    (Instr.dparse 8 12 false [0x30, 0x39]).wellFormed = true := by decide

/-- R58: more digits than the `len` field can hold. -/
theorem test_too_many_digits_refused :
    (Instr.dparse 8 12 false (List.replicate 32768 0x30)).wellFormed = false := by
  have h : ¬ 32768 ≤ 32767 := by decide
  simp only [Instr.wellFormed, Instr.digitsOk, List.length_replicate, h, decide_false, Bool.false_and, Bool.and_false]

/-! ## Written-out words decode (R56 to R63; the words are the spec's examples) -/

/-- R81, its example. -/
theorem test_decode_add : decode [0x04044010] = .command (.add 2 0 4 8) [] := by decide

/-- R82, its example. -/
theorem test_decode_adc : decode [0x04254801] = .command (.adc 0 1 5 9) [] := by decide

/-- R83, its example. -/
theorem test_decode_sub : decode [0x08044010] = .command (.sub 2 0 4 8) [] := by decide

/-- R84, its example. -/
theorem test_decode_sbb : decode [0x08254801] = .command (.sbb 0 1 5 9) [] := by decide

/-- R85, its example. -/
theorem test_decode_neg : decode [0x0C000010] = .command (.neg 2 0 0) [] := by decide

/-- R90, its example. -/
theorem test_decode_mul32 : decode [0x20021800] = .command (.mul32 0 2 3) [] := by decide

/-- R91, its example. -/
theorem test_decode_mul64x32 : decode [0x24043000] = .command (.mul64x32 0 4 6) [] := by decide

/-- R92, its example. -/
theorem test_decode_mul64 : decode [0x28043000] = .command (.mul64 0 4 6) [] := by decide

/-- R104, its example. -/
theorem test_decode_div64by32 : decode [0x40022040] = .command (.div64by32 0 1 2 4) [] := by decide

/-- R105, its example. -/
theorem test_decode_div128by64 : decode [0x44044080] = .command (.div128by64 0 2 4 8) [] := by decide

/-- R106, its example. -/
theorem test_decode_div96by32 : decode [0x480438C0] = .command (.div96by32 0 3 4 7) [] := by decide

/-- R107, its example. -/
theorem test_decode_div128by96 : decode [0x4C044040] = .command (.div128by96 0 1 4 8) [] := by decide

/-- R108, its example. -/
theorem test_decode_div160by96 : decode [0x50055080] = .command (.div160by96 0 2 5 10) [] := by decide

/-- R109, its example. -/
theorem test_decode_div96by64 : decode [0x54044040] = .command (.div96by64 0 1 4 8) [] := by decide

/-- R115, its example. -/
theorem test_decode_msb32 : decode [0x60010000] = .command (.msb32 0 1) [] := by decide

/-- R116, its example. -/
theorem test_decode_msb64 : decode [0x60020001] = .command (.msb64 0 2) [] := by decide

/-- R117, its example. -/
theorem test_decode_lzc32 : decode [0x64010000] = .command (.lzc32 0 1) [] := by decide

/-- R118, its example. -/
theorem test_decode_lzc64 : decode [0x64020001] = .command (.lzc64 0 2) [] := by decide

/-- R119, its example. -/
theorem test_decode_shl128 : decode [0x68044000] = .command (.shl128 0 4 8) [] := by decide

/-- R127, its example. -/
theorem test_decode_reduce : decode [0x80063A00] = .command (.reduce 0 6 7 8) [] := by decide

/-- R128, its example. -/
theorem test_decode_reduceAcc : decode [0x80063A01] = .command (.reduceAcc 0 6 7 8) [] := by decide

/-- R129, its example. -/
theorem test_decode_reduceClr : decode [0x80063A02] = .command (.reduceClr 0 6 7 8) [] := by decide

/-- R138, its example. -/
theorem test_decode_scaleres : decode [0x84063800] = .command (.scaleres 0 6 7) [] := by decide

/-- R131, its example. -/
theorem test_decode_rndhe : decode [0x88044010] = .command (.rndhe 2 0 4 8) [] := by decide

/-- R132, its example. -/
theorem test_decode_rndheS : decode [0x88044011] = .command (.rndheS 2 0 4 8) [] := by decide

/-- R151, its example. -/
theorem test_decode_dmul : decode [0xA1002000] = .command (.dmul 8 0 4) [] := by decide

/-- R161, its example. -/
theorem test_decode_dadd : decode [0xA5002000] = .command (.dadd 8 0 4) [] := by decide

/-- R162, its example. -/
theorem test_decode_dsub : decode [0xA5002001] = .command (.dsub 8 0 4) [] := by decide

/-- R177, its example. -/
theorem test_decode_ddiv : decode [0xAD002000] = .command (.ddiv 8 0 4) [] := by decide

/-- R197, its example. -/
theorem test_decode_dparse :
    decode [0xB10C000B, 0x34333231, 0x00000035] = .command (.dparse 8 12 true [0x31, 0x32, 0x33, 0x34, 0x35]) [] :=
  by decide

/-- R216, its example. -/
theorem test_decode_li : decode [0xC0A00000, 0x80020000] = .command (.li 5 0x80020000) [] := by decide

/-- R217, its example. -/
theorem test_decode_rdReg : decode [0xC4050000] = .command (.rdReg 5) [] := by decide

/-- R82, R108, R197, R216: the encoder writes the spec's words. -/
theorem test_encode_examples :
    encode (.adc 0 1 5 9) = [0x04254801] ∧ encode (.div160by96 0 2 5 10) = [0x50055080] ∧
    encode (.dparse 8 12 true [0x31, 0x32, 0x33, 0x34, 0x35]) = [0xB10C000B, 0x34333231, 0x00000035] ∧
    encode (.li 5 0x80020000) = [0xC0A00000, 0x80020000] := by decide

/-- R69, R70 (a) to (g): one word for each clause. -/
theorem test_illegal_words :
    decode [0x00000000] = .illegal .reservedOp [] ∧ decode [0xFFFFFFFF] = .illegal .reservedOp [] ∧
    decode [0x04044050] = .illegal .unusedField [] ∧ decode [0x04044030] = .illegal .limbCount [] ∧
    decode [0x80063A03] = .illegal .reduceMode [] ∧ decode [0x07C44010] = .illegal .groupPastEnd [] ∧
    decode [0x40022000] = .illegal .destOverlap [] ∧ decode [0xB10C0002, 0x0000003A] = .illegal .badDigit [] ∧
    decode [0xB10C0002, 0x00003531] = .illegal .badPadding [] := by decide

/-- R73, R224: an illegal `LI` consumes its immediate; a `LI` without it has not been presented. -/
theorem test_illegal_li_takes_two_words :
    decode [0xC0A00001, 5, 6] = .illegal .unusedField [6] ∧ decode [0xC0A00000] = .incomplete := by decide

/-- The table's numbering: bit 0 is the lowest bit of the first word. -/
theorem test_table_word :
    decodeTableWord 32 0xC4050000 = some (.rdReg 5) ∧ decodeTableWord 32 0xC0A00000 = some (.li 5 0) ∧
    decodeTableWord 64 0x80020000C0A00000 = some (.li 5 0x80020000) := by decide

/-! ## One command (the examples of the rules) -/

/-- R81. -/
theorem test_add_wraps :
    after (.add 2 0 4 8) (st [(4, 3, 2 ^ 96 - 1), (8, 3, 1)])
      (fun t => (t.group 0 3, t.flags.c)) = some (0, true) := by decide

/-- R38, R81; 95_test_vectors.md P5. -/
theorem test_add_doubles_in_place :
    after (.add 0 0 0 0) (st [(0, 1, 0xFFFFFFFF)])
      (fun t => (t.group 0 1, t.flags.c)) = some (0xFFFFFFFE, true) := by decide

/-- R82. -/
theorem test_adc_carries :
    after (.adc 0 1 5 9) (stFlags true false [(5, 1, 0xFFFFFFFF), (9, 1, 0)])
      (fun t => (t.group 1 1, t.flags.c)) = some (0, true) := by decide

/-- R83. -/
theorem test_sub_borrows :
    after (.sub 2 0 4 8) (st [(4, 3, 5), (8, 3, 7)])
      (fun t => (t.group 0 3, t.flags.c)) = some (0xFFFFFFFFFFFFFFFFFFFFFFFE, true) := by decide

/-- R84. -/
theorem test_sbb_borrows :
    after (.sbb 0 1 5 9) (stFlags true false [(5, 1, 0), (9, 1, 0)])
      (fun t => (t.group 1 1, t.flags.c)) = some (0xFFFFFFFF, true) := by decide

/-- R85. -/
theorem test_neg :
    after (.neg 2 0 0) (st [(0, 3, 2 ^ 96 - 2)])
      (fun t => (t.group 0 3, t.flags.c)) = some (2, true) := by decide

/-- R85. -/
theorem test_neg_zero :
    after (.neg 2 0 0) (stFlags true false [(0, 3, 0)])
      (fun t => (t.group 0 3, t.flags.c)) = some (0, false) := by decide

/-- R90. -/
theorem test_mul32 :
    after (.mul32 0 2 3) (st [(2, 1, 0xFFFFFFFF), (3, 1, 0xFFFFFFFF)])
      (fun t => (t.group 0 1, t.group 1 1)) = some (1, 0xFFFFFFFE) := by decide

/-- R91. -/
theorem test_mul64x32 :
    after (.mul64x32 0 4 6) (st [(4, 2, 2 ^ 64 - 1), (6, 1, 2 ^ 32 - 1)])
      (fun t => (t.group 0 1, t.group 1 1, t.group 2 1)) = some (0x00000001, 0xFFFFFFFF, 0xFFFFFFFE) :=
  by decide

/-- R92. -/
theorem test_mul64 :
    after (.mul64 0 4 6) (st [(4, 2, 2 ^ 64 - 1), (6, 2, 2 ^ 64 - 1)])
      (fun t => (t.group 0 1, t.group 1 1, t.group 2 1, t.group 3 1)) = some (1, 0, 0xFFFFFFFE, 0xFFFFFFFF) :=
  by decide

/-- R104. -/
theorem test_div64by32 :
    after (.div64by32 0 1 2 4) (st [(2, 2, 10 ^ 10), (4, 1, 10 ^ 9)])
      (fun t => (t.group 0 1, t.group 1 1)) = some (10, 0) := by decide

/-- R105. -/
theorem test_div128by64 :
    after (.div128by64 0 2 4 8) (st [(4, 4, 2 ^ 127), (8, 2, 2 ^ 63 + 1)])
      (fun t => (t.group 0 2, t.group 2 2)) = some (2 ^ 64 - 2, 2) := by decide

/-- R106. -/
theorem test_div96by32 :
    after (.div96by32 0 3 4 7) (st [(4, 3, 2 ^ 96 - 1), (7, 1, 10)])
      (fun t => (t.group 0 3, t.group 3 1)) = some (7922816251426433759354395033, 5) := by decide

/-- R107. -/
theorem test_div128by96 :
    after (.div128by96 0 1 4 8) (st [(4, 4, 0x123456789ABCDEF00FEDCBA987654321), (8, 3, 0x800000010000000200000003)])
      (fun t => (t.group 0 1, t.group 1 3)) = some (0x2468ACF0, 0x765431FFC71C71C91A2B3C51) := by decide

/-- R108. -/
theorem test_div160by96 :
    after (.div160by96 0 2 5 10) (st [(5, 5, 2 ^ 158), (10, 3, 2 ^ 95 + 1)])
      (fun t => (t.group 0 2, t.group 2 3)) = some (2 ^ 63 - 1, 2 ^ 95 - 2 ^ 63 + 1) := by decide

/-- R109. -/
theorem test_div96by64 :
    after (.div96by64 0 1 4 8) (st [(4, 3, 2 ^ 94 + 7), (8, 2, 2 ^ 63)])
      (fun t => (t.group 0 1, t.group 1 2)) = some (0x80000000, 7) := by decide

/-- R102. -/
theorem test_div_by_zero_faults :
    faultOf (.div96by32 0 3 4 7) (st [(4, 3, 1), (7, 1, 0)]) = some .divPrecondition := by decide

/-- R101, R102. -/
theorem test_div_not_normalized_faults :
    faultOf (.div96by64 0 1 4 8) (st [(4, 3, 1), (8, 2, 2 ^ 62)]) = some .divPrecondition := by decide

/-- R115. -/
theorem test_msb32 :
    after (.msb32 0 1) (st [(1, 1, 0x00010000)])
      (fun t => t.group 0 1) = some 16 := by decide

/-- R116. -/
theorem test_msb64 :
    after (.msb64 0 2) (st [(2, 2, 2 ^ 32)])
      (fun t => t.group 0 1) = some 32 := by decide

/-- R115; 95_test_vectors.md P6. -/
theorem test_msb_of_zero_faults : faultOf (.msb32 0 1) (st [(1, 1, 0)]) = some .msbOfZero := by decide

/-- R117. -/
theorem test_lzc32 :
    after (.lzc32 0 1) (st [(1, 1, 0x00012345)])
      (fun t => t.group 0 1) = some 15 := by decide

/-- R117. -/
theorem test_lzc32_zero :
    after (.lzc32 0 1) (st [(1, 1, 0)])
      (fun t => t.group 0 1) = some 32 := by decide

/-- R118. -/
theorem test_lzc64 :
    after (.lzc64 0 2) (st [(2, 2, 1)])
      (fun t => t.group 0 1) = some 63 := by decide

/-- R119. -/
theorem test_shl128 :
    after (.shl128 0 4 8) (st [(4, 1, 3), (5, 1, 2), (6, 1, 0x80000001), (7, 1, 0), (8, 1, 31)])
      (fun t => (t.group 0 1, t.group 1 1, t.group 2 1, t.group 3 1)) = some (0x80000000, 1, 0x80000001, 0x40000000) :=
  by decide

/-- R119. -/
theorem test_shl128_far :
    after (.shl128 0 4 8) (st [(4, 4, 2 ^ 128 - 1), (8, 1, 0xFFFFFFFF)])
      (fun t => t.group 0 4) = some 0 := by decide

/-- R127. -/
theorem test_reduce :
    after (.reduce 0 6 7 8) (st [(0, 4, 2 ^ 96), (6, 1, 3), (7, 1, 1)])
      (fun t => (t.group 0 4, t.group 6 1, t.group 8 1, t.group 9 1)) = some (0x199999999999999999999999, 2, 10, 6) :=
  by decide

/-- R128. -/
theorem test_reduceAcc_sets_sticky :
    after (.reduceAcc 0 6 7 8) (st [(0, 4, 2 ^ 96), (6, 1, 3), (7, 1, 1), (9, 1, 6)])
      (fun t => (t.flags.s, t.group 9 1)) = some (true, 6) := by decide

/-- R129. -/
theorem test_reduceClr_clears_sticky :
    after (.reduceClr 0 6 7 8) (stFlags false true [(0, 4, 2 ^ 96), (6, 1, 3), (7, 1, 1), (9, 1, 6)])
      (fun t => (t.flags.s, t.group 9 1)) = some (false, 6) := by decide

/-- R126. -/
theorem test_bad_hi_faults :
    faultOf (.reduce 0 6 7 8) (st [(0, 6, 1), (6, 1, 6), (7, 1, 1)]) = some .badHi := by decide

/-- R138. -/
theorem test_scaleres :
    after (.scaleres 0 6 7) (st [(0, 6, (2 ^ 96 - 1) ^ 2), (6, 1, 5), (7, 1, 56)])
      (fun t => (t.group 0 6, t.group 6 1, t.group 7 1)) = some (62771017353866807638357894230, 2, 27) :=
  by decide

/-- R138. -/
theorem test_scaleres_overflow :
    after (.scaleres 0 6 7) (st [(0, 6, (2 ^ 96 - 1) ^ 2), (6, 1, 5), (7, 1, 0)])
      (fun t => (t.group 0 6, t.group 6 1, t.flags.err)) = some ((2 ^ 96 - 1) ^ 2, 5, 1) := by decide

/-- R131. -/
theorem test_rndhe_tie_to_even :
    after (.rndhe 2 0 4 8) (st [(0, 3, 3), (4, 3, 5), (8, 3, 10)])
      (fun t => (t.group 0 3, t.flags.c)) = some (4, false) := by decide

/-- R131. -/
theorem test_rndhe_carries :
    after (.rndhe 2 0 4 8) (st [(0, 3, 2 ^ 96 - 1), (4, 3, 6), (8, 3, 10)])
      (fun t => (t.group 0 3, t.flags.c)) = some (0, true) := by decide

/-- R132. -/
theorem test_rndheS_breaks_tie :
    after (.rndheS 2 0 4 8) (stFlags false true [(0, 3, 2), (4, 3, 5), (8, 3, 10)])
      (fun t => (t.group 0 3, t.flags.c)) = some (3, false) := by decide

/-- R131, R132. -/
theorem test_round_precondition_faults :
    faultOf (.rndheS 2 0 4 8) (st [(0, 3, 2), (4, 3, 10), (8, 3, 10)]) = some .roundPrecondition := by decide

/-- R151. -/
theorem test_dmul :
    after (.dmul 8 0 4) (st [(0, 3, 15), (3, 1, ctl 0 1), (4, 3, 25), (7, 1, ctl 1 1)])
      (fun t => (t.group 8 3, t.group 11 1)) = some (375, 0x80020000) := by decide

/-- R157. -/
theorem test_dmul_ties_to_even :
    after (.dmul 8 0 4) (st [(0, 3, 15), (3, 1, ctl 0 28), (4, 3, 1), (7, 1, ctl 0 1)])
      (fun t => (t.group 8 3, t.group 11 1)) = some (2, 28 * 2 ^ 16) := by decide

/-- R161. -/
theorem test_dadd :
    after (.dadd 8 0 4) (st [(0, 3, 15), (3, 1, ctl 0 1), (4, 3, 225), (7, 1, ctl 0 2)])
      (fun t => (t.group 8 3, t.group 11 1)) = some (375, 0x00020000) := by decide

/-- R171. -/
theorem test_dadd_overflow :
    after (.dadd 8 0 4) (st [(0, 3, 2 ^ 96 - 1), (3, 1, 0), (4, 3, 5), (7, 1, ctl 0 1), (8, 1, 77)])
      (fun t => (t.group 8 1, t.flags.err)) = some (77, 1) := by decide

/-- R162. -/
theorem test_dsub :
    after (.dsub 8 0 4) (st [(0, 3, 5), (3, 1, 0), (4, 3, 7), (7, 1, 0)])
      (fun t => (t.group 8 3, t.group 11 1)) = some (2, 0x80000000) := by decide

/-- R177. -/
theorem test_ddiv :
    after (.ddiv 8 0 4) (st [(0, 3, 1), (3, 1, 0), (4, 3, 8), (7, 1, 0)])
      (fun t => (t.group 8 3, t.group 11 1)) = some (125, 0x00030000) := by decide

/-- R188. -/
theorem test_ddiv_by_zero :
    after (.ddiv 8 0 4) (st [(0, 3, 1), (3, 1, 0), (4, 3, 0), (7, 1, 0)])
      (fun t => t.flags.err) = some 2 := by decide

/-- R26, R162. -/
theorem test_bad_scale_faults :
    faultOf (.dsub 8 0 4) (st [(0, 3, 1), (3, 1, 0), (4, 3, 0), (7, 1, ctl 0 29)]) = some .badScale :=
  by decide

/-- R197. -/
theorem test_dparse :
    after (.dparse 8 12 true [0x31, 0x32, 0x33, 0x34, 0x35]) (st [(12, 1, 0xFFFFFFFE)])
      (fun t => (t.group 8 3, t.group 11 1)) = some (12345, 0x80020000) := by decide

/-- R205. -/
theorem test_dparse_unrepresentable :
    after (.dparse 8 12 false [0x38]) (st [(12, 1, 28)])
      (fun t => (t.group 8 3, t.group 11 1)) = some (0, 0) := by decide

/-- R216, R37. -/
theorem test_li :
    after (.li 5 0x80020000) (st [])
      (fun t => (t.group 5 1, t.isWritten 5, t.isWritten 4)) = some (0x80020000, true, false) := by decide

/-- R217. -/
theorem test_rd :
    after (.rdReg 5) (st [(5, 1, 0x80020000)])
      (fun t => t.completions) = some [{ data := 0x80020000, flags := 0 }] := by decide

/-- 95_test_vectors.md P6. -/
theorem test_strict_unwritten_read :
    execStrict (.rdReg 5) State.reset = .fault .unwrittenRegister ∧
    execStrict (.add 1 4 0 0) (st [(0, 1, 1)]) = .fault .unwrittenRegister := ⟨rfl, rfl⟩

/-! ## Every statement's hypotheses can be met

`witness_X` shows inputs that meet all hypotheses of `Obligations.X` together, for each clause at a boundary. -/

theorem witness_StepRunsDecodedCommand :
    decode (waiting [0xC4050000, 7]).commands = .command (.rdReg 5) [7] := by decide

theorem witness_PresentedCommandIsTheNextStep :
    State.reset.commands = [] ∧ (Instr.li 31 0xFFFFFFFF).wellFormed = true := by decide

theorem witness_StreamIsConsumedByLength :
    step State.reset = .next State.reset ∧
    commandLength 0xB10C000B = 3 ∧
    step (waiting [0xB10C000B, 0x34333231]) = .next (waiting [0xB10C000B, 0x34333231]) ∧
    (∃ t, step (waiting [0xC0A00001, 5, 6]) = .next t ∧ t.commands = [6]) :=
  ⟨rfl, by decide, rfl, ⟨_, rfl, by decide⟩⟩

theorem witness_IllegalCommandChangesOnlyErr :
    decode (waiting [0, 7]).commands = .illegal .reservedOp [7] ∧ (Instr.add 6 0 8 16).wellFormed = false :=
  by decide

theorem witness_ReservedOpIsOneWordIllegalCommand :
    (0xA8000000 : Word).toNat / 2 ^ 26 = 0x2A ∧ (0xC8000000 : Word).toNat / 2 ^ 26 = 0x32 := by decide

theorem witness_FetchedTableRowRuns :
    decodeTableWord 32 0xC7FF0000 = none ∧ decodeTableWord 32 0xC41F0000 = some (.rdReg 31) := by decide

theorem witness_DecodeOfEncodeIsTheCommand :
    (Instr.add 5 26 26 0).wellFormed = true ∧ (Instr.dparse 28 31 true []).wellFormed = true := by decide

theorem witness_DecodedWordsAreTheEncoding :
    decode [0x0744D028, 9] = .command (.add 5 26 4 26) [9] := by decide

theorem witness_MatchMaskSelectsOneRow :
    (Instr.reduceClr 26 0 1 2).wellFormed = true ∧
    matchMask (.reduceClr 26 0 1 2) ≠ matchMask (.reduce 0 6 7 8) := by decide

theorem witness_DecimalGroupWrite :
    28 + 4 ≤ 32 ∧ ({ sign := true, scale := 28, mant := 2 ^ 96 - 1 } : Decimal).scale ≤ 28 ∧
    ({ sign := true, scale := 28, mant := 2 ^ 96 - 1 } : Decimal).mant < 2 ^ 96 := by decide

theorem witness_ExchangeRecordRoundTrip :
    validDecimal { sign := true, scale := 28, mant := 2 ^ 96 - 1 } := ⟨by decide, by decide⟩

theorem witness_OneCompletionRecordPerCommand :
    decode (waiting [0xC4050000]).commands ≠ .incomplete ∧ ∃ t, step (waiting [0xC4050000]) = .next t :=
  ⟨by decide, _, rfl⟩

theorem witness_FailedCommandChangesOnlyErr :
    decode (waiting [0]).commands ≠ .incomplete ∧ ∃ t, step (waiting [0]) = .next t ∧ t.flags.err ≠ 0 :=
  ⟨by decide, _, rfl, by decide⟩

theorem witness_DivideByZeroExactlyForZeroDivisor :
    let s := st [(0, 3, 1), (3, 1, 0), (4, 3, 0), (7, 1, ctl 1 28)]
    (∃ t, exec (.ddiv 8 0 4) s = .next t ∧ t.flags.err = Code.divideByZero.bits) ∧
    (Instr.ddiv 8 0 4).wellFormed = true ∧ (s.decimal 0).scale ≤ 28 ∧ (s.decimal 4).scale ≤ 28 ∧
    s.group 4 3 = 0 := ⟨⟨_, rfl, by decide⟩, by decide⟩

theorem witness_FlagsWrittenOnlyByListedCommands :
    (∃ t, exec (.reduceClr 0 6 7 8) (stFlags true true [(0, 6, 1), (6, 1, 0), (7, 1, 0)]) = .next t) ∧
    writesC (.reduceClr 0 6 7 8) = false ∧ (∃ t, exec (.add 0 0 1 2) State.reset = .next t) ∧
    writesS (.add 0 0 1 2) = false ∧ ∃ t, exec (.add 6 0 8 16) State.reset = .next t ∧ t.flags.err ≠ 0 :=
  ⟨⟨_, rfl⟩, by decide, ⟨_, rfl⟩, by decide, _, rfl, by decide⟩

theorem witness_RegistersOutsideDestinationsKeep :
    ∃ t, exec (.scaleres 26 0 1) State.reset = .next t := ⟨_, rfl⟩

theorem witness_ResultDependsOnNamedInputsOnly :
    (∀ k ∈ readsOf (.adc 0 0 1 2) (stFlags true false [(1, 1, 5), (9, 1, 8)]),
      (stFlags true false [(1, 1, 5), (9, 1, 8)]).limb k = (stFlags true true [(1, 1, 5)]).limb k) ∧
    (stFlags true false [(1, 1, 5), (9, 1, 8)]).flags.c = (stFlags true true [(1, 1, 5)]).flags.c ∧
    readsS (.adc 0 0 1 2) = false ∧
    (∃ t, exec (.adc 0 0 1 2) (stFlags true false [(1, 1, 5), (9, 1, 8)]) = .next t) ∧
    faultOf (.msb32 0 1) (st [(2, 1, 3)]) = some .msbOfZero ∧
    ∀ k ∈ readsOf (.msb32 0 1) (st [(2, 1, 3)]), (st [(2, 1, 3)]).limb k = State.reset.limb k :=
  ⟨by decide, by decide, by decide, ⟨_, rfl⟩, by decide, by decide⟩

theorem witness_StrictStepIgnoresUnwrittenValues :
    sameWritten (waiting [0xC4050000]) { waiting [0xC4050000] with w := Vector.replicate 32 7#32 } := by
  refine ⟨rfl, rfl, rfl, rfl, fun k hk => ?_⟩
  rcases Nat.lt_or_ge k 32 with h | h
  · simp [State.isWritten, waiting, State.present, State.reset, h] at hk
  · simp [State.isWritten, waiting, State.present, State.reset, Nat.not_lt.2 h] at hk

theorem witness_UnwrittenReadIsJudgedAfterLegality :
    ((Instr.rdReg 31).wellFormed = true ∧ (31 ∈ readsOf (.rdReg 31) State.reset) ∧
      State.reset.isWritten 31 = false) ∧
    (Instr.dmul 29 0 4).wellFormed = false ∧
    ∀ k ∈ readsOf (.rdReg 31) (st [(31, 1, 0)]), (st [(31, 1, 0)]).isWritten k = true := by decide

/-- The invariant also holds in a state with a record whose code is an error, and a step goes on from there. -/
theorem witness_StepKeepsTheInvariant :
    Safety.Inv { waiting [0xC4050000] with
      flags := { c := true, s := true, err := 3 }, completions := [{ data := 0, flags := 15 }] } ∧
    ∃ t, step { waiting [0xC4050000] with
      flags := { c := true, s := true, err := 3 }, completions := [{ data := 0, flags := 15 }] } = .next t := by
  refine ⟨⟨by decide, fun r hr => ?_, fun r hr => ?_⟩, _, rfl⟩
  · obtain rfl := List.mem_singleton.1 hr
    exact ⟨by decide, fun _ => rfl⟩
  · obtain rfl := Option.some.inj hr
    rfl

theorem witness_AdditionResults :
    (Instr.add 5 26 0 26).wellFormed = true ∧ (Instr.adc 0 31 31 31).wellFormed = true := by decide

theorem witness_SubtractionResults :
    (Instr.sub 5 26 0 26).wellFormed = true ∧ (Instr.sbb 0 31 31 31).wellFormed = true := by decide

theorem witness_NegationResult :
    (Instr.neg 5 26 0).wellFormed = true ∧ (st [(0, 6, 0)]).group 0 6 = 0 ∧
    (st [(0, 6, 2 ^ 191)]).group 0 6 ≠ 0 := by decide

theorem witness_NegationRecoversTheMagnitude :
    (Instr.sub 2 0 0 4).wellFormed = true ∧
    (st [(0, 3, 0), (4, 3, 2 ^ 96 - 1)]).group 0 3 < (st [(0, 3, 0), (4, 3, 2 ^ 96 - 1)]).group 4 3 :=
  by decide

theorem witness_WideAdditionSplitsIntoAChain :
    limbs 5 = limbs 1 + limbs 3 ∧ (2 : Reg).val = (0 : Reg).val + limbs 1 ∧
    (12 : Reg).val = (10 : Reg).val + limbs 1 ∧
    (2 : Reg).val = (0 : Reg).val + limbs 1 ∧
    Group.meets ⟨(0 : Reg).val, limbs 1⟩ ⟨(12 : Reg).val, limbs 3⟩ = false ∧
    Group.meets ⟨(0 : Reg).val, limbs 1⟩ ⟨(2 : Reg).val, limbs 3⟩ = false ∧
    (Instr.add 5 0 10 0).wellFormed = true := by decide

theorem witness_MultiplicationResults :
    (Instr.mul32 30 31 31).wellFormed = true ∧ (Instr.mul64x32 29 30 31).wellFormed = true ∧
    (Instr.mul64 28 30 30).wellFormed = true := by decide

theorem witness_DivisionResults :
    let s := st [(0, 5, 0xFFFFFFFEFFFFFFFEFFFFFFFEFFFFFFFEFFFFFFFE), (8, 3, 2 ^ 96 - 1)]
    ((Instr.div64by32 12 13 1 9).wellFormed = true ∧ s.limb 2 < s.limb 9) ∧
    ((Instr.div128by64 12 14 0 9).wellFormed = true ∧ s.group 2 2 < s.group 9 2) ∧
    ((Instr.div96by32 12 15 0 9).wellFormed = true ∧ s.limb 9 ≠ 0) ∧
    ((Instr.div128by96 12 13 0 8).wellFormed = true ∧ (s.limb 10).getLsbD 31 = true ∧ s.limb 3 < s.limb 10) ∧
    ((Instr.div160by96 12 14 0 8).wellFormed = true ∧ (s.limb 10).getLsbD 31 = true ∧
    s.group 3 2 < s.group 9 2) ∧
    ((Instr.div96by64 12 13 0 9).wellFormed = true ∧ (s.limb 10).getLsbD 31 = true ∧ s.limb 2 < s.limb 10) :=
  by decide

theorem witness_DivisionPreconditionFaults :
    let s := st [(0, 5, 2 ^ 160 - 1), (8, 3, 2 ^ 96 - 1), (11, 1, 0)]
    ((Instr.div64by32 12 13 1 9).wellFormed = true ∧ ¬ s.limb 2 < s.limb 9) ∧
    ((Instr.div128by64 12 14 0 9).wellFormed = true ∧ ¬ s.group 2 2 < s.group 9 2) ∧
    ((Instr.div96by32 12 15 0 11).wellFormed = true ∧ s.limb 11 = 0) ∧
    ((Instr.div128by96 12 13 0 8).wellFormed = true ∧ ¬ ((s.limb 10).getLsbD 31 = true ∧
    s.limb 3 < s.limb 10)) ∧
    ((Instr.div160by96 12 14 0 8).wellFormed = true ∧ ¬ ((s.limb 10).getLsbD 31 = true ∧
    s.group 3 2 < s.group 9 2)) ∧
    ((Instr.div96by64 12 13 0 10).wellFormed = true ∧ ¬ ((s.limb 11).getLsbD 31 = true ∧
    s.limb 2 < s.limb 11)) := by decide

theorem witness_ScanResults :
    (st [(31, 1, 1)]).limb 31 ≠ 0 ∧ (Instr.msb64 0 30).wellFormed = true ∧ (st [(31, 1, 1)]).group 30 2 ≠ 0 :=
  by decide

theorem witness_LeadingZeroResults :
    (Instr.lzc64 31 30).wellFormed = true ∧ State.reset.group 30 2 = 0 ∧ (st [(30, 2, 2 ^ 63)]).group 30 2 ≠ 0 :=
  by decide

theorem witness_CountIsWidthLessScan :
    (st [(31, 1, 0xFFFFFFFF)]).limb 31 ≠ 0 ∧ (Instr.msb64 0 30).wellFormed = true ∧
    (st [(31, 1, 1)]).group 30 2 ≠ 0 := by decide

theorem witness_ShiftResult :
    (Instr.shl128 28 28 31).wellFormed = true ∧ 128 ≤ ((st [(31, 1, 128)]).limb 31).toNat ∧
    ¬ 128 ≤ ((st [(31, 1, 127)]).limb 31).toNat := by decide

theorem witness_ReductionResults :
    ((st [(26, 6, 2 ^ 192 - 1), (0, 1, 5)]).limb 0).toNat ≤ 5 ∧ (Instr.reduce 26 0 1 2).wellFormed = true ∧
    (Instr.reduceAcc 26 0 1 2).wellFormed = true ∧ (Instr.reduceClr 26 0 1 2).wellFormed = true := by decide

theorem witness_StickyChainRoundsExactly :
    (Instr.reduceClr 26 0 1 2).wellFormed = true ∧ outside (Instr.reduceClr 26 0 1 2).dests 1 = true ∧
    ((st [(26, 6, 2 ^ 192 - 1), (0, 1, 5)]).limb 0).toNat ≤ 5 ∧ [1, 9, 9] ≠ [] ∧ ∀ p ∈ [1, 9, 9], 1 ≤ p ∧
    p ≤ 9 := by decide

theorem witness_RoundingResults :
    (st [(4, 3, 2 ^ 96 - 2), (8, 3, 2 ^ 96 - 1)]).group 4 (limbs 2) < (st [(4, 3, 2 ^ 96 - 2), (8, 3, 2 ^ 96 - 1)]).group 8 (limbs 2) ∧
    (Instr.rndhe 2 0 4 8).wellFormed = true ∧ (Instr.rndheS 2 0 4 8).wellFormed = true := by decide

/-- R139 (c). -/
theorem witness_ScaleresResult :
    let s := st [(0, 6, 2 ^ 96), (6, 1, 5), (7, 1, 1), (8, 1, 0)]
    (Instr.scaleres 0 6 7).wellFormed = true ∧ (s.limb 6).toNat ≤ 5 ∧
    scaleResult (s.group 0 6) (s.limb 7).toNat = .ok (7922816251426433759354395034, 0) ∧
    (Instr.scaleres 0 6 8).wellFormed = true ∧ scaleResult (s.group 0 6) (s.limb 8).toNat = .error .overflow ∧
    (Instr.scaleres 0 8 9).wellFormed = true ∧ (s.limb 8).toNat ≤ 5 ∧ s.group 0 1 < 2 ^ 96 ∧
    (s.limb 9).toNat ≤ 28 := by decide

/-- R139 (d). -/
theorem witness_ScaleResultIsTheBestFit :
    10 * 2 ^ 96 - 5 < 2 ^ 192 ∧ scaleResult (10 * 2 ^ 96 - 5) 2 = .ok (7922816251426433759354395034, 0) ∧
    scaleResult (10 * 2 ^ 96 - 5) 1 = .error .overflow := by decide

theorem witness_EstimateIsACloseLowerBound :
    (2 ^ 192 - 1) / 10 ^ 29 < 2 ^ 96 ∧ ∀ j, j < 29 → 2 ^ 96 ≤ (2 ^ 192 - 1) / 10 ^ j := by decide

/-- R139 (e). -/
theorem witness_ProcedureEqualsTheClosedForm :
    (2 ^ 96 - 1) ^ 2 < 2 ^ 192 ∧ 56 ≤ 56 ∧
    scaleProcedure ((2 ^ 96 - 1) ^ 2) 56 = .ok (62771017353866807638357894230, 27) := by decide

/-- R157. -/
theorem witness_DecimalProductResult :
    let s := st [(0, 3, 2 ^ 48), (3, 1, ctl 0 1), (4, 3, 2 ^ 48), (7, 1, ctl 1 0), (8, 3, 0), (11, 1, ctl 1 28),
      (12, 3, 2 ^ 48 - 1), (15, 1, ctl 0 28)]
    (Instr.dmul 28 0 4).wellFormed = true ∧ (Instr.dmul 28 4 4).wellFormed = true ∧
    (Instr.dmul 28 0 8).wellFormed = true ∧ (Instr.dmul 28 4 12).wellFormed = true ∧
    (s.decimal 0).scale ≤ 28 ∧ (s.decimal 4).scale ≤ 28 ∧ (s.decimal 8).scale ≤ 28 ∧
    (s.decimal 12).scale ≤ 28 ∧
    (s.decimal 0).mant * (s.decimal 8).mant = 0 ∧
    ((s.decimal 4).mant * (s.decimal 12).mant ≠ 0 ∧ (s.decimal 4).mant * (s.decimal 12).mant < 2 ^ 96 ∧
      (s.decimal 4).scale + (s.decimal 12).scale ≤ 28) ∧
    ((s.decimal 0).mant * (s.decimal 4).mant ≠ 0 ∧
      scaleResult ((s.decimal 0).mant * (s.decimal 4).mant) ((s.decimal 0).scale + (s.decimal 4).scale)
        = .ok (7922816251426433759354395034, 0)) ∧
    (s.decimal 4).mant * (s.decimal 4).mant ≠ 0 ∧
      scaleResult ((s.decimal 4).mant * (s.decimal 4).mant) ((s.decimal 4).scale + (s.decimal 4).scale)
        = .error .overflow := by decide

/-- R171. -/
theorem witness_DecimalSumResults :
    let s := st [(0, 3, 2 ^ 96 - 1), (3, 1, ctl 0 0), (4, 3, 5), (7, 1, ctl 0 1), (8, 3, 4), (11, 1, ctl 0 1),
      (12, 3, 5), (15, 1, ctl 1 1)]
    (Instr.dadd 28 0 4).wellFormed = true ∧ (Instr.dadd 28 0 8).wellFormed = true ∧
    (s.decimal 0).scale ≤ 28 ∧ (s.decimal 4).scale ≤ 28 ∧ (s.decimal 8).scale ≤ 28 ∧
    (s.decimal 12).scale ≤ 28 ∧
    addSubDecimal false (s.decimal 0) (s.decimal 8) = .ok { sign := false, scale := 0, mant := 2 ^ 96 - 1 } ∧
    addSubDecimal false (s.decimal 0) (s.decimal 4) = .error .overflow ∧
    addSubDecimal true (s.decimal 12) (s.decimal 4) = .ok { sign := true, scale := 1, mant := 10 } ∧
    addSubDecimal true (s.decimal 0) (s.decimal 12) = .error .overflow := by decide

/-- R171, its last row among them. -/
theorem witness_DecimalSumIsExactOrBestFit :
    validDecimal { sign := false, scale := 28, mant := 2 ^ 96 - 1 } ∧
    validDecimal { sign := true, scale := 0, mant := 0 } ∧
    2 ^ 96 ≤ (signed false (2 ^ 96 - 1) + signed false (1 * 10 ^ 28)).natAbs ∧
    scaleResult (signed false (2 ^ 96 - 1) + signed false (1 * 10 ^ 28)).natAbs 28 = .ok (8922816251426433759354395034, 27) ∧
    scaleResult (signed false (2 ^ 96 - 1) + signed false (2 ^ 96 - 1)).natAbs 0 = .error .overflow ∧
    (signed false 5 + signed true 5 = 0 ∧ signed false (2 ^ 96 - 1) + signed true 1 ≠ 0 ∧
      (signed false (2 ^ 96 - 1) + signed true 1).natAbs < 2 ^ 96) :=
  ⟨⟨by decide, by decide⟩, ⟨by decide, by decide⟩, by decide, by decide, by decide, by decide⟩

theorem witness_DecimalSumCommutes :
    validDecimal { sign := false, scale := 28, mant := 2 ^ 96 - 1 } ∧
    validDecimal { sign := true, scale := 0, mant := 0 } := ⟨⟨by decide, by decide⟩, by decide, by decide⟩

theorem witness_OverflowOnlyWhenMagnitudesAdd :
    validDecimal { sign := false, scale := 0, mant := 2 ^ 96 - 1 } ∧
    validDecimal { sign := true, scale := 1, mant := 5 } ∧
    addSubDecimal true { sign := false, scale := 0, mant := 2 ^ 96 - 1 } { sign := true, scale := 1, mant := 5 }
      = .error .overflow := ⟨⟨by decide, by decide⟩, ⟨by decide, by decide⟩, by decide⟩

/-- R188: a zero divisor, an exact quotient, a scaled one, and a quotient too large, each with its operands. -/
def quotients : State :=
  st [(0, 1, 1), (4, 1, 1), (7, 1, ctl 0 28), (12, 3, 2 ^ 96 - 1), (15, 1, ctl 1 28), (16, 1, 8)]

/-- R188. -/
theorem witness_DecimalQuotientResult :
    ((Instr.ddiv 28 0 8).wellFormed = true ∧ (Instr.ddiv 28 12 12).wellFormed = true ∧
      (Instr.ddiv 28 0 16).wellFormed = true ∧ (Instr.ddiv 28 16 4).wellFormed = true) ∧
    ((quotients.decimal 0).scale ≤ 28 ∧ (quotients.decimal 4).scale ≤ 28 ∧ (quotients.decimal 8).scale ≤ 28 ∧
      (quotients.decimal 12).scale ≤ 28 ∧ (quotients.decimal 16).scale ≤ 28) ∧
    (quotients.decimal 8).mant = 0 ∧
    ((quotients.decimal 12).mant ≠ 0 ∧ (quotients.decimal 12).mant % (quotients.decimal 12).mant = 0 ∧
      (quotients.decimal 12).scale ≤ (quotients.decimal 12).scale) ∧
    divideDecimal (quotients.decimal 0) (quotients.decimal 16) = .ok { sign := false, scale := 3, mant := 125 } ∧
    divideDecimal (quotients.decimal 16) (quotients.decimal 4) = .error .overflow :=
  ⟨by decide, by decide, by decide, by decide, by decide, by decide⟩

/-- R180: its threshold, the limits 19 and 28. -/
theorem witness_ScaleSearchIsSafeAndMaximal :
    searchScale 7922816251426433759354395032 27 = 1 ∧ searchScale 7922816251426433759354395033 27 = 0 ∧
    searchScale 0 (-28) = 19 ∧ searchScale 0 20 = 8 ∧ (2 ^ 96 - 1 < 2 ^ 96) := by decide

/-- `Divide` of the positive Decimals `(c, m)` and `(c', m')`: the result as `(scale, mantissa)`; nothing where they are
not in range or the divisor is 0. -/
def quotientOf (c m c' m' : Nat) : Option (Except Code (Nat × Nat)) :=
  if c ≤ 28 ∧ m < 2 ^ 96 ∧ c' ≤ 28 ∧ m' < 2 ^ 96 ∧ m' ≠ 0 then
    some ((divideDecimal { sign := false, scale := c, mant := m } { sign := false, scale := c', mant := m' }).map
      fun d => (d.scale, d.mant))
  else none

/-- R185, R188, R190 (c): without a scaling step, exact with its zeros kept, exact from a negative scale, and rounded, at
scale 28 and by the threshold; after one, exact and stripped, exact from a negative scale, rounded, rounded and
stripped. -/
theorem witness_QuotientIsExactOrNearest :
    (validDecimal { sign := false, scale := 0, mant := 2 } ∧ validDecimal { sign := false, scale := 0, mant := 3 }) ∧
    (quotientOf 2 100 0 1 = some (.ok (2, 100)) ∧ quotientOf 0 1 28 1 = some (.ok (0, 10 ^ 28)) ∧
      quotientOf 28 59 0 6 = some (.ok (28, 10)) ∧ quotientOf 0 (2 ^ 96 - 1) 0 2 = some (.ok (0, 2 ^ 95))) ∧
    (quotientOf 0 1 0 8 = some (.ok (3, 125)) ∧ quotientOf 0 1 28 8 = some (.ok (0, 125 * 10 ^ 25)) ∧
      quotientOf 0 2 0 3 = some (.ok (28, 6666666666666666666666666667)) ∧
      quotientOf 0 (2 * 10 ^ 28 - 1) 0 (2 * 10 ^ 28) = some (.ok (0, 1))) ∧
    59 % 6 ≠ 0 ∧ (2 ^ 96 - 1) % 2 ≠ 0 ∧ 2 ^ 96 < ((2 ^ 96 - 1) / 2 + 1) * 10 :=
  ⟨⟨⟨by decide, by decide⟩, ⟨by decide, by decide⟩⟩, by decide, by decide, by decide⟩

/-- R184: `Overflow` of an exact quotient, and of an inexact one whose scale is still negative. -/
theorem witness_QuotientIsExactOrNearest_overflow :
    quotientOf 0 8 28 1 = some (.error .overflow) ∧ quotientOf 0 (2 ^ 96 - 2) 1 3 = some (.error .overflow) ∧
    (2 ^ 96 - 2) % 3 ≠ 0 ∧ 2 ^ 96 < ((2 ^ 96 - 2) / 3 + 1) * 10 := by decide

/-- R188. -/
theorem witness_UnscaleStripsEveryZero :
    28 ≤ 28 ∧ unscale (10 ^ 28) 28 = (1, 0) ∧ unscale 1250000000000000000 19 = (125, 3) := by decide

theorem witness_MultiplyThenDivideRecovers :
    let s := st [(0, 3, 2 ^ 48 - 1), (3, 1, ctl 1 28), (4, 3, 2 ^ 48), (7, 1, ctl 1 0)]
    (Instr.dmul 8 0 4).wellFormed = true ∧ (Instr.ddiv 0 8 4).wellFormed = true ∧
    Group.meets ⟨(8 : Reg).val, 4⟩ ⟨(4 : Reg).val, 4⟩ = false ∧ (s.decimal 0).scale ≤ 28 ∧
    (s.decimal 4).scale ≤ 28 ∧
    (s.decimal 0).mant * (s.decimal 4).mant < 2 ^ 96 ∧ (s.decimal 0).scale + (s.decimal 4).scale ≤ 28 ∧
    (s.decimal 4).mant ≠ 0 ∧ (s.decimal 0).mant ≠ 0 := by decide

/-- The exponents at which the clauses of R202 meet, as the 32-bit register holds them: 30, 29, 0, -28, -29. -/
theorem witness_ParseResult_exponents :
    (Instr.dparse 28 31 true []).wellFormed = true ∧ (Instr.dparse 28 31 true [0x30, 0x39]).wellFormed = true ∧
    ((st [(31, 1, 30)]).limb 31).toInt = 30 ∧ ((st [(31, 1, 29)]).limb 31).toInt = 29 ∧
    ((st [(31, 1, 0)]).limb 31).toInt = 0 ∧ ((st [(31, 1, 0xFFFFFFE4)]).limb 31).toInt = -28 ∧
    ((st [(31, 1, 0xFFFFFFE3)]).limb 31).toInt = -29 := by decide

/-- R202, R205: a whole string that fits multiplied out and one that does not; thirty sevens, which stop early, at an
exponent `E` of -29, -28 and 1. -/
theorem witness_ParseResult :
    (spelled [7] < 2 ^ 96 ∧ spelled [7] * 10 ^ 28 < 2 ^ 96 ∧ 2 ^ 96 ≤ spelled [8] * 10 ^ 28) ∧
    parseRound (consume 0 [7]).1 (consume 0 [7]).2 28 = (7, 28) ∧
    parseRound (consume 0 (List.replicate 30 7)).1 (consume 0 (List.replicate 30 7)).2 (-30)
      = (77777777777777777777777777778, -29) ∧
    parseRound (consume 0 (List.replicate 30 7)).1 (consume 0 (List.replicate 30 7)).2 (-29)
      = (77777777777777777777777777778, -28) ∧
    parseRound (consume 0 (List.replicate 30 7)).1 (consume 0 (List.replicate 30 7)).2 0
      = (77777777777777777777777777778, 1) ∧
    2 ^ 96 ≤ 77777777777777777777777777778 * 10 ^ (1 : Int).toNat := by decide

/-- Thirty digits of which one is left, fifty of which twenty-one are left, fifty-one of which twenty-two are. -/
theorem witness_ParseRoundsHalfToEven :
    (∀ d ∈ List.replicate 30 7, d < 10) ∧ (consume 0 (List.replicate 30 7)).2 = [7] ∧
    (consume 0 (List.replicate 50 7)).2.length = 21 ∧ (consume 0 (List.replicate 51 7)).2.length = 22 := by decide

theorem witness_LoadedRecordReadsBack :
    28 + 4 ≤ 32 ∧ (List.replicate 16 (0xFF : Byte)).length = 16 := by decide

theorem witness_PreconditionFaults :
    let s := st [(0, 2, 0), (2, 1, 6), (4, 3, 2 ^ 96 - 1), (7, 1, ctl 0 29), (8, 3, 2 ^ 96 - 1), (11, 1, 0)]
    s.limb 0 = 0 ∧ (Instr.msb64 31 0).wellFormed = true ∧ s.group 0 2 = 0 ∧
    (5 < (s.limb 2).toNat ∧ (Instr.reduce 16 2 3 24).wellFormed = true ∧
    (Instr.reduceAcc 16 2 3 24).wellFormed = true ∧
      (Instr.reduceClr 16 2 3 24).wellFormed = true ∧ (Instr.scaleres 16 2 3).wellFormed = true) ∧
    (s.group 8 (limbs 2) ≤ s.group 4 (limbs 2) ∧ s.group 0 (limbs 1) = 0 ∧
      (Instr.rndhe 2 16 4 8).wellFormed = true ∧ (Instr.rndheS 2 16 4 8).wellFormed = true) ∧
    (28 < (s.decimal 4).scale ∧ (Instr.dmul 28 4 8).wellFormed = true ∧ (Instr.dmul 28 8 4).wellFormed = true) :=
  by decide

end Sys2Proof.Tests
end

section
/-! Value groups, limb by limb (R14, R23), and the highest nonzero limb of a value (R16, R126). -/

namespace Sys2Proof.Proofs

open Sys2Proof.Machine Sys2Proof.Safety

/-- One limb further is a factor `2^32`. -/
theorem two_pow_limb_succ (k : Nat) : 2 ^ (32 * (k + 1)) = 2 ^ 32 * 2 ^ (32 * k) := by
  rw [← pow_add]
  congr 1
  omega

/-- Settles O11, by induction on the number of limbs: each further limb shifts the rest by `2^32`. -/
theorem groupIsTheSumOfItsLimbs : Obligations.GroupIsTheSumOfItsLimbs := by
  intro s r n
  induction n generalizing r with
  | zero => rfl
  | succ n ih =>
    rw [State.group, ih, Finset.sum_range_succ', Finset.mul_sum, add_comm]
    refine congrArg₂ (· + ·) (Finset.sum_congr rfl fun j _ => ?_) (by simp)
    rw [add_right_comm r 1 j, add_assoc r j 1, two_pow_limb_succ, Nat.mul_left_comm]

/-- Limb `k` of a group is digit `k` of the group's value in base `2^32`. -/
theorem toNat_limb_eq_digit (s : State) (r : Nat) {k n : Nat} (hk : k < n) :
    (s.limb (r + k)).toNat = s.group r n / 2 ^ (32 * k) % 2 ^ 32 := by
  induction n generalizing r k with
  | zero => omega
  | succ n ih =>
    have hlimb : (s.limb r).toNat < 2 ^ 32 := (s.limb r).isLt
    rw [State.group]
    cases k with
    | zero =>
      rw [Nat.add_zero, Nat.mul_zero, pow_zero, Nat.div_one, Nat.add_mul_mod_self_left, Nat.mod_eq_of_lt hlimb]
    | succ k =>
      rw [two_pow_limb_succ, ← Nat.div_div_eq_div_mul, Nat.add_mul_div_left _ _ (by decide), Nat.div_eq_of_lt hlimb,
        Nat.zero_add, ← ih (r + 1) (Nat.lt_of_succ_lt_succ hk), add_right_comm r 1 k, add_assoc r k 1]

/-- `hiLimb` is the index of a limb that reaches every value below `2^(32(n+1))` (R16). -/
theorem hiLimb_le {x n : Nat} (h : x < 2 ^ (32 * (n + 1))) : hiLimb x ≤ n := by
  unfold hiLimb msb
  split
  case isTrue => exact Nat.zero_le n
  case isFalse hx =>
    have : Nat.log2 x < 32 * (n + 1) := (Nat.log2_lt hx).2 h
    omega

/-- A value has no bit above limb `hiLimb` (R16). -/
theorem lt_two_pow_hiLimb (x : Nat) : x < 2 ^ (32 * (hiLimb x + 1)) := by
  unfold hiLimb msb
  split
  case isTrue hx => simp [hx]
  case isFalse hx =>
    calc x < 2 ^ (Nat.log2 x + 1) := Nat.lt_log2_self
      _ ≤ _ := Nat.pow_le_pow_right (by decide) (by omega)

/-- A nonzero value reaches limb `hiLimb` (R16). -/
theorem two_pow_hiLimb_le {x : Nat} (hx : x ≠ 0) : 2 ^ (32 * hiLimb x) ≤ x := by
  rw [hiLimb, if_neg hx, msb]
  calc 2 ^ (32 * (Nat.log2 x / 32)) ≤ 2 ^ Nat.log2 x :=
        Nat.pow_le_pow_right (by decide) (Nat.mul_div_le _ _)
    _ ≤ x := Nat.log2_self_le hx

/-- A window that holds `m`, with `hiLimb m` in the `hi` register, is as R126 describes it. -/
theorem highestLimb_of_group {t : State} {rd ra n m : Nat} (hg : t.group rd (n + 1) = m)
    (hhi : (t.limb ra).toNat = hiLimb m) : highestLimb rd ra m t := by
  rw [highestLimb, hhi]
  refine ⟨lt_two_pow_hiLimb m, ?_⟩
  by_cases hm : m = 0
  · exact .inl (by simp [hm, hiLimb])
  · right
    have hle : hiLimb m < n + 1 := Nat.lt_succ_of_le (hiLimb_le (hg ▸ State.group_lt t rd (n + 1)))
    have hpos : 0 < m / 2 ^ (32 * hiLimb m) := Nat.div_pos (two_pow_hiLimb_le hm) (Nat.two_pow_pos _)
    have hlt : m / 2 ^ (32 * hiLimb m) < 2 ^ 32 := by
      refine Nat.div_lt_of_lt_mul ?_
      rw [← pow_add]
      exact lt_two_pow_hiLimb m
    have hdigit := toNat_limb_eq_digit t rd hle
    rw [hg, Nat.mod_eq_of_lt hlt] at hdigit
    intro hzero
    simp [hzero] at hdigit
    omega

end Sys2Proof.Proofs
end

section
/-! Commands that write several groups one after the other: what they leave alone and what they mark (R37, R47). -/

namespace Sys2Proof.Proofs

open Sys2Proof.Machine Sys2Proof.Safety

/-- Only registers of the groups differ between the states, and each of them is marked as written (R37, R47). -/
def wroteExactly (gs : List Group) (s u : State) : Prop :=
  sameElsewhere gs s u ∧ ∀ k, k < Config.nreg → outside gs k = false → u.isWritten k = true

theorem wroteExactly_nil (s : State) : wroteExactly [] s s :=
  ⟨fun _ _ => ⟨rfl, rfl⟩, fun _ _ h => by simp [outside] at h⟩

/-- A register is outside the groups and one more when it is outside both. -/
theorem outside_append_singleton (gs : List Group) (r n k : Nat) :
    outside (gs ++ [⟨r, n⟩]) k = true ↔ outside gs k = true ∧ ¬ (r ≤ k ∧ k < r + n) := by
  simp only [outside, List.all_append, List.all_cons, List.all_nil, Group.holds, Bool.and_true, Bool.and_eq_true,
    Bool.not_eq_true', decide_eq_false_iff_not]

/-- One more group written is one more group in the list. -/
theorem wroteExactly.setGroup {gs : List Group} {s u : State} (h : wroteExactly gs s u) {r n : Nat} (v : Nat)
    (hr : r + n ≤ 32) : wroteExactly (gs ++ [⟨r, n⟩]) s (u.setGroup r n v) := by
  obtain ⟨hsame, hmarked⟩ := h
  constructor
  · intro k hk
    obtain ⟨hgs, hout⟩ := (outside_append_singleton gs r n k).1 hk
    rw [State.limb_setGroup _ _ _ _ _ hr, State.isWritten_setGroup _ _ _ _ _ hr, if_neg hout, if_neg hout]
    exact hsame k hgs
  · intro k hk hin
    rw [State.isWritten_setGroup _ _ _ _ _ hr]
    split
    case isTrue => rfl
    case isFalse hout =>
      refine hmarked k hk ?_
      rw [← Bool.not_eq_true] at hin ⊢
      exact fun hgs => hin ((outside_append_singleton gs r n k).2 ⟨hgs, hout⟩)

/-- Writing a limb is writing a group of one. -/
theorem setLimb_eq_setGroup (s : State) (r : Nat) (v : Word) : s.setLimb r v = s.setGroup r 1 v.toNat := by
  simp [State.setGroup]

/-- Writing two neighbouring limbs is writing a group of two. -/
theorem setLimb_setLimb_eq_setGroup (s : State) (r : Nat) (a b : Word) :
    (s.setLimb r a).setLimb (r + 1) b = s.setGroup r 2 (a.toNat + 2 ^ 32 * b.toNat) := by
  have hlow : BitVec.ofNat 32 (a.toNat + 2 ^ 32 * b.toNat) = a :=
    BitVec.eq_of_toNat_eq (by
      rw [BitVec.toNat_ofNat, Nat.add_mul_mod_self_left, Nat.mod_eq_of_lt a.isLt])
  have hhigh : (a.toNat + 2 ^ 32 * b.toNat) / 2 ^ 32 = b.toNat := by
    have := a.isLt
    omega
  rw [State.setGroup, State.setGroup, State.setGroup, hlow, hhigh, BitVec.ofNat_toNat, BitVec.setWidth_eq]

theorem wroteExactly.setLimb {gs : List Group} {s u : State} (h : wroteExactly gs s u) {r : Nat} (v : Word)
    (hr : r < 32) : wroteExactly (gs ++ [⟨r, 1⟩]) s (u.setLimb r v) :=
  setLimb_eq_setGroup u r v ▸ h.setGroup v.toNat hr

theorem wroteExactly.setLimbPair {gs : List Group} {s u : State} (h : wroteExactly gs s u) {r : Nat} (a b : Word)
    (hr : r + 2 ≤ 32) : wroteExactly (gs ++ [⟨r, 2⟩]) s ((u.setLimb r a).setLimb (r + 1) b) :=
  setLimb_setLimb_eq_setGroup u r a b ▸ h.setGroup _ hr

theorem wroteExactly.setS {gs : List Group} {s u : State} (h : wroteExactly gs s u) (b : Bool) :
    wroteExactly gs s (u.setS b) := h

/-- A command that wrote the groups and left the streams alone ends `OK` with the flags it has (R221, R222). -/
theorem wroteExactly.endsOk {gs : List Group} {s u : State} (h : wroteExactly gs s u) {c sticky : Bool}
    (hc : u.flags.c = c) (hs : u.flags.s = sticky) (hcmd : u.commands = s.commands)
    (hcmp : u.completions = s.completions) : endsOk gs 0 c sticky s u.completeOk :=
  endsOk_complete 0 hc hs hcmd hcmp h.1 h.2

end Sys2Proof.Proofs
end

section
/-! `REDUCE` and `SCALERES` over the 6-limb magnitude window (R126 to R129, R138). -/

namespace Sys2Proof.Proofs

open Sys2Proof.Machine Sys2Proof.Safety

theorem exec_reduce (rd ra rb rc : Reg) (s : State) :
    exec (.reduce rd ra rb rc) s = execReduce rd ra rb rc s := rfl

theorem exec_reduceAcc (rd ra rb rc : Reg) (s : State) :
    exec (.reduceAcc rd ra rb rc) s = execReduceAcc rd ra rb rc s := rfl

theorem exec_reduceClr (rd ra rb rc : Reg) (s : State) :
    exec (.reduceClr rd ra rb rc) s = execReduceClr rd ra rb rc s := rfl

theorem exec_scaleres (rd ra rb : Reg) (s : State) :
    exec (.scaleres rd ra rb) s = execScaleres rd ra rb s := rfl

/-- The window at `rd`, its `hi` register `ra` and the output group of `n` limbs at `r` fit the register file and
share no register (R23, R71). -/
structure WindowOperands (rd ra r n : Nat) : Prop where
  window_fits : rd + 6 ≤ 32
  hi_fits : ra < 32
  out_fits : r + n ≤ 32
  hi_outside_window : ra < rd ∨ rd + 6 ≤ ra
  out_outside_window : r + n ≤ rd ∨ rd + 6 ≤ r
  hi_outside_out : ra < r ∨ r + n ≤ ra

/-- A legal command that writes a window, a `hi` register and one more group has its operands apart (R70, R71). -/
theorem windowOperands_of_wellFormed {i : Instr} {rd ra r n : Nat} (h : i.wellFormed = true)
    (hd : i.dests = [⟨rd, windowSize⟩, ⟨ra, 1⟩, ⟨r, n⟩]) : WindowOperands rd ra r n := by
  have hfits (g : Group) (hg : g ∈ i.dests) : g.base + g.size ≤ 32 :=
    fits_of_wellFormed h (List.mem_append_left _ hg)
  have hapart := destsApart_of_wellFormed h
  simp only [Instr.destsApart, hd, groupsApart, List.all_cons, List.all_nil, Bool.and_true, Bool.and_eq_true,
    Bool.not_eq_true'] at hapart
  obtain ⟨⟨hwindowHi, hwindowOut⟩, hhiOut⟩ := hapart
  simp only [hd, List.forall_mem_cons] at hfits
  obtain ⟨hwindow, hhi, hout, -⟩ := hfits
  have hwh := apart_of_not_meets hwindowHi
  have hwo := apart_of_not_meets hwindowOut
  have hho := apart_of_not_meets hhiOut
  simp only [windowSize] at hwindow hhi hout hwh hwo hho
  constructor <;> omega

/-- A reduction step with `hi` at most 5 ends as R126 and R127 say, with the sticky bit it is given. -/
theorem reduceStep_reduced {rd ra rc : Nat} (rb : Nat) {s : State} (sticky : Bool) (ho : WindowOperands rd ra rc 2)
    (hhi : (s.limb ra).toNat ≤ 5) :
    ∃ t, reduceStep sticky rd ra rb rc s = .next t ∧ reduced rd ra rb rc sticky s t := by
  obtain ⟨hbad, -⟩ | ⟨-, m, d, hm, hd, hstep⟩ := reduceStep_cases sticky rd ra rb rc s
  · omega
  refine ⟨_, hstep, ?_⟩
  obtain ⟨hwindow, hhiFits, hout, hwindowHi, hwindowOut, hhiOut⟩ := ho
  simp only [reduced, ← hm, ← hd]
  generalize (s.limb ra).toNat = hi at *
  generalize ht : State.completeOk _ = t
  have hmlt : m < 2 ^ (32 * (hi + 1)) := hm ▸ State.group_lt s rd (hi + 1)
  have hdlt : d < 2 ^ 32 := hd ▸ ten_pow_lt _ (Nat.min_le_right _ _)
  have hdpos : 0 < d := hd ▸ Nat.pow_pos (by decide)
  have hqlt : m / d < 2 ^ (32 * (hi + 1)) := lt_of_le_of_lt (Nat.div_le_self m d) hmlt
  have hhiLimb : hiLimb (m / d) ≤ hi := hiLimb_le hqlt
  have hquot : t.group rd (hi + 1) = m / d := by
    rw [← ht, State.completeOk_eq, State.complete_group, State.setS_group,
      State.group_setLimb_of_outside _ _ _ _ _ (by omega), State.group_setLimb_of_outside _ _ _ _ _ (by omega),
      State.group_setLimb_of_outside _ _ _ _ _ (by omega), State.group_setGroup _ _ _ _ (by omega) hqlt]
  have hnewHi : (t.limb ra).toNat = hiLimb (m / d) := by
    rw [← ht, State.completeOk_eq, State.complete_limb, State.setS_limb, State.limb_setLimb_ne _ _ (by omega),
      State.limb_setLimb_ne _ _ (by omega), State.limb_setLimb_same _ _ _ hhiFits, BitVec.toNat_ofNat,
      Nat.mod_eq_of_lt (by omega)]
  refine ⟨hquot, ?divisor, ?remainder, hnewHi ▸ hhiLimb, highestLimb_of_group hquot hnewHi, ?ending⟩
  case divisor =>
    rw [← ht, State.completeOk_eq, State.complete_limb, State.setS_limb, State.limb_setLimb_ne _ _ (by omega),
      State.limb_setLimb_same _ _ _ (by omega), BitVec.toNat_ofNat, Nat.mod_eq_of_lt hdlt]
  case remainder =>
    rw [← ht, State.completeOk_eq, State.complete_limb, State.setS_limb, State.limb_setLimb_same _ _ _ (by omega),
      BitVec.toNat_ofNat, Nat.mod_eq_of_lt ((Nat.mod_lt m hdpos).trans hdlt)]
  case ending =>
    subst ht
    have hwrote := (((wroteExactly_nil s).setGroup (r := rd) (n := hi + 1) (m / d) (by omega)).setLimb
      (BitVec.ofNat 32 (hiLimb (m / d))) hhiFits).setLimbPair (BitVec.ofNat 32 d) (BitVec.ofNat 32 (m % d)) hout
    exact (hwrote.setS sticky).endsOk (by simp) (by simp) (by simp) (by simp)

/-- Settles O38: the three modes are one reduction step that differs in the sticky bit alone. -/
theorem reductionResults : Obligations.ReductionResults := by
  intro rd ra rb rc s hhi
  refine ⟨fun h => ?keep, fun h => ?accumulate, fun h => ?clear⟩
  case keep =>
    rw [exec_reduce, execReduce, whenLegal_of_legal h]
    exact reduceStep_reduced rb _ (windowOperands_of_wellFormed h rfl) hhi
  case accumulate =>
    have hsticky : stickyWith s.flags.s (s.limb (rc + 1)).toNat
        = (s.flags.s || decide (s.limb (rc + 1 : Nat) ≠ 0)) := by
      simp [stickyWith, BitVec.toNat_eq]
    rw [exec_reduceAcc, execReduceAcc, whenLegal_of_legal h, ← hsticky]
    exact reduceStep_reduced rb _ (windowOperands_of_wellFormed h rfl) hhi
  case clear =>
    rw [exec_reduceClr, execReduceClr, whenLegal_of_legal h]
    exact reduceStep_reduced rb _ (windowOperands_of_wellFormed h rfl) hhi

end Sys2Proof.Proofs
end

section
/-! `ScaleResult` as the search for the least power that fits (R134, R156), and `SCALERES` (R138). -/

namespace Sys2Proof.Proofs

open Sys2Proof.Machine Sys2Proof.Safety

/-- Only the largest mantissa can round up to `2^96`, and only from one half on (R15). -/
theorem of_rhe_eq_mantLimit {num den : Nat} (hfit : num / den < 2 ^ 96) (hcarry : rhe num den = 2 ^ 96) :
    num / den = 2 ^ 96 - 1 ∧ den ≤ 2 * (num % den) := by
  cases hup : roundsUp (num / den) (num % den) den false with
  | false =>
    rw [rhe, hup, Bool.toNat_false] at hcarry
    omega
  | true =>
    rw [rhe, hup, Bool.toNat_true] at hcarry
    have := (roundsUp_iff _ _ _ _).1 hup
    omega

/-- After a rounding carry one more power of ten gives the mantissa `carryMant` (R134). -/
theorem rhe_mul_ten_of_carry {num den : Nat} (hfit : num / den < 2 ^ 96) (hcarry : rhe num den = 2 ^ 96) :
    rhe num (den * 10) = carryMant := by
  obtain ⟨hquot, hhalf⟩ := of_rhe_eq_mantLimit hfit hcarry
  have hden : 0 < den := by
    by_contra h0
    simp [Nat.eq_zero_of_not_pos h0] at hquot
  have hquot10 : num / (den * 10) = carryMant - 1 := by
    rw [← Nat.div_div_eq_div_mul, hquot]
    decide
  have hrem10 : num % (den * 10) = num % den + den * 5 := by
    rw [Nat.mod_mul, hquot, show (2 ^ 96 - 1) % 10 = 5 by decide]
  have hup : roundsUp (num / (den * 10)) (num % (den * 10)) (den * 10) false = true :=
    (roundsUp_iff _ _ _ _).2 (.inl (by omega))
  rw [rhe, hup, hquot10]
  decide

/-- The least power `ScaleResult` may divide by: enough for the scale and for the magnitude (R134). -/
def firstPower (m s : Nat) : Nat := max (s - 28) (leastFit m)

/-- The power `ScaleResult` divides by: one more than the least one where that one rounds to `2^96` (R134). -/
def bestPower (m s : Nat) : Nat :=
  if rhe m (10 ^ firstPower m s) = 2 ^ 96 then firstPower m s + 1 else firstPower m s

/-- From the least power on, a magnitude rounds to at most `2^96` (R134). -/
theorem fits_firstPower (m s : Nat) : m / 10 ^ firstPower m s < 2 ^ 96 :=
  fits_of_leastFit_le (Nat.le_max_right _ _)

theorem rhe_one (m : Nat) : rhe m 1 = m := by
  simpa using rhe_mul_self m Nat.one_pos

/-- `ScaleResult` rounds at `bestPower`, and overflows where the scale has fewer digits to give (R134). -/
theorem scaleResult_eq (m s : Nat) :
    scaleResult m s =
      if s < bestPower m s then .error .overflow
      else .ok (rhe m (10 ^ bestPower m s), s - bestPower m s) := by
  have hfit := fits_firstPower m s
  unfold scaleResult bestPower
  simp only [rhePow_eq]
  rw [show max (s - Config.scaleMax) (leastFit m) = firstPower m s from rfl]
  by_cases hzero : firstPower m s = 0
  · have hcarry : rhe m (10 ^ firstPower m s) ≠ 2 ^ 96 := by
      rw [hzero, pow_zero, Nat.div_one] at hfit
      rw [hzero, pow_zero, rhe_one]
      exact Nat.ne_of_lt hfit
    rw [if_pos hzero, if_neg hcarry, hzero]
    simp [rhe_one]
  · by_cases hcarry : rhe m (10 ^ firstPower m s) = 2 ^ 96
    · rw [if_neg hzero, if_pos hcarry, if_pos hcarry, pow_succ, rhe_mul_ten_of_carry hfit hcarry]
    · rw [if_neg hzero, if_neg hcarry, if_neg hcarry]

/-- The power leaves a scale of at most 28 (R134). -/
theorem le_bestPower (m s : Nat) : s - 28 ≤ bestPower m s := by
  have : s - 28 ≤ firstPower m s := Nat.le_max_left _ _
  unfold bestPower
  split <;> omega

/-- The magnitude rounded at that power fits 96 bits (R134). -/
theorem rhe_bestPower_lt (m s : Nat) : rhe m (10 ^ bestPower m s) < 2 ^ 96 := by
  have hfit := fits_firstPower m s
  unfold bestPower
  split
  case isTrue hcarry =>
    rw [pow_succ, rhe_mul_ten_of_carry hfit hcarry]
    decide
  case isFalse hcarry =>
    have := rhe_le m (10 ^ firstPower m s)
    omega

/-- At any smaller power the scale allows, the rounded magnitude does not fit (R134). -/
theorem le_rhe_of_lt_bestPower {m s k : Nat} (hscale : s - 28 ≤ k) (hk : k < bestPower m s) :
    2 ^ 96 ≤ rhe m (10 ^ k) := by
  rcases Nat.lt_or_ge k (firstPower m s) with hlt | hge
  · have hleast : k < leastFit m := by
      unfold firstPower at hlt
      omega
    calc 2 ^ 96 ≤ m / 10 ^ k := (leastFit_spec m).2 k hleast
      _ ≤ rhe m (10 ^ k) := Nat.le_add_right _ _
  · unfold bestPower at hk
    split at hk
    case isTrue hcarry =>
      have hkeq : k = firstPower m s := by omega
      exact hkeq ▸ hcarry.ge
    case isFalse => omega

/-- At each scale above the one `bestPower` leaves, the rounded magnitude does not fit (R134). -/
theorem le_rhe_of_larger_scale {m s j : Nat} (hbest : s < j + bestPower m s) (hs : j ≤ s) (h28 : j ≤ 28) :
    2 ^ 96 ≤ rhe m (10 ^ (s - j)) :=
  le_rhe_of_lt_bestPower (Nat.sub_le_sub_left h28 s) (by omega)

/-- Settles O42: the scale `s - bestPower m s` fits and no larger one does. The bound `2^192` is not needed. -/
theorem scaleResultIsTheBestFit : Obligations.ScaleResultIsTheBestFit := by
  intro m s _
  have hscale := le_bestPower m s
  have hfits := rhe_bestPower_lt m s
  have hfits' (h : bestPower m s ≤ s) : rhe m (10 ^ (s - (s - bestPower m s))) < 2 ^ 96 := by
    rwa [Nat.sub_sub_self h]
  rw [scaleResult_eq]
  by_cases hover : s < bestPower m s
  · rw [if_pos hover]
    refine ⟨fun q s' => ⟨nofun, ?_⟩, fun _ j => le_rhe_of_larger_scale (by omega), fun _ => rfl⟩
    rintro ⟨hs, h28, rfl, hlt, -⟩
    exact absurd hlt (Nat.not_lt.2 (le_rhe_of_larger_scale (by omega) hs h28))
  · rw [if_neg hover]
    have hle := Nat.le_of_not_lt hover
    refine ⟨fun q s' => ⟨?answer, ?unique⟩, nofun, fun h => ?_⟩
    case answer =>
      rintro ⟨⟩
      exact ⟨Nat.sub_le _ _, by omega, by rw [Nat.sub_sub_self hle], hfits,
        fun j hj => le_rhe_of_larger_scale (by omega)⟩
    case unique =>
      rintro ⟨hs, h28, rfl, hlt, hlargest⟩
      have hs' : s' = s - bestPower m s := by
        rcases Nat.lt_trichotomy s' (s - bestPower m s) with hlow | heq | hhigh
        · exact absurd (hfits' hle) (Nat.not_lt.2 (hlargest _ hlow (Nat.sub_le _ _) (by omega)))
        · exact heq
        · exact absurd hlt (Nat.not_lt.2 (le_rhe_of_larger_scale (by omega) hs h28))
      rw [hs', Nat.sub_sub_self hle]
    · exact absurd (hfits' hle) (Nat.not_lt.2 (h _ (Nat.sub_le _ _) (by omega)))

/-- What fits 96 bits at a scale of at most 28 is its own `ScaleResult` (R134). -/
theorem scaleResult_of_fits {m s : Nat} (hm : m < 2 ^ 96) (hs : s ≤ 28) : scaleResult m s = .ok (m, s) := by
  refine ((scaleResultIsTheBestFit m s (hm.trans (by decide))).1 m s).2 ⟨le_rfl, hs, ?_, hm, by omega⟩
  rw [Nat.sub_self, pow_zero, rhe_one]

/-- A legal scaling of a value in range ends with what `ScaleResult` gives in the window and its registers (R138). -/
theorem scaleWindow_scaled {rd ra rb q s' : Nat} {s : State} (ho : WindowOperands rd ra rb 1)
    (hhi : (s.limb ra).toNat ≤ 5)
    (hres : scaleResult (s.group rd ((s.limb ra).toNat + 1)) (s.limb rb).toNat = .ok (q, s')) :
    ∃ t, scaleWindow rd ra rb s = .next t ∧ scaled rd ra rb q s' s t := by
  obtain ⟨hbad, -⟩ | ⟨-, ⟨e, he, -⟩ | ⟨q', scale, hok, hstep⟩⟩ := scaleWindow_cases rd ra rb s
  · omega
  · cases hres.symm.trans he
  cases hres.symm.trans hok
  refine ⟨_, hstep, ?_⟩
  obtain ⟨hwindow, hhiFits, hout, hwindowHi, hwindowOut, hhiOut⟩ := ho
  have hm : s.group rd ((s.limb ra).toNat + 1) < 2 ^ 192 :=
    (State.group_lt s rd _).trans_le (Nat.pow_le_pow_right (by decide) (by omega))
  obtain ⟨-, hs28, -, hq, -⟩ := ((scaleResultIsTheBestFit _ _ hm).1 q s').1 hres
  simp only [scaled]
  generalize (s.limb ra).toNat = hi at *
  obtain ⟨n, hn⟩ : ∃ n, max (hi + 1) 3 = n + 1 := ⟨max hi 2, by omega⟩
  rw [hn]
  generalize ht : State.completeOk _ = t
  have hhiLimb : hiLimb q ≤ 2 := hiLimb_le hq
  have hqlt : q < 2 ^ (32 * (n + 1)) := hq.trans_le (Nat.pow_le_pow_right (by decide) (by omega))
  have hmant : t.group rd (n + 1) = q := by
    rw [← ht, State.completeOk_eq, State.complete_group, State.group_setLimb_of_outside _ _ _ _ _ (by omega),
      State.group_setLimb_of_outside _ _ _ _ _ (by omega), State.group_setGroup _ _ _ _ (by omega) hqlt]
  have hnewHi : (t.limb ra).toNat = hiLimb q := by
    rw [← ht, State.completeOk_eq, State.complete_limb, State.limb_setLimb_ne _ _ (by omega),
      State.limb_setLimb_same _ _ _ hhiFits, BitVec.toNat_ofNat, Nat.mod_eq_of_lt (by omega)]
  refine ⟨hmant, hnewHi, hnewHi ▸ hhiLimb, highestLimb_of_group hmant hnewHi, ?scale, hs28, ?ending⟩
  case scale =>
    rw [← ht, State.completeOk_eq, State.complete_limb, State.limb_setLimb_same _ _ _ hout, BitVec.toNat_ofNat,
      Nat.mod_eq_of_lt (by omega)]
  case ending =>
    subst ht
    exact ((((wroteExactly_nil s).setGroup _ (by omega)).setLimb _ hhiFits).setLimb _ hout).endsOk
      (by simp) (by simp) (by simp) (by simp)

/-- Where `ScaleResult` overflows, so does a scaling step, with nothing changed (R138, R223). -/
theorem scaleWindow_overflow {rd ra rb : Nat} {s : State} (hhi : (s.limb ra).toNat ≤ 5)
    (hres : scaleResult (s.group rd ((s.limb ra).toNat + 1)) (s.limb rb).toNat = .error .overflow) :
    scaleWindow rd ra rb s = .next (s.completeError .overflow) := by
  obtain ⟨hbad, -⟩ | ⟨-, ⟨e, he, hstep⟩ | ⟨q, scale, hok, -⟩⟩ := scaleWindow_cases rd ra rb s
  · omega
  · cases hres.symm.trans he
    exact hstep
  · cases hres.symm.trans hok

/-- Settles O41: `ScaleResult` answers or overflows, and the command ends accordingly. -/
theorem scaleresResult : Obligations.ScaleresResult := by
  intro rd ra rb s hlegal hhi
  have ho : WindowOperands rd ra rb 1 := windowOperands_of_wellFormed hlegal rfl
  rw [exec_scaleres, execScaleres, whenLegal_of_legal hlegal]
  refine ⟨?completes, fun hm hs => ?unchanged, fun q s' hres => ?answer, fun hres => ?overflow⟩
  case completes =>
    cases hres : scaleResult (s.group rd ((s.limb ra).toNat + 1)) (s.limb rb).toNat with
    | ok p =>
      obtain ⟨t, ht, -, -, -, -, -, -, hend⟩ := scaleWindow_scaled ho hhi hres
      exact ⟨t, ht, .inl (congrArg Flags.err hend.1)⟩
    | error e =>
      obtain rfl := scaleResult_error hres
      exact ⟨_, scaleWindow_overflow hhi hres, .inr rfl⟩
  case unchanged => exact scaleWindow_scaled ho hhi (scaleResult_of_fits hm hs)
  case answer => exact scaleWindow_scaled ho hhi hres
  case overflow => exact ⟨_, scaleWindow_overflow hhi hres, endsWithError_completeError s .overflow⟩

end Sys2Proof.Proofs
end

section
/-! What every command does, said once: it faults, or completes with an error, or writes groups, flags and one
record, all of which depend on its inputs alone (R30, R34, R221, R223). -/

namespace Sys2Proof.Proofs

open Sys2Proof.Machine Sys2Proof.Safety

/-- The state after values are written to groups, in the order of the list (R14). -/
def writeAll : List (Group × Nat) → State → State
  | [], s => s
  | (g, v) :: ws, s => writeAll ws (s.setGroup g.base g.size v)

@[simp] theorem writeAll_flags (ws : List (Group × Nat)) (s : State) : (writeAll ws s).flags = s.flags := by
  induction ws generalizing s with
  | nil => rfl
  | cons w ws ih => rw [writeAll, ih, State.setGroup_flags]

@[simp] theorem writeAll_commands (ws : List (Group × Nat)) (s : State) :
    (writeAll ws s).commands = s.commands := by
  induction ws generalizing s with
  | nil => rfl
  | cons w ws ih => rw [writeAll, ih, State.setGroup_commands]

@[simp] theorem writeAll_completions (ws : List (Group × Nat)) (s : State) :
    (writeAll ws s).completions = s.completions := by
  induction ws generalizing s with
  | nil => rfl
  | cons w ws ih => rw [writeAll, ih, State.setGroup_completions]

/-- `C <- b`, or no write of `C`. -/
def writeC : Option Bool → State → State
  | some b, s => s.setC b
  | none, s => s

/-- `S <- b`, or no write of `S`. -/
def writeS : Option Bool → State → State
  | some b, s => s.setS b
  | none, s => s

/-- The state after a command that wrote groups and, where a value is given, `C` and `S`, and completed `OK`
(R221, R222). -/
def finish (ws : List (Group × Nat)) (c sticky : Option Bool) (data : Word) (s : State) : State :=
  (writeS sticky (writeC c (writeAll ws s))).complete .ok data

@[simp] theorem finish_flags (ws : List (Group × Nat)) (c sticky : Option Bool) (data : Word) (s : State) :
    (finish ws c sticky data s).flags = { c := c.getD s.flags.c, s := sticky.getD s.flags.s, err := 0 } := by
  cases c <;> cases sticky <;> simp [finish, writeC, writeS, Code.bits]

@[simp] theorem finish_commands (ws : List (Group × Nat)) (c sticky : Option Bool) (data : Word) (s : State) :
    (finish ws c sticky data s).commands = s.commands := by
  cases c <;> cases sticky <;> simp [finish, writeC, writeS]

@[simp] theorem finish_completions (ws : List (Group × Nat)) (c sticky : Option Bool) (data : Word) (s : State) :
    (finish ws c sticky data s).completions
      = s.completions ++ [{ data := data, flags := (finish ws c sticky data s).flags.byte }] := by
  cases c <;> cases sticky <;> simp [finish, writeC, writeS]

/-- Writing `S` its own value is not writing it. -/
theorem finish_keep_sticky (ws : List (Group × Nat)) (c : Option Bool) (data : Word) (s : State) :
    finish ws c (some s.flags.s) data s = finish ws c none data s := by
  have hkept : s.flags.s = (writeC c (writeAll ws s)).flags.s := by cases c <;> simp [writeC]
  rw [finish, writeS, hkept]
  rfl

/-- Whatever the state, the change leaves register `k` alone, or gives it one and the same value. -/
def KeepsOrSets (k : Nat) (change : State → State) : Prop :=
  (∀ s, (change s).limb k = s.limb k ∧ (change s).isWritten k = s.isWritten k) ∨
  ∃ x, ∀ s, (change s).limb k = x ∧ (change s).isWritten k = true

theorem KeepsOrSets.comp {k : Nat} {f g : State → State} (hg : KeepsOrSets k g) (hf : KeepsOrSets k f) :
    KeepsOrSets k (g ∘ f) := by
  obtain hkeep | ⟨x, hset⟩ := hg
  · obtain hkeep' | ⟨x, hset⟩ := hf
    · exact .inl fun s =>
        ⟨(hkeep (f s)).1.trans (hkeep' s).1, (hkeep (f s)).2.trans (hkeep' s).2⟩
    · exact .inr ⟨x, fun s => ⟨(hkeep (f s)).1.trans (hset s).1, (hkeep (f s)).2.trans (hset s).2⟩⟩
  · exact .inr ⟨x, fun s => hset (f s)⟩

theorem keepsOrSets_id (k : Nat) : KeepsOrSets k id := .inl fun _ => ⟨rfl, rfl⟩

theorem keepsOrSets_setLimb (k r : Nat) (v : Word) : KeepsOrSets k fun s => s.setLimb r v := by
  by_cases h : r = k ∧ r < 32
  · exact .inr ⟨v, fun s => ⟨by rw [State.limb_setLimb, if_pos h], by rw [State.isWritten_setLimb, if_pos h]⟩⟩
  · exact .inl fun s => ⟨by rw [State.limb_setLimb, if_neg h], by rw [State.isWritten_setLimb, if_neg h]⟩

theorem keepsOrSets_setGroup (k r n v : Nat) : KeepsOrSets k fun s => s.setGroup r n v := by
  induction n generalizing r v with
  | zero => exact keepsOrSets_id k
  | succ n ih => exact (ih (r + 1) (v / 2 ^ 32)).comp (keepsOrSets_setLimb k r (BitVec.ofNat 32 v))

theorem keepsOrSets_writeAll (k : Nat) (ws : List (Group × Nat)) : KeepsOrSets k (writeAll ws) := by
  induction ws with
  | nil => exact keepsOrSets_id k
  | cons w ws ih => exact ih.comp (keepsOrSets_setGroup k w.1.base w.1.size w.2)

theorem keepsOrSets_finish (k : Nat) (ws : List (Group × Nat)) (c sticky : Option Bool) (data : Word) :
    KeepsOrSets k (finish ws c sticky data) := by
  have hflags : KeepsOrSets k fun u => (writeS sticky (writeC c u)).complete .ok data :=
    .inl fun _ => by cases c <;> cases sticky <;> exact ⟨rfl, rfl⟩
  exact hflags.comp (keepsOrSets_writeAll k ws)

/-- Two states agree on what a command reads (R34, R62). -/
structure AgreeOnInputs (i : Instr) (s₁ s₂ : State) : Prop where
  limbs : ∀ k ∈ readsOf i s₁, s₁.limb k = s₂.limb k
  carry : readsC i = true → s₁.flags.c = s₂.flags.c
  sticky : readsS i = true → s₁.flags.s = s₂.flags.s

/-- A source group's registers are among those the command reads (R62). -/
theorem mem_readsOf_of_mem_srcs {i : Instr} {g : Group} {k : Nat} (hg : g ∈ i.srcs) (hk : k ∈ g.regs)
    (s : State) : k ∈ readsOf i s := by
  have hsrc : k ∈ i.srcs.flatMap Group.regs := List.mem_flatMap.2 ⟨g, hg, hk⟩
  cases i with
  | reduce | reduceAcc | reduceClr | rndhe | rndheS => exact List.mem_append_right _ hsrc
  | scaleres => cases hg
  | _ => exact hsrc

theorem AgreeOnInputs.group_eq {i : Instr} {s₁ s₂ : State} (h : AgreeOnInputs i s₁ s₂) (r n : Nat)
    (hg : ⟨r, n⟩ ∈ i.srcs) : s₁.group r n = s₂.group r n :=
  State.group_congr fun k hr hn =>
    h.limbs k (mem_readsOf_of_mem_srcs hg (List.mem_range'_1.2 ⟨hr, hn⟩) s₁)

theorem AgreeOnInputs.limb_eq {i : Instr} {s₁ s₂ : State} (h : AgreeOnInputs i s₁ s₂) (r : Nat)
    (hg : ⟨r, 1⟩ ∈ i.srcs) : s₁.limb r = s₂.limb r :=
  h.limbs r (mem_readsOf_of_mem_srcs hg (List.mem_range'_1.2 ⟨le_rfl, Nat.lt_succ_self r⟩) s₁)

theorem AgreeOnInputs.decimal_eq {i : Instr} {s₁ s₂ : State} (h : AgreeOnInputs i s₁ s₂) (r : Nat)
    (hg : ⟨r, 4⟩ ∈ i.srcs) : s₁.decimal r = s₂.decimal r :=
  State.decimal_congr fun k hr hn =>
    h.limbs k (mem_readsOf_of_mem_srcs hg (List.mem_range'_1.2 ⟨hr, hn⟩) s₁)

/-- Where the `hi` register is in range, the window's limbs up to it are read (R126). -/
theorem window_group_eq {rd ra : Nat} {s₁ s₂ : State}
    (h : ∀ k ∈ windowReads rd ra s₁, s₁.limb k = s₂.limb k) (hhi : (s₁.limb ra).toNat ≤ 5) :
    s₁.group rd ((s₁.limb ra).toNat + 1) = s₂.group rd ((s₁.limb ra).toNat + 1) :=
  State.group_congr fun k hr hn => h k (by
    rw [windowReads, if_neg (Nat.not_lt.2 hhi)]
    exact List.mem_range'_1.2 ⟨hr, hn⟩)

/-- The two outcomes of command `i`, from `s₁` and from `s₂`, are of one kind and came about by the same fault,
error, or writes; only the flags `i` is listed for are written (R30, R31, R34). -/
inductive EndsAlike (i : Instr) (s₁ s₂ : State) : Outcome → Outcome → Prop where
  | fault (f : Fault) : EndsAlike i s₁ s₂ (.fault f) (.fault f)
  | error (code : Code) : EndsAlike i s₁ s₂ (.next (s₁.completeError code)) (.next (s₂.completeError code))
  | ok (ws : List (Group × Nat)) (c sticky : Option Bool) (data : Word)
      (hc : writesC i = false → c = none) (hs : writesS i = false → sticky = none) :
      EndsAlike i s₁ s₂ (.next (finish ws c sticky data s₁)) (.next (finish ws c sticky data s₂))

theorem EndsAlike.ofWhenLegal {i : Instr} {s₁ s₂ : State} {o₁ o₂ : Outcome}
    (h : i.wellFormed = true → EndsAlike i s₁ s₂ o₁ o₂) :
    EndsAlike i s₁ s₂ (whenLegal i s₁ o₁) (whenLegal i s₂ o₂) := by
  cases hi : i.wellFormed with
  | false =>
    rw [whenLegal_of_illegal hi, whenLegal_of_illegal hi]
    exact .error .illegalCommand
  | true =>
    rw [whenLegal_of_legal hi, whenLegal_of_legal hi]
    exact h hi

/-- The values of the two source groups of most commands (R62). -/
theorem AgreeOnInputs.two_groups_eq {i : Instr} {s₁ s₂ : State} (h : AgreeOnInputs i s₁ s₂) {ra na rb nb : Nat}
    (hsrcs : i.srcs = [⟨ra, na⟩, ⟨rb, nb⟩]) :
    s₁.group ra na = s₂.group ra na ∧ s₁.group rb nb = s₂.group rb nb :=
  ⟨h.group_eq ra na (by simp [hsrcs]), h.group_eq rb nb (by simp [hsrcs])⟩

section
variable {i : Instr} {s₁ s₂ : State}

theorem EndsAlike.okNoFlag (ws : List (Group × Nat)) (data : Word) :
    EndsAlike i s₁ s₂ (.next (finish ws none none data s₁)) (.next (finish ws none none data s₂)) :=
  .ok ws none none data (fun _ => rfl) fun _ => rfl

theorem EndsAlike.okCarry (hi : writesC i = true) (ws : List (Group × Nat)) (c : Bool) :
    EndsAlike i s₁ s₂ (.next (finish ws (some c) none 0 s₁)) (.next (finish ws (some c) none 0 s₂)) :=
  .ok ws (some c) none 0 (by simp [hi]) fun _ => rfl

theorem addGroups_endsAlike (hi : writesC i = true) {n rd ra rb cin₁ cin₂ : Nat}
    (h : AgreeOnInputs i s₁ s₂) (hsrcs : i.srcs = [⟨ra, n⟩, ⟨rb, n⟩]) (hcin : cin₁ = cin₂) :
    EndsAlike i s₁ s₂ (.next (addGroups n rd ra rb cin₁ s₁)) (.next (addGroups n rd ra rb cin₂ s₂)) := by
  obtain ⟨ha, hb⟩ := h.two_groups_eq hsrcs
  simp only [addGroups, ha, hb, hcin]
  exact .okCarry hi [(⟨rd, n⟩, _)] _

theorem subGroups_endsAlike (hi : writesC i = true) {n rd ra rb bin₁ bin₂ : Nat}
    (h : AgreeOnInputs i s₁ s₂) (hsrcs : i.srcs = [⟨ra, n⟩, ⟨rb, n⟩]) (hbin : bin₁ = bin₂) :
    EndsAlike i s₁ s₂ (.next (subGroups n rd ra rb bin₁ s₁)) (.next (subGroups n rd ra rb bin₂ s₂)) := by
  obtain ⟨ha, hb⟩ := h.two_groups_eq hsrcs
  simp only [subGroups, ha, hb, hbin]
  exact .okCarry hi [(⟨rd, n⟩, _)] _

theorem mulGroups_endsAlike {na nb rd ra rb : Nat}
    (h : AgreeOnInputs i s₁ s₂) (hsrcs : i.srcs = [⟨ra, na⟩, ⟨rb, nb⟩]) :
    EndsAlike i s₁ s₂ (.next (mulGroups na nb rd ra rb s₁)) (.next (mulGroups na nb rd ra rb s₂)) := by
  obtain ⟨ha, hb⟩ := h.two_groups_eq hsrcs
  simp only [mulGroups, ha, hb]
  exact .okNoFlag [(⟨rd, na + nb⟩, _)] 0

theorem divGroups_endsAlike {a b q : Nat} {norm top : Bool} {rd rc ra rb : Nat}
    (h : AgreeOnInputs i s₁ s₂) (hsrcs : i.srcs = [⟨ra, a⟩, ⟨rb, b⟩]) :
    EndsAlike i s₁ s₂ (divGroups a b q norm top rd rc ra rb s₁) (divGroups a b q norm top rd rc ra rb s₂) := by
  obtain ⟨ha, hb⟩ := h.two_groups_eq hsrcs
  simp only [divGroups, ha, hb]
  split
  · exact .okNoFlag [(⟨rd, q⟩, _), (⟨rc, b⟩, _)] 0
  · exact .fault .divPrecondition

theorem msbGroup_endsAlike {n rd ra : Nat} (ha : s₁.group ra n = s₂.group ra n) :
    EndsAlike i s₁ s₂ (msbGroup n rd ra s₁) (msbGroup n rd ra s₂) := by
  simp only [msbGroup, ha]
  split
  · exact .fault .msbOfZero
  · exact .okNoFlag [(⟨rd, 1⟩, _)] 0

theorem lzcGroup_endsAlike {n rd ra : Nat} (ha : s₁.group ra n = s₂.group ra n) :
    EndsAlike i s₁ s₂ (.next (lzcGroup n rd ra s₁)) (.next (lzcGroup n rd ra s₂)) := by
  simp only [lzcGroup, ha]
  exact .okNoFlag [(⟨rd, 1⟩, _)] 0

/-- What a reduction step of magnitude `m` in `n` limbs by `d` writes: quotient, its `hi`, divisor, remainder
(R126, R127). -/
def reduceWrites (rd ra rc n m d : Nat) : List (Group × Nat) :=
  [(⟨rd, n⟩, m / d), (⟨ra, 1⟩, hiLimb (m / d)), (⟨rc, 1⟩, d), (⟨rc + 1, 1⟩, m % d)]

/-- A reduction step whose sticky bit is the one given, or the state's own kept (R127 to R129). -/
theorem reduceStep_eq_finish (sticky : Option Bool) (rd ra rb rc : Nat) (s : State) :
    reduceStep (sticky.getD s.flags.s) rd ra rb rc s =
      if Config.hiMax < (s.limb ra).toNat then .fault .badHi
      else .next (finish (reduceWrites rd ra rc ((s.limb ra).toNat + 1)
        (s.group rd ((s.limb ra).toNat + 1)) (10 ^ min (s.limb rb).toNat Config.reduceMaxPow)) none sticky 0 s) := by
  cases sticky with
  | some b => rfl
  | none => rw [← finish_keep_sticky]; rfl

theorem reduceStep_endsAlike (sticky : Option Bool) (hi : writesS i = true ∨ sticky = none) {rd ra rb rc : Nat}
    (ha : s₁.limb ra = s₂.limb ra) (hb : s₁.limb rb = s₂.limb rb)
    (hw : ∀ k ∈ windowReads rd ra s₁, s₁.limb k = s₂.limb k) :
    EndsAlike i s₁ s₂ (reduceStep (sticky.getD s₁.flags.s) rd ra rb rc s₁)
      (reduceStep (sticky.getD s₂.flags.s) rd ra rb rc s₂) := by
  rw [reduceStep_eq_finish, reduceStep_eq_finish, ← ha, ← hb]
  split
  case isTrue => exact .fault .badHi
  case isFalse hhi =>
    rw [window_group_eq hw (Nat.le_of_not_lt hhi)]
    exact .ok _ none sticky 0 (fun _ => rfl) fun hS => hi.resolve_left (by simp [hS])

theorem roundGroups_endsAlike (hi : writesC i = true) {n rd ra rb : Nat} {sticky₁ sticky₂ : Bool}
    (h : AgreeOnInputs i s₁ s₂) (hsrcs : i.srcs = [⟨ra, n⟩, ⟨rb, n⟩])
    (hd : s₁.group rd n = s₂.group rd n) (hs : sticky₁ = sticky₂) :
    EndsAlike i s₁ s₂ (roundGroups n rd ra rb sticky₁ s₁) (roundGroups n rd ra rb sticky₂ s₂) := by
  obtain ⟨ha, hb⟩ := h.two_groups_eq hsrcs
  simp only [roundGroups, hd, ha, hb, hs]
  split
  · exact .fault .roundPrecondition
  · exact .okCarry hi [(⟨rd, n⟩, _)] _

theorem scaleWindow_endsAlike {rd ra rb : Nat} (ha : s₁.limb ra = s₂.limb ra) (hb : s₁.limb rb = s₂.limb rb)
    (hw : ∀ k ∈ windowReads rd ra s₁, s₁.limb k = s₂.limb k) :
    EndsAlike i s₁ s₂ (scaleWindow rd ra rb s₁) (scaleWindow rd ra rb s₂) := by
  by_cases hhi : Config.hiMax < (s₁.limb ra).toNat
  · rw [scaleWindow, if_pos hhi, scaleWindow, if_pos (ha ▸ hhi)]
    exact .fault .badHi
  · have hm := window_group_eq hw (Nat.le_of_not_lt hhi)
    rw [scaleWindow, if_neg hhi, scaleWindow, if_neg (ha ▸ hhi), ← ha, ← hb, hm]
    cases scaleResult (s₂.group rd ((s₁.limb ra).toNat + 1)) (s₁.limb rb).toNat with
    | error code => exact .error code
    | ok p => exact .okNoFlag [(⟨rd, _⟩, p.1), (⟨ra, 1⟩, hiLimb p.1), (⟨rb, 1⟩, p.2)] 0

theorem setDecimal_endsAlike (rd : Nat) (d : Decimal) :
    EndsAlike i s₁ s₂ (.next (s₁.setDecimal rd d).completeOk) (.next (s₂.setDecimal rd d).completeOk) := by
  simp only [State.setDecimal, setLimb_eq_setGroup]
  exact .okNoFlag [(⟨rd, 3⟩, d.mant), (⟨rd + 3, 1⟩, (ctlWord d.sign d.scale).toNat)] 0

theorem decimalCommand_endsAlike {f : Decimal → Decimal → Except Code Decimal} {rd ra rb : Nat}
    (h : AgreeOnInputs i s₁ s₂) (hsrcs : i.srcs = [⟨ra, 4⟩, ⟨rb, 4⟩]) :
    EndsAlike i s₁ s₂ (decimalCommand f rd ra rb s₁) (decimalCommand f rd ra rb s₂) := by
  have ha := h.decimal_eq ra (by simp [hsrcs])
  have hb := h.decimal_eq rb (by simp [hsrcs])
  simp only [decimalCommand, ha, hb]
  split
  · exact .fault .badScale
  · cases f (s₂.decimal ra) (s₂.decimal rb) with
    | ok d => exact setDecimal_endsAlike rd d
    | error code => exact .error code

end

/-- Two runs of a command that agree on its inputs end alike (R34): the one case split over the commands. -/
theorem exec_endsAlike {i : Instr} {s₁ s₂ : State} (h : AgreeOnInputs i s₁ s₂) :
    EndsAlike i s₁ s₂ (exec i s₁) (exec i s₂) := by
  cases i with
  | add => exact .ofWhenLegal fun _ => addGroups_endsAlike rfl h rfl rfl
  | adc => exact .ofWhenLegal fun _ => addGroups_endsAlike rfl h rfl (congrArg Bool.toNat (h.carry rfl))
  | sub => exact .ofWhenLegal fun _ => subGroups_endsAlike rfl h rfl rfl
  | sbb => exact .ofWhenLegal fun _ => subGroups_endsAlike rfl h rfl (congrArg Bool.toNat (h.carry rfl))
  | neg n rd ra =>
    refine .ofWhenLegal fun _ => ?_
    rw [h.group_eq ra (limbs n) (by simp [Instr.srcs])]
    exact .okCarry rfl [(⟨rd, limbs n⟩, _)] _
  | mul32 | mul64x32 | mul64 => exact .ofWhenLegal fun _ => mulGroups_endsAlike h rfl
  | div64by32 | div128by64 | div96by32 | div128by96 | div160by96 | div96by64 =>
    exact .ofWhenLegal fun _ => divGroups_endsAlike h rfl
  | msb32 | msb64 => exact .ofWhenLegal fun _ => msbGroup_endsAlike (h.group_eq _ _ (by simp [Instr.srcs]))
  | lzc32 | lzc64 => exact .ofWhenLegal fun _ => lzcGroup_endsAlike (h.group_eq _ _ (by simp [Instr.srcs]))
  | shl128 rd ra rb =>
    refine .ofWhenLegal fun _ => ?_
    rw [h.group_eq ra 4 (by simp [Instr.srcs]), h.limb_eq rb (by simp [Instr.srcs])]
    exact .okNoFlag [(⟨rd, 4⟩, _)] 0
  | reduce rd ra rb rc =>
    exact .ofWhenLegal fun _ => reduceStep_endsAlike none (.inr rfl) (h.limbs ra (by simp [readsOf]))
      (h.limb_eq rb (by simp [Instr.srcs])) fun k hk => h.limbs k (by simp [readsOf, hk])
  | reduceAcc rd ra rb rc =>
    refine .ofWhenLegal fun _ => ?_
    rw [h.sticky rfl, h.limbs (rc + 1) (by simp [readsOf])]
    exact reduceStep_endsAlike (some _) (.inl rfl) (h.limbs ra (by simp [readsOf]))
      (h.limb_eq rb (by simp [Instr.srcs])) fun k hk => h.limbs k (by simp [readsOf, hk])
  | reduceClr rd ra rb rc =>
    exact .ofWhenLegal fun _ => reduceStep_endsAlike (some false) (.inl rfl) (h.limbs ra (by simp [readsOf]))
      (h.limb_eq rb (by simp [Instr.srcs])) fun k hk => h.limbs k (by simp [readsOf, hk])
  | scaleres rd ra rb =>
    exact .ofWhenLegal fun _ => scaleWindow_endsAlike (h.limbs ra (by simp [readsOf]))
      (h.limbs rb (by simp [readsOf])) fun k hk => h.limbs k (by simp [readsOf, hk])
  | rndhe =>
    exact .ofWhenLegal fun _ => roundGroups_endsAlike rfl h rfl (State.group_congr fun k hr hn =>
      h.limbs k (List.mem_append_left _ (List.mem_range'_1.2 ⟨hr, hn⟩))) rfl
  | rndheS =>
    exact .ofWhenLegal fun _ => roundGroups_endsAlike rfl h rfl (State.group_congr fun k hr hn =>
      h.limbs k (List.mem_append_left _ (List.mem_range'_1.2 ⟨hr, hn⟩))) (h.sticky rfl)
  | dmul | dadd | dsub | ddiv => exact .ofWhenLegal fun _ => decimalCommand_endsAlike h rfl
  | dparse rd ra sgn digits =>
    refine .ofWhenLegal fun _ => ?_
    rw [h.limb_eq ra (by simp [Instr.srcs])]
    exact setDecimal_endsAlike rd _
  | li rd imm =>
    refine .ofWhenLegal fun _ => ?_
    simp only [setLimb_eq_setGroup]
    exact .okNoFlag [(⟨rd, 1⟩, imm.toNat)] 0
  | rdReg ra =>
    refine .ofWhenLegal fun _ => ?_
    rw [h.limb_eq ra (by simp [Instr.srcs])]
    exact .okNoFlag [] _

end Sys2Proof.Proofs
end

section
/-! What follows from that for every command and every step: non-interference, the flags, the literal rule R37, and
the invariant (R30, R31, R34, R37, R221, R222). -/

namespace Sys2Proof.Proofs

open Sys2Proof.Machine Sys2Proof.Safety

/-- Settles O20: a register is written with the same value in both runs or in neither, and so is each flag. -/
theorem resultDependsOnNamedInputsOnly : Obligations.ResultDependsOnNamedInputsOnly := by
  intro i s₁ s₂ hlimbs hc hs
  have halike := exec_endsAlike (i := i) ⟨hlimbs, hc, hs⟩
  generalize exec i s₁ = o₁ at *
  generalize exec i s₂ = o₂ at *
  cases halike with
  | fault f => exact ⟨fun _ h => h, nofun⟩
  | error code =>
    refine ⟨nofun, fun t₁ ht₁ => ⟨_, rfl, ?_⟩⟩
    cases ht₁
    exact ⟨rfl, fun k => .inr ⟨rfl, rfl⟩, .inr ⟨rfl, rfl⟩, .inr ⟨rfl, rfl⟩, _, _, rfl, rfl, rfl⟩
  | ok ws c sticky data =>
    refine ⟨nofun, fun t₁ ht₁ => ⟨_, rfl, ?_⟩⟩
    cases ht₁
    refine ⟨by simp, fun k => ?limbs, ?carry, ?sticky, _, _, finish_completions .., finish_completions .., rfl⟩
    case limbs =>
      obtain hkeep | ⟨x, hset⟩ := keepsOrSets_finish k ws c sticky data
      · exact .inr ⟨(hkeep s₁).1, (hkeep s₂).1⟩
      · exact .inl ((hset s₁).1.trans (hset s₂).1.symm)
    case carry => cases c <;> simp
    case sticky => cases sticky <;> simp

/-- Everything one run of a command can do: the two runs of `exec_endsAlike` are the same run. -/
theorem exec_endsAlike_self (i : Instr) (s : State) : EndsAlike i s s (exec i s) (exec i s) :=
  exec_endsAlike ⟨fun _ _ => rfl, fun _ => rfl, fun _ => rfl⟩

/-- A command with a next state completed with an error, or wrote groups and the flags it is listed for (R31). -/
theorem exec_next_cases {i : Instr} {s t : State} (h : exec i s = .next t) :
    (∃ code, t = s.completeError code) ∨
    ∃ ws c sticky data, t = finish ws c sticky data s ∧ (writesC i = false → c = none) ∧
      (writesS i = false → sticky = none) := by
  have halike := exec_endsAlike_self i s
  rw [h] at halike
  cases halike with
  | error code => exact .inl ⟨code, rfl⟩
  | ok ws c sticky data hc hs => exact .inr ⟨ws, c, sticky, data, rfl, hc, hs⟩

/-- Settles O18: an error writes no flag, and an `OK` only those the command is listed for. -/
theorem flagsWrittenOnlyByListedCommands : Obligations.FlagsWrittenOnlyByListedCommands := by
  intro i s t h
  obtain ⟨code, rfl⟩ | ⟨ws, c, sticky, data, rfl, hc, hs⟩ := exec_next_cases h
  · exact ⟨fun _ => rfl, fun _ => rfl, fun _ => ⟨rfl, rfl⟩⟩
  · refine ⟨fun hw => by simp [hc hw], fun hw => by simp [hs hw], fun herr => absurd ?_ herr⟩
    simp

/-! The literal rule R37. -/

theorem sameWritten_symm {s t : State} (h : sameWritten s t) : sameWritten t s := by
  obtain ⟨hmarks, hflags, hcmds, hrecs, hlimbs⟩ := h
  refine ⟨hmarks.symm, hflags.symm, hcmds.symm, hrecs.symm, fun k hk => (hlimbs k ?_).symm⟩
  rwa [State.isWritten_eq, hmarks, ← State.isWritten_eq]

/-- Two states with the same marks have the same vector of marks. -/
theorem written_ext {s t : State} (h : ∀ k, s.isWritten k = t.isWritten k) : s.written = t.written := by
  refine Vector.ext fun k hk => ?_
  have := h k
  simpa only [State.isWritten_eq, Vector.getElem?_eq_getElem hk, Option.getD_some] using this

theorem sameWritten_completeError {s t : State} (h : sameWritten s t) (code : Code) :
    sameWritten (s.completeError code) (t.completeError code) := by
  obtain ⟨hmarks, hflags, hcmds, hrecs, hlimbs⟩ := h
  refine ⟨hmarks, ?_, hcmds, ?_, hlimbs⟩
  · simp [State.completeError_eq, hflags]
  · simp [State.completeError_eq, hflags, hrecs]

theorem sameWritten_finish {s t : State} (h : sameWritten s t) (ws : List (Group × Nat)) (c sticky : Option Bool)
    (data : Word) : sameWritten (finish ws c sticky data s) (finish ws c sticky data t) := by
  obtain ⟨hmarks, hflags, hcmds, hrecs, hlimbs⟩ := h
  have hmark (k : Nat) : s.isWritten k = t.isWritten k := by
    rw [State.isWritten_eq, hmarks, ← State.isWritten_eq]
  refine ⟨written_ext fun k => ?_, by simp [hflags], by simp [hcmds], by simp [hflags, hrecs], fun k hk => ?_⟩ <;>
    obtain hkeep | ⟨x, hset⟩ := keepsOrSets_finish k ws c sticky data
  · rw [(hkeep s).2, (hkeep t).2, hmark]
  · rw [(hset s).2, (hset t).2]
  · rw [(hkeep s).1, (hkeep t).1]
    exact hlimbs k ((hkeep s).2 ▸ hk)
  · rw [(hset s).1, (hset t).1]

/-- Which registers a command reads depends on registers it reads alone (R126). -/
theorem readsOf_eq_of_agree {i : Instr} {s t : State} (h : ∀ k ∈ readsOf i s, s.limb k = t.limb k) :
    readsOf i t = readsOf i s := by
  cases i with
  | reduce rd ra | reduceAcc rd ra | reduceClr rd ra | scaleres rd ra =>
    have hhi : s.limb ra = t.limb ra := h ra (by simp [readsOf])
    simp only [readsOf, windowReads, hhi]
  | _ => rfl

/-- Where all registers read have been written, the states agree on them (R37). -/
theorem agree_of_readsWritten {i : Instr} {s t : State} (h : sameWritten s t) (hr : readsWritten i s = true) :
    ∀ k ∈ readsOf i s, s.limb k = t.limb k := by
  obtain ⟨-, -, -, -, hlimbs⟩ := h
  exact fun k hk => hlimbs k (List.all_eq_true.1 hr k hk)

theorem readsWritten_of_sameWritten {i : Instr} {s t : State} (h : sameWritten s t)
    (hr : readsWritten i s = true) : readsWritten i t = true := by
  have hsame := readsOf_eq_of_agree (agree_of_readsWritten h hr)
  obtain ⟨hmarks, -⟩ := h
  rw [readsWritten, hsame, List.all_eq_true] at *
  intro k hk
  rw [State.isWritten_eq, ← hmarks, ← State.isWritten_eq]
  exact hr k hk

theorem readsWritten_congr {s t : State} (h : sameWritten s t) (i : Instr) :
    readsWritten i s = readsWritten i t :=
  Bool.eq_iff_iff.2 ⟨readsWritten_of_sameWritten h, readsWritten_of_sameWritten (sameWritten_symm h)⟩

/-- An illegal command completes `IllegalCommand`, whatever it names (R224). -/
theorem exec_of_illegal {i : Instr} (h : i.wellFormed = false) (s : State) :
    exec i s = .next (s.completeError .illegalCommand) := by
  cases i <;> exact whenLegal_of_illegal h s _

/-- The literal rule faults a legal command that reads an unwritten register, and changes nothing else (R37, R231). -/
theorem execStrict_cases (i : Instr) (s : State) :
    (i.wellFormed = true ∧ readsWritten i s = false ∧ execStrict i s = .fault .unwrittenRegister) ∨
    ((i.wellFormed = false ∨ readsWritten i s = true) ∧ execStrict i s = exec i s) := by
  unfold execStrict
  cases hi : i.wellFormed <;> cases hr : readsWritten i s <;> simp

/-- Two outcomes of one kind: the same fault, or next states that differ in unwritten registers alone. -/
inductive SameOutcome : Outcome → Outcome → Prop where
  | next {t₁ t₂ : State} (h : sameWritten t₁ t₂) : SameOutcome (.next t₁) (.next t₂)
  | fault (f : Fault) : SameOutcome (.fault f) (.fault f)

theorem EndsAlike.sameOutcome {i : Instr} {s₁ s₂ : State} {o₁ o₂ : Outcome} (h : EndsAlike i s₁ s₂ o₁ o₂)
    (hs : sameWritten s₁ s₂) : SameOutcome o₁ o₂ := by
  cases h with
  | fault f => exact .fault f
  | error code => exact .next (sameWritten_completeError hs code)
  | ok ws c sticky data => exact .next (sameWritten_finish hs ws c sticky data)

theorem execStrict_sameOutcome {s₁ s₂ : State} (h : sameWritten s₁ s₂) (i : Instr) :
    SameOutcome (execStrict i s₁) (execStrict i s₂) := by
  have hreads := readsWritten_congr h i
  obtain ⟨hi, hr, hfault⟩ | ⟨hlegal, hexec⟩ := execStrict_cases i s₁
  · rw [hfault, execStrict, hi, ← hreads, hr]
    exact .fault .unwrittenRegister
  · rw [hexec]
    obtain ⟨hi, hr, -⟩ | ⟨-, hexec'⟩ := execStrict_cases i s₂
    · simp [hi, hreads, hr] at hlegal
    rw [hexec']
    obtain hi | hr := hlegal
    · rw [exec_of_illegal hi, exec_of_illegal hi]
      exact .next (sameWritten_completeError h _)
    · have ⟨_, hflags, _⟩ := h
      refine (exec_endsAlike ⟨agree_of_readsWritten h hr, fun _ => ?_, fun _ => ?_⟩).sameOutcome h <;>
        rw [hflags]

theorem sameWritten_withCommands {s t : State} (h : sameWritten s t) (ws : List Word) :
    sameWritten { s with commands := ws } { t with commands := ws } := by
  obtain ⟨hmarks, hflags, -, hrecs, hlimbs⟩ := h
  exact ⟨hmarks, hflags, rfl, hrecs, hlimbs⟩

theorem stepStrict_sameOutcome {s₁ s₂ : State} (h : sameWritten s₁ s₂) :
    SameOutcome (stepStrict s₁) (stepStrict s₂) := by
  have ⟨_, _, hcmds, _⟩ := h
  unfold stepStrict
  rw [hcmds]
  cases decode s₂.commands with
  | incomplete => exact .next h
  | illegal why rest => exact .next (sameWritten_completeError (sameWritten_withCommands h rest) _)
  | command i rest => exact execStrict_sameOutcome (sameWritten_withCommands h rest) i

/-- Settles O21: where the literal rule lets a command run, the states agree on what it reads. -/
theorem strictStepIgnoresUnwrittenValues : Obligations.StrictStepIgnoresUnwrittenValues := by
  intro s₁ s₂ h
  have hsame := stepStrict_sameOutcome h
  generalize stepStrict s₁ = o₁ at *
  generalize stepStrict s₂ = o₂ at *
  cases hsame with
  | next ht => exact ht
  | fault f => exact rfl

/-- Settles O22, from the two cases of the literal rule. -/
theorem unwrittenReadIsJudgedAfterLegality : Obligations.UnwrittenReadIsJudgedAfterLegality := by
  intro i s
  refine ⟨fun hi hread => ?unwritten, fun hi => ?illegal, fun hall => ?written⟩
  case unwritten =>
    obtain ⟨-, -, hfault⟩ | ⟨hlegal, -⟩ := execStrict_cases i s
    · exact hfault
    · obtain ⟨k, hk, hunwritten⟩ := hread
      obtain hi' | hr := hlegal
      · simp [hi] at hi'
      · simp [List.all_eq_true.1 hr k hk] at hunwritten
  case illegal =>
    obtain ⟨hi', -⟩ | ⟨-, hexec⟩ := execStrict_cases i s
    · simp [hi] at hi'
    · exact ⟨_, hexec.trans (exec_of_illegal hi s), endsWithError_completeError s .illegalCommand⟩
  case written =>
    obtain ⟨-, hr, -⟩ | ⟨-, hexec⟩ := execStrict_cases i s
    · simp [readsWritten, List.all_eq_true.2 hall] at hr
    · exact hexec

/-! The invariant of the state. -/

/-- Settles O24: no record has been returned yet. -/
theorem invariantHoldsAtReset : Obligations.InvariantHoldsAtReset :=
  ⟨Nat.zero_le 3, nofun, nofun⟩

theorem code_bits_le (code : Code) : code.bits.toNat ≤ 3 := by
  cases code <;> decide

/-- The value of `FLAGS` as a byte (R30). -/
theorem byte_toNat (c sticky : Bool) (code : Code) :
    ({ c := c, s := sticky, err := code.bits } : Flags).byte.toNat
      = 4 * code.bits.toNat + 2 * sticky.toNat + c.toNat := by
  cases code <;> cases c <;> cases sticky <;> rfl

/-- The record of a completion is one the spec can produce: an error has no data (R221, R222). -/
theorem recordOk_of_code (c sticky : Bool) (code : Code) (data : Word) (h : code ≠ .ok → data = 0) :
    recordOk { data := data, flags := ({ c := c, s := sticky, err := code.bits } : Flags).byte } := by
  have := code_bits_le code
  have := Bool.toNat_le c
  have := Bool.toNat_le sticky
  refine ⟨?below, fun hbig => h ?data⟩ <;> simp only [byte_toNat] at *
  case below => omega
  case data =>
    rintro rfl
    have : Code.ok.bits.toNat = 0 := rfl
    omega

/-- One more record, with the current `FLAGS`, keeps the invariant (R30, R221, R222). -/
theorem inv_of_completed {s t : State} (hs : Inv s) (code : Code) (data : Word)
    (herr : t.flags.err = code.bits) (hdata : code ≠ .ok → data = 0)
    (hrecs : t.completions = s.completions ++ [{ data := data, flags := t.flags.byte }]) : Inv t := by
  obtain ⟨-, hold, -⟩ := hs
  refine ⟨herr ▸ code_bits_le code, fun r hr => ?_, fun r hr => ?_⟩
  · rw [hrecs, List.mem_append, List.mem_singleton] at hr
    obtain hr | rfl := hr
    · exact hold r hr
    · have hflags : t.flags = { c := t.flags.c, s := t.flags.s, err := code.bits } := by rw [← herr]
      rw [hflags]
      exact recordOk_of_code _ _ code data hdata
  · rw [hrecs, List.getLast?_append] at hr
    obtain rfl := Option.some.inj hr
    rfl

theorem inv_completeError {s : State} (hs : Inv s) (code : Code) : Inv (s.completeError code) :=
  inv_of_completed hs code 0 rfl (fun _ => rfl) rfl

theorem exec_keeps_inv {i : Instr} {s t : State} (hs : Inv s) (h : exec i s = .next t) : Inv t := by
  obtain ⟨code, rfl⟩ | ⟨ws, c, sticky, data, rfl, -, -⟩ := exec_next_cases h
  · exact inv_completeError hs code
  · exact inv_of_completed hs .ok data (by simp [Code.bits]) (fun hne => absurd rfl hne) (finish_completions ..)

/-- Settles O25: each way a step can end adds one record with the current `FLAGS`, or does nothing. -/
theorem stepKeepsTheInvariant : Obligations.StepKeepsTheInvariant := by
  intro s t hs h
  unfold step at h
  have hshort (rest : List Word) : Inv { s with commands := rest } := hs
  cases hd : decode s.commands with
  | incomplete =>
    simp only [hd] at h
    cases h
    exact hs
  | illegal why rest =>
    simp only [hd] at h
    cases h
    exact inv_completeError (hshort rest) .illegalCommand
  | command i rest =>
    simp only [hd] at h
    exact exec_keeps_inv (hshort rest) h

end Sys2Proof.Proofs
end

section
/-! Decimal groups and the Decimal commands: how a legal one with operands in range ends, whatever function it
computes (R25 to R27), and the preconditions of R226. -/

namespace Sys2Proof.Proofs

open Sys2Proof.Machine Sys2Proof.Safety

/-- The value of a `ctl` word (R27). -/
theorem toNat_ctlWord (sign : Bool) {scale : Nat} (h : scale ≤ 28) :
    (ctlWord sign scale).toNat = sign.toNat * 2 ^ 31 + scale * 2 ^ 16 := by
  have := Bool.toNat_le sign
  rw [ctlWord, BitVec.toNat_ofNat, Nat.mod_eq_of_lt]
  omega

/-- The unused bits of a `ctl` word are 0 (R27). -/
theorem ctlWord_unused (sign : Bool) {scale : Nat} (h : scale ≤ 28) :
    (ctlWord sign scale).extractLsb' 24 7 = 0 ∧ (ctlWord sign scale).extractLsb' 0 16 = 0 := by
  have hval := toNat_ctlWord sign h
  constructor <;> apply BitVec.eq_of_toNat_eq <;>
    rw [BitVec.extractLsb'_toNat, hval, Nat.shiftRight_eq_div_pow, BitVec.ofNat_eq_ofNat, BitVec.toNat_ofNat] <;>
    cases sign <;> simp only [Bool.toNat_false, Bool.toNat_true] <;> omega

theorem limb_ctl_setDecimal (s : State) {r : Nat} (d : Decimal) (hr : r + 4 ≤ 32) :
    (s.setDecimal r d).limb (r + 3) = ctlWord d.sign d.scale := by
  rw [State.setDecimal, State.limb_setLimb_same _ _ _ (by omega)]

theorem group_mant_setDecimal (s : State) {r : Nat} {d : Decimal} (hr : r + 4 ≤ 32) (hm : d.mant < 2 ^ 96) :
    (s.setDecimal r d).group r 3 = d.mant := by
  rw [State.setDecimal, State.group_setLimb_of_outside _ _ _ _ _ (by omega),
    State.group_setGroup _ _ _ _ (by omega) hm]

/-- A valid Decimal reads back as it was written (R26, R27). -/
theorem decimal_setDecimal (s : State) {r : Nat} {d : Decimal} (hr : r + 4 ≤ 32) (hd : validDecimal d) :
    (s.setDecimal r d).decimal r = d := by
  obtain ⟨hscale, hmant⟩ := hd
  have hs : d.scale < 256 := hscale.trans_lt (by decide)
  rw [State.decimal, limb_ctl_setDecimal s d hr, group_mant_setDecimal s hr hmant, ctlSign_ctlWord _ _ hs,
    ctlScale_ctlWord _ _ hs]

/-- Settles O12, from what the `ctl` word holds and the mantissa group reads back. -/
theorem decimalGroupWrite : Obligations.DecimalGroupWrite := by
  intro s r d hr hs hm
  have hctl := limb_ctl_setDecimal s d hr
  refine ⟨group_mant_setDecimal s hr hm, ?_, ?_, ?_, decimal_setDecimal s hr ⟨hs, hm⟩⟩ <;> rw [hctl]
  · exact toNat_ctlWord d.sign hs
  · exact (ctlWord_unused d.sign hs).1
  · exact (ctlWord_unused d.sign hs).2

theorem holdsDecimal_setDecimal (s : State) {r : Nat} {d : Decimal} (hr : r + 4 ≤ 32) (hd : validDecimal d) :
    holdsDecimal r d (s.setDecimal r d).completeOk := by
  rw [State.completeOk_eq, holdsDecimal, State.complete_decimal, State.complete_limb, limb_ctl_setDecimal s d hr]
  exact ⟨decimal_setDecimal s hr hd, toNat_ctlWord d.sign hd.1⟩

/-- Any mantissa read from a group is below `2^96` (R25, R26). -/
theorem mant_decimal_lt (s : State) (r : Nat) : (s.decimal r).mant < 2 ^ 96 := State.group_lt s r 3

section
variable {f : Decimal → Decimal → Except Code Decimal} {rd ra rb : Nat} {s : State}

/-- A Decimal command with operands in range writes the valid Decimal its function gives (R26, R27). -/
theorem decimalCommand_of_ok {d : Decimal} (hrd : rd + 4 ≤ 32) (ha : (s.decimal ra).scale ≤ 28)
    (hb : (s.decimal rb).scale ≤ 28) (hf : f (s.decimal ra) (s.decimal rb) = .ok d) (hd : validDecimal d) :
    ∃ t, decimalCommand f rd ra rb s = .next t ∧ holdsDecimal rd d t ∧
      endsOk [⟨rd, 4⟩] 0 s.flags.c s.flags.s s t := by
  obtain ⟨hbad, -⟩ | ⟨-, -, ⟨d', hd', hnext⟩ | ⟨e, he, -⟩⟩ := decimalCommand_cases f rd ra rb s
  · omega
  · cases hf.symm.trans hd'
    exact ⟨_, hnext, holdsDecimal_setDecimal s hrd hd, endsOk_decimal s rd d hrd⟩
  · cases hf.symm.trans he

/-- A Decimal command with operands in range ends with the error its function gives (R223). -/
theorem decimalCommand_of_error {code : Code} (ha : (s.decimal ra).scale ≤ 28) (hb : (s.decimal rb).scale ≤ 28)
    (hf : f (s.decimal ra) (s.decimal rb) = .error code) :
    ∃ t, decimalCommand f rd ra rb s = .next t ∧ endsWithError code s t := by
  obtain ⟨hbad, -⟩ | ⟨-, -, ⟨d, hd, -⟩ | ⟨e, he, hnext⟩⟩ := decimalCommand_cases f rd ra rb s
  · omega
  · cases hf.symm.trans hd
  · cases hf.symm.trans he
    exact ⟨_, hnext, endsWithError_completeError s code⟩

theorem decimalCommand_of_badScale (h : 28 < (s.decimal ra).scale ∨ 28 < (s.decimal rb).scale) :
    decimalCommand f rd ra rb s = .fault .badScale := by
  obtain ⟨-, hfault⟩ | ⟨ha, hb, -⟩ := decimalCommand_cases f rd ra rb s
  · exact hfault
  · omega

end

section
variable {rd ra rb : Reg}

theorem exec_dmul_of_legal (h : (Instr.dmul rd ra rb).wellFormed = true) (s : State) :
    exec (.dmul rd ra rb) s = decimalCommand multiplyDecimal rd ra rb s := whenLegal_of_legal h s _

theorem exec_dadd_of_legal (h : (Instr.dadd rd ra rb).wellFormed = true) (s : State) :
    exec (.dadd rd ra rb) s = decimalCommand (addSubDecimal false) rd ra rb s := whenLegal_of_legal h s _

theorem exec_dsub_of_legal (h : (Instr.dsub rd ra rb).wellFormed = true) (s : State) :
    exec (.dsub rd ra rb) s = decimalCommand (addSubDecimal true) rd ra rb s := whenLegal_of_legal h s _

theorem exec_ddiv_of_legal (h : (Instr.ddiv rd ra rb).wellFormed = true) (s : State) :
    exec (.ddiv rd ra rb) s = decimalCommand divideDecimal rd ra rb s := whenLegal_of_legal h s _

end

/-- A scan of one register is always legal (R70). -/
theorem wellFormed_msb32 (rd ra : Reg) : (Instr.msb32 rd ra).wellFormed = true := by
  simp only [Instr.wellFormed, Instr.limbCountOk, Instr.groupsFit, Instr.destsApart, Instr.digitsOk, Instr.dests,
    Instr.srcs, Group.fits, groupsApart, List.cons_append, List.nil_append, List.all_cons, List.all_nil,
    Bool.and_true, Bool.true_and, Bool.and_eq_true, decide_eq_true_eq, Config.nreg]
  omega

theorem msbGroup_of_zero {n rd ra : Nat} {s : State} (h : s.group ra n = 0) :
    msbGroup n rd ra s = .fault .msbOfZero := by
  obtain ⟨-, hfault⟩ | ⟨hne, -⟩ := msbGroup_cases n rd ra s
  · exact hfault
  · exact absurd h hne

theorem reduceStep_of_badHi {sticky : Bool} {rd ra rb rc : Nat} {s : State} (h : 5 < (s.limb ra).toNat) :
    reduceStep sticky rd ra rb rc s = .fault .badHi := by
  obtain ⟨-, hfault⟩ | ⟨hle, -⟩ := reduceStep_cases sticky rd ra rb rc s
  · exact hfault
  · omega

theorem scaleWindow_of_badHi {rd ra rb : Nat} {s : State} (h : 5 < (s.limb ra).toNat) :
    scaleWindow rd ra rb s = .fault .badHi := by
  obtain ⟨-, hfault⟩ | ⟨hle, -⟩ := scaleWindow_cases rd ra rb s
  · exact hfault
  · omega

theorem roundGroups_of_bad {n rd ra rb : Nat} {sticky : Bool} {s : State}
    (h : s.group rb n = 0 ∨ s.group rb n ≤ s.group ra n) :
    roundGroups n rd ra rb sticky s = .fault .roundPrecondition := by
  obtain ⟨-, hfault⟩ | ⟨hlt, -⟩ := roundGroups_cases n rd ra rb sticky s
  · exact hfault
  · omega

/-- Settles O59: each fault is that of the command's shared operation, once the command is legal. -/
theorem preconditionFaults : Obligations.PreconditionFaults := by
  intro n rd ra rb rc s
  refine ⟨fun hzero => ?scan32, fun hi hzero => ?scan64, fun hhi => ?window, fun hbad => ?round,
    fun hscale hi => ?scale⟩
  case scan32 =>
    exact (whenLegal_of_legal (wellFormed_msb32 rd ra) s _).trans (msbGroup_of_zero (by simp [hzero]))
  case scan64 => exact (whenLegal_of_legal hi s _).trans (msbGroup_of_zero hzero)
  case window =>
    exact ⟨fun hi => (whenLegal_of_legal hi s _).trans (reduceStep_of_badHi hhi),
      fun hi => (whenLegal_of_legal hi s _).trans (reduceStep_of_badHi hhi),
      fun hi => (whenLegal_of_legal hi s _).trans (reduceStep_of_badHi hhi),
      fun hi => (whenLegal_of_legal hi s _).trans (scaleWindow_of_badHi hhi)⟩
  case round =>
    exact ⟨fun hi => (whenLegal_of_legal hi s _).trans (roundGroups_of_bad hbad),
      fun hi => (whenLegal_of_legal hi s _).trans (roundGroups_of_bad hbad)⟩
  case scale =>
    rw [exec_dmul_of_legal hi, exec_dadd_of_legal hi, exec_dsub_of_legal hi, exec_ddiv_of_legal hi]
    exact ⟨decimalCommand_of_badScale hscale, decimalCommand_of_badScale hscale,
      decimalCommand_of_badScale hscale, decimalCommand_of_badScale hscale⟩

end Sys2Proof.Proofs
end

section
/-! `DMUL`, `DADD`, `DSUB` and `DDIV`: the Decimals they compute are valid, so they are written whole (R151, R161,
R177). -/

namespace Sys2Proof.Proofs

open Sys2Proof.Machine Sys2Proof.Safety

/-- Whatever `ScaleResult` answers fits a Decimal (R134). -/
theorem scaleResult_fits {m s q s' : Nat} (h : scaleResult m s = .ok (q, s')) : s' ≤ 28 ∧ q < 2 ^ 96 := by
  have hscale := le_bestPower m s
  rw [scaleResult_eq] at h
  split at h
  case isTrue => cases h
  case isFalse =>
    cases h
    exact ⟨by omega, rhe_bestPower_lt m s⟩

/-! Multiplication. -/

theorem multiplyDecimal_of_zero {a b : Decimal} (h : a.mant * b.mant = 0) :
    multiplyDecimal a b = .ok { sign := false, scale := 0, mant := 0 } := by
  simp only [multiplyDecimal, h, if_true]

theorem multiplyDecimal_of_ok {a b : Decimal} {q s' : Nat} (hp : a.mant * b.mant ≠ 0)
    (h : scaleResult (a.mant * b.mant) (a.scale + b.scale) = .ok (q, s')) :
    multiplyDecimal a b = .ok { sign := a.sign ^^ b.sign, scale := s', mant := q } := by
  simp only [multiplyDecimal, hp, h, if_false]

theorem multiplyDecimal_of_error {a b : Decimal} {e : Code} (hp : a.mant * b.mant ≠ 0)
    (h : scaleResult (a.mant * b.mant) (a.scale + b.scale) = .error e) : multiplyDecimal a b = .error e := by
  simp only [multiplyDecimal, hp, h, if_false]

/-- A group that holds positive zero at scale 0 is four zero registers (R27, R152). -/
theorem limbs_of_holds_zero {r : Nat} {t : State}
    (h : holdsDecimal r { sign := false, scale := 0, mant := 0 } t) :
    t.limb r = 0 ∧ t.limb (r + 1) = 0 ∧ t.limb (r + 2) = 0 ∧ t.limb (r + 3) = 0 := by
  obtain ⟨hdec, hctl⟩ := h
  have hgroup : t.group r 3 = 0 := congrArg Decimal.mant hdec
  have hlimb (k : Nat) (hk : k < 3) : t.limb (r + k) = 0 :=
    BitVec.eq_of_toNat_eq (by rw [toNat_limb_eq_digit t r hk, hgroup, Nat.zero_div]; rfl)
  exact ⟨hlimb 0 (by decide), hlimb 1 (by decide), hlimb 2 (by decide), BitVec.eq_of_toNat_eq hctl⟩

/-- Settles O45: what `ScaleResult` answers is a valid Decimal, and a product that fits is its own answer. -/
theorem decimalProductResult : Obligations.DecimalProductResult := by
  intro rd ra rb s hi a b p sg ha hb
  have hrd : rd.val + 4 ≤ 32 := fits_of_wellFormed hi (List.mem_cons_self ..)
  have hanswer (q s' : Nat) (hp : p ≠ 0) (hres : scaleResult p (a.scale + b.scale) = .ok (q, s')) :=
    decimalCommand_of_ok hrd ha hb (multiplyDecimal_of_ok hp hres) (scaleResult_fits hres)
  rw [exec_dmul_of_legal hi]
  refine ⟨fun hp => ?zero, fun hp hfit hscale => ?exact, fun q s' hp hres => ?answer, fun hp hres => ?overflow⟩
  case zero =>
    obtain ⟨t, ht, hholds, hend⟩ :=
      decimalCommand_of_ok hrd ha hb (multiplyDecimal_of_zero hp) ⟨Nat.zero_le _, Nat.two_pow_pos 96⟩
    obtain ⟨h0, h1, h2, h3⟩ := limbs_of_holds_zero hholds
    exact ⟨t, ht, h0, h1, h2, h3, hend⟩
  case exact => exact hanswer p _ hp (scaleResult_of_fits hfit hscale)
  case answer => exact hanswer q s' hp hres
  case overflow => exact decimalCommand_of_error ha hb (multiplyDecimal_of_error hp hres)

/-! Addition and subtraction. -/

/-- An aligned sum of a term that fits is a valid Decimal (R163). -/
theorem addAligned_valid {tx ty : Bool} {x y delta s : Nat} {d : Decimal} (hy : y < 2 ^ 96) (hs : s ≤ 28)
    (h : addAligned tx x ty y delta s = .ok d) : validDecimal d := by
  unfold addAligned at h
  split at h
  case isTrue =>
    cases h
    exact ⟨hs, hy⟩
  case isFalse =>
    dsimp only at h
    generalize (if tx = ty then _ else _ : Bool × Nat) = signed at h
    obtain ⟨sign, m⟩ := signed
    dsimp only at h
    split at h
    case isTrue hm =>
      cases h
      exact ⟨hs, hm⟩
    case isFalse =>
      cases hres : scaleResult m s with
      | error e => simp [hres] at h
      | ok p =>
        simp only [hres, Except.ok.injEq] at h
        subst h
        exact scaleResult_fits hres

/-- The sum or difference of two valid Decimals is valid (R163). -/
theorem addSubDecimal_valid {sub : Bool} {a b d : Decimal} (ha : validDecimal a) (hb : validDecimal b)
    (h : addSubDecimal sub a b = .ok d) : validDecimal d := by
  have hs : max a.scale b.scale ≤ 28 := Nat.max_le.2 ⟨ha.1, hb.1⟩
  unfold addSubDecimal at h
  dsimp only at h
  split at h
  · exact addAligned_valid hb.2 hs h
  · exact addAligned_valid ha.2 hs h

/-- Settles O46: a sum or difference of operands in range is a valid Decimal. -/
theorem decimalSumResults : Obligations.DecimalSumResults := by
  intro rd ra rb s hi a b ha hb
  have hrd : rd.val + 4 ≤ 32 := fits_of_wellFormed hi (List.mem_cons_self ..)
  have hvalid {sub : Bool} {d : Decimal} (hd : addSubDecimal sub a b = .ok d) : validDecimal d :=
    addSubDecimal_valid ⟨ha, mant_decimal_lt s ra⟩ ⟨hb, mant_decimal_lt s rb⟩ hd
  rw [exec_dadd_of_legal hi, exec_dsub_of_legal hi]
  exact ⟨⟨fun d hd => decimalCommand_of_ok hrd ha hb hd (hvalid hd), decimalCommand_of_error ha hb⟩,
    fun d hd => decimalCommand_of_ok hrd ha hb hd (hvalid hd), decimalCommand_of_error ha hb⟩

/-! Division. -/

/-- A nonzero answer of the scale search is safe and within the room left (R180). -/
theorem searchScaleFrom_safe {q room bound : Nat} (h : searchScaleFrom q room bound ≠ 0) :
    searchScaleFrom q room bound ≤ room ∧ (q + 1) * 10 ^ searchScaleFrom q room bound ≤ 2 ^ 96 := by
  induction bound with
  | zero => exact absurd rfl h
  | succ bound ih =>
    rw [searchScaleFrom] at h ⊢
    split
    case isTrue hsafe => exact hsafe
    case isFalse hunsafe =>
      rw [if_neg hunsafe] at h
      exact ih h

/-- A power of the scale search leaves room for one more: `2^96` is no multiple of ten (R180). -/
theorem searchScale_lt {q : Nat} {s : Int} (h : searchScale q s ≠ 0) :
    (q + 1) * 10 ^ searchScale q s < 2 ^ 96 := by
  have hsafe : (q + 1) * 10 ^ searchScale q s ≤ 2 ^ 96 := (searchScaleFrom_safe h).2
  have hten : 10 ∣ (q + 1) * 10 ^ searchScale q s := (dvd_pow_self 10 h).mul_left _
  refine lt_of_le_of_ne hsafe fun heq => ?_
  rw [heq] at hten
  exact absurd hten (by decide)

theorem searchScale_le {q : Nat} {s : Int} (h : searchScale q s ≠ 0) : s + searchScale q s ≤ 28 := by
  have hroom : searchScale q s ≤ ((28 : Int) - s).toNat := (searchScaleFrom_safe h).1
  omega

/-- The division loop keeps its quotient below `2^96`, with one to spare while a remainder is left, and its scale at
most 28; so what it answers fits a Decimal (R178). -/
theorem divideLoop_valid {b fuel q r : Nat} {s : Int} {scaled scaled' : Bool} {q' s' : Nat} (hq : q < 2 ^ 96)
    (hr : r < b) (hspare : r ≠ 0 → q + 1 < 2 ^ 96) (hs : s ≤ 28)
    (h : divideLoop b fuel q r s scaled = .ok (q', s', scaled')) : s' ≤ 28 ∧ q' < 2 ^ 96 := by
  induction fuel generalizing q r s scaled with
  | zero => cases h
  | succ fuel ih =>
    rw [divideLoop] at h
    split at h
    case isTrue hexact =>
      split at h
      case isTrue hneg =>
        split at h
        case isTrue hfit =>
          cases h
          exact ⟨Nat.zero_le _, hfit⟩
        case isFalse => cases h
      case isFalse hpos =>
        cases h
        exact ⟨by omega, hq⟩
    case isFalse hrem =>
      dsimp only at h
      generalize hk : (if s < Config.scaleMax then searchScale q s else 0) = k at h
      split at h
      case isTrue hzero =>
        split at h
        case isTrue => cases h
        case isFalse hpos =>
          cases h
          have := Bool.toNat_le (roundsUp q r b false)
          have := hspare hrem
          exact ⟨by omega, by omega⟩
      case isFalse hstep =>
        have hsearch : searchScale q s = k := by
          split at hk
          · exact hk
          · exact absurd hk.symm hstep
        subst hsearch
        have hn : (q * b + r) * 10 ^ searchScale q s < b * ((q + 1) * 10 ^ searchScale q s) := by
          rw [← Nat.mul_assoc]
          refine Nat.mul_lt_mul_of_pos_right ?_ (Nat.pow_pos (by decide))
          rw [Nat.mul_add, Nat.mul_one, Nat.mul_comm b q]
          omega
        have hquot := Nat.div_lt_of_lt_mul hn
        have hlt := searchScale_lt hstep
        exact ih (by omega) (Nat.mod_lt _ (by omega)) (fun _ => by omega) (searchScale_le hstep) h

/-- Unscaling only makes the mantissa and the scale smaller (R185). -/
theorem stripPow_le (j : Nat) (p : Nat × Nat) : stripPow j p ≤ p := by
  unfold stripPow
  split
  · exact ⟨Nat.div_le_self _ _, Nat.sub_le _ _⟩
  · exact le_rfl

theorem unscale_le (q scale : Nat) : unscale q scale ≤ (q, scale) :=
  (stripPow_le 1 _).trans <| (stripPow_le 2 _).trans <| (stripPow_le 4 _).trans <| (stripPow_le 8 _).trans <|
    (stripPow_le 8 _).trans <| stripPow_le 8 _

/-- A first quotient with a remainder has a divisor of at least 2, so it is far below `2^96`. -/
theorem div_spare {a b : Nat} (ha : a < 2 ^ 96) (hb0 : b ≠ 0) (hr : a % b ≠ 0) : a / b + 1 < 2 ^ 96 := by
  have hb : 2 ≤ b := by
    by_contra hlt
    obtain rfl : b = 1 := by omega
    exact hr (Nat.mod_one a)
  have : a / b ≤ a / 2 := Nat.div_le_div_left hb (by decide)
  omega

/-- The quotient of a valid Decimal is valid (R178). -/
theorem divideDecimal_valid {a b d : Decimal} (ha : validDecimal a) (h : divideDecimal a b = .ok d) :
    validDecimal d := by
  obtain ⟨hscale, hmant⟩ := ha
  unfold divideDecimal at h
  split at h
  case isTrue => cases h
  case isFalse hb =>
    split at h
    case h_1 => cases h
    case h_2 q scale scaled hloop =>
      have hscale' : (a.scale : Int) ≤ 28 := by exact_mod_cast hscale
      have hvalid := divideLoop_valid ((Nat.div_le_self _ _).trans_lt hmant) (Nat.mod_lt _ (Nat.pos_of_ne_zero hb))
        (div_spare hmant hb) (by omega) hloop
      obtain ⟨hs, hq⟩ := hvalid
      have hle := unscale_le q scale
      cases h
      cases scaled
      · exact ⟨hs, hq⟩
      · exact ⟨hle.2.trans hs, hle.1.trans_lt hq⟩

theorem divideDecimal_of_zero {a b : Decimal} (h : b.mant = 0) : divideDecimal a b = .error .divideByZero :=
  if_pos h

/-- An exact quotient at a scale that is not negative needs no scaling (R178). -/
theorem divideDecimal_of_exact {a b : Decimal} (hb : b.mant ≠ 0) (hr : a.mant % b.mant = 0)
    (hs : b.scale ≤ a.scale) :
    divideDecimal a b =
      .ok { sign := a.sign ^^ b.sign, scale := a.scale - b.scale, mant := a.mant / b.mant } := by
  have hpos : ¬ ((a.scale : Int) - (b.scale : Int) < 0) := by omega
  have hscale : ((a.scale : Int) - (b.scale : Int)).toNat = a.scale - b.scale := by omega
  simp [divideDecimal, divideFuel, divideLoop, hb, hr, hpos, hscale]

/-- Settles O50: a quotient of operands in range is a valid Decimal. -/
theorem decimalQuotientResult : Obligations.DecimalQuotientResult := by
  intro rd ra rb s hi a b ha hb
  have hrd : rd.val + 4 ≤ 32 := fits_of_wellFormed hi (List.mem_cons_self ..)
  have hanswer (d : Decimal) (hd : divideDecimal a b = .ok d) :=
    decimalCommand_of_ok hrd ha hb hd (divideDecimal_valid ⟨ha, mant_decimal_lt s ra⟩ hd)
  rw [exec_ddiv_of_legal hi]
  refine ⟨fun hzero => ?zero, fun hne hr hs => ?exact, hanswer, fun hover => ?overflow⟩
  case zero => exact decimalCommand_of_error ha hb (divideDecimal_of_zero hzero)
  case exact => exact hanswer _ (divideDecimal_of_exact hne hr hs)
  case overflow => exact decimalCommand_of_error ha hb hover

end Sys2Proof.Proofs
end

section
/-! `DPARSE`: the collapses of R202 for every digit string and exponent, and that the result is always a valid
Decimal (R196 to R204). -/

namespace Sys2Proof.Proofs

open Sys2Proof.Machine Sys2Proof.Safety

/-- Reading further digits never makes the number spelled smaller. -/
theorem le_foldl_digits (acc : Nat) (ds : List Nat) : acc ≤ ds.foldl (fun n d => n * 10 + d) acc := by
  induction ds generalizing acc with
  | nil => exact le_rfl
  | cons d ds ih =>
    have := ih (acc * 10 + d)
    rw [List.foldl_cons]
    omega

/-- Digits are consumed while the accumulator fits 96 bits (R199). -/
theorem consume_lt {acc : Nat} (h : acc < 2 ^ 96) (ds : List Nat) : (consume acc ds).1 < 2 ^ 96 := by
  induction ds generalizing acc with
  | nil => exact h
  | cons d ds ih =>
    rw [consume]
    split
    case isTrue hfit => exact ih hfit
    case isFalse => exact h

/-- A digit string whose number fits 96 bits is consumed whole (R199). -/
theorem consume_of_fits {acc : Nat} {ds : List Nat} (h : ds.foldl (fun n d => n * 10 + d) acc < 2 ^ 96) :
    consume acc ds = (ds.foldl (fun n d => n * 10 + d) acc, []) := by
  induction ds generalizing acc with
  | nil => rfl
  | cons d ds ih =>
    rw [List.foldl_cons] at h ⊢
    have hfit : acc * 10 + d < Config.mantLimit := (le_foldl_digits _ ds).trans_lt h
    rw [consume, if_pos hfit, ih h]

/-- Rounding an early stop keeps the mantissa below `2^96` (R200, R201). -/
theorem parseRound_lt {acc : Nat} (h : acc < 2 ^ 96) (unconsumed : List Nat) (e : Int) :
    (parseRound acc unconsumed e).1 < 2 ^ 96 := by
  unfold parseRound
  split
  · exact h
  · dsimp only
    split
    · split
      case isTrue => exact (by decide : carryMant < 2 ^ 96)
      case isFalse hne =>
        have : acc + 1 ≠ 2 ^ 96 := hne
        dsimp only
        omega
    · exact h

/-- What R202 says of mantissa `m` and exponent `e`: (b), (d) and the two cases of (c). -/
def ScaledByParse (sgn : Bool) (m : Nat) (e : Int) (d : Decimal) : Prop :=
  (e < -28 → d = { sign := sgn, scale := 28, mant := 0 }) ∧
  (-28 ≤ e → e ≤ 0 → d = { sign := sgn, scale := (-e).toNat, mant := m }) ∧
  (0 < e → m * 10 ^ e.toNat < 2 ^ 96 → d = { sign := sgn, scale := 0, mant := m * 10 ^ e.toNat }) ∧
  (0 < e → 2 ^ 96 ≤ m * 10 ^ e.toNat → d = { sign := sgn, scale := 0, mant := 0 })

theorem parseScale_scaled (sgn : Bool) (m : Nat) (e : Int) : ScaledByParse sgn m e (parseScale sgn m e) := by
  have hsmall : (Config.scaleMax : Int) < -e ↔ e < -28 := by
    rw [show (Config.scaleMax : Int) = 28 from rfl]
    omega
  unfold parseScale
  simp only [hsmall]
  refine ⟨fun h => ?_, fun h h' => ?_, fun h hfit => ?_, fun h hbig => ?_⟩
  · rw [if_pos h]
  · rw [if_neg (by omega), if_neg (by omega)]
  · rw [if_neg (by omega), if_pos h, if_pos hfit]
  · rw [if_neg (by omega), if_pos h, if_neg (Nat.not_lt.2 hbig)]

/-- Scaling a mantissa that fits gives a valid Decimal with the sign argument (R202, R204). -/
theorem parseScale_valid (sgn : Bool) {m : Nat} (hm : m < 2 ^ 96) (e : Int) :
    validDecimal (parseScale sgn m e) ∧ (parseScale sgn m e).sign = sgn := by
  obtain ⟨hsmall, hscale, hfits, hbig⟩ := parseScale_scaled sgn m e
  have hzero : 0 < Config.mantLimit := Nat.two_pow_pos 96
  rcases lt_or_ge e (-28) with h | h
  · rw [hsmall h]
    exact ⟨⟨le_rfl, hzero⟩, rfl⟩
  rcases le_or_gt e 0 with h' | h'
  · rw [hscale h h']
    exact ⟨⟨Int.toNat_le.2 (by simpa using neg_le.1 h), hm⟩, rfl⟩
  rcases Nat.lt_or_ge (m * 10 ^ e.toNat) (2 ^ 96) with hfit | hlarge
  · rw [hfits h' hfit]
    exact ⟨⟨Nat.zero_le _, hfit⟩, rfl⟩
  · rw [hbig h' hlarge]
    exact ⟨⟨Nat.zero_le _, hzero⟩, rfl⟩

/-- R202 (a). -/
theorem parseDecimal_of_large {sgn : Bool} {ds : List Nat} {e : Int} (h : 29 < e) :
    parseDecimal sgn ds e = { sign := sgn, scale := 0, mant := 0 } :=
  if_pos h

theorem parseDecimal_of_le {sgn : Bool} {ds : List Nat} {e : Int} (h : e ≤ 29) :
    parseDecimal sgn ds e = parseScale sgn (parseRound (consume 0 ds).1 (consume 0 ds).2 e).1
      (parseRound (consume 0 ds).1 (consume 0 ds).2 e).2 :=
  if_neg (not_lt.2 h)

/-- The parser is total on valid Decimals (R196, R204). -/
theorem parseDecimal_valid (sgn : Bool) (ds : List Nat) (e : Int) :
    validDecimal (parseDecimal sgn ds e) ∧ (parseDecimal sgn ds e).sign = sgn := by
  rcases lt_or_ge 29 e with h | h
  · rw [parseDecimal_of_large h]
    exact ⟨⟨Nat.zero_le _, Nat.two_pow_pos 96⟩, rfl⟩
  · rw [parseDecimal_of_le h]
    exact parseScale_valid sgn (parseRound_lt (consume_lt (Nat.two_pow_pos 96) ds) _ e) _

/-- At an exponent above 29 a number times its power of ten fits 96 bits only where it is 0 (R202). -/
theorem eq_zero_of_fits_large {n : Nat} {e : Int} (he : 29 < e) (h : n * 10 ^ e.toNat < 2 ^ 96) : n = 0 := by
  by_contra hne
  have hpow : 10 ^ 30 ≤ 10 ^ e.toNat := Nat.pow_le_pow_right (by decide) (by omega)
  have : 10 ^ e.toNat ≤ n * 10 ^ e.toNat := Nat.le_mul_of_pos_left _ (Nat.pos_of_ne_zero hne)
  omega

/-- Where the whole digit string fits 96 bits, R202 speaks of the integer it spells and of the exponent given. -/
theorem parseDecimal_scaled_spelled (sgn : Bool) {ds : List Nat} (e : Int) (h : spelled ds < 2 ^ 96) :
    ScaledByParse sgn (spelled ds) e (parseDecimal sgn ds e) := by
  rcases lt_or_ge 29 e with he | he
  · rw [parseDecimal_of_large he]
    refine ⟨fun hneg => by omega, fun _ hneg => by omega, fun _ hfit => ?_, fun _ _ => rfl⟩
    rw [eq_zero_of_fits_large he hfit, Nat.zero_mul]
  · rw [parseDecimal_of_le he, consume_of_fits h]
    exact parseScale_scaled sgn (spelled ds) e

theorem exec_dparse_of_legal {rd ra : Reg} {sgn : Bool} {digits : List Byte}
    (h : (Instr.dparse rd ra sgn digits).wellFormed = true) (s : State) :
    exec (.dparse rd ra sgn digits) s =
      .next (s.setDecimal rd (parseDecimal sgn (digits.map digitValue) (s.limb ra).toInt)).completeOk :=
  whenLegal_of_legal h s _

/-- Settles O55: both readings of R202 are the scaling of one mantissa and exponent. -/
theorem parseResult : Obligations.ParseResult := by
  intro rd ra sgn digits s hi ds e N m E
  have hrd : rd.val + 4 ≤ 32 := fits_of_wellFormed hi (List.mem_cons_self ..)
  obtain ⟨hvalid, hsign⟩ := parseDecimal_valid sgn ds e
  have hround (he : e ≤ 29) : ScaledByParse sgn m E (parseDecimal sgn ds e) := by
    rw [parseDecimal_of_le he]
    exact parseScale_scaled sgn m E
  exact ⟨_, _, exec_dparse_of_legal hi s, holdsDecimal_setDecimal s hrd hvalid, rfl, hvalid, hsign,
    parseDecimal_of_large, hround, parseDecimal_scaled_spelled sgn e, endsOk_decimal s rd _ hrd⟩

end Sys2Proof.Proofs
end

section
/-! The frame of every command (R47, R53): the groups a command writes lie within its destination groups. -/

namespace Sys2Proof.Proofs

open Sys2Proof.Machine Sys2Proof.Safety

/-- Writing a group, even one past `w31`, changes no register outside it. -/
theorem setGroup_of_not_mem (s : State) {r n k : Nat} (v : Nat) (h : ¬ (r ≤ k ∧ k < r + n)) :
    (s.setGroup r n v).limb k = s.limb k ∧ (s.setGroup r n v).isWritten k = s.isWritten k := by
  induction n generalizing s r v with
  | zero => exact ⟨rfl, rfl⟩
  | succ n ih =>
    have hne : r ≠ k := by omega
    obtain ⟨hlimb, hmark⟩ := ih (s.setLimb r (BitVec.ofNat 32 v)) (v / 2 ^ 32) (r := r + 1) (by omega)
    rw [State.setGroup, hlimb, hmark, State.limb_setLimb_ne _ _ hne, State.isWritten_setLimb,
      if_neg fun h => hne h.1]
    exact ⟨rfl, rfl⟩

theorem sameElsewhere_writeAll (ws : List (Group × Nat)) (s : State) :
    sameElsewhere (ws.map Prod.fst) s (writeAll ws s) := by
  intro k hk
  induction ws generalizing s with
  | nil => exact ⟨rfl, rfl⟩
  | cons w ws ih =>
    obtain ⟨hout, hrest⟩ := (outside_cons w.1.base w.1.size (ws.map Prod.fst) k).1 hk
    obtain ⟨hlimb, hmark⟩ := ih (s.setGroup w.1.base w.1.size w.2) hrest
    obtain ⟨hlimb', hmark'⟩ := setGroup_of_not_mem s w.2 hout
    exact ⟨hlimb.trans hlimb', hmark.trans hmark'⟩

theorem sameElsewhere_finish (ws : List (Group × Nat)) (c sticky : Option Bool) (data : Word) (s : State) :
    sameElsewhere (ws.map Prod.fst) s (finish ws c sticky data s) := by
  intro k hk
  obtain ⟨hlimb, hmark⟩ := sameElsewhere_writeAll ws s k hk
  cases c <;> cases sticky <;> exact ⟨hlimb, hmark⟩

/-- A next state differs from `s` in no register outside the groups (R47). -/
def WritesWithin (gs : List Group) (s : State) (o : Outcome) : Prop :=
  ∀ t, o = .next t → sameElsewhere gs s t

theorem WritesWithin.mono {gs gs' : List Group} {s : State} {o : Outcome} (h : WritesWithin gs s o)
    (hsub : ∀ k, outside gs' k = true → outside gs k = true) : WritesWithin gs' s o :=
  fun t ht k hk => h t ht k (hsub k hk)

theorem writesWithin_fault (gs : List Group) (s : State) (f : Fault) : WritesWithin gs s (.fault f) := nofun

theorem writesWithin_error (gs : List Group) (s : State) (code : Code) :
    WritesWithin gs s (.next (s.completeError code)) := by
  rintro _ ⟨⟩
  exact fun _ _ => ⟨rfl, rfl⟩

theorem writesWithin_finish (ws : List (Group × Nat)) (c sticky : Option Bool) (data : Word) (s : State) :
    WritesWithin (ws.map Prod.fst) s (.next (finish ws c sticky data s)) := by
  rintro _ ⟨⟩
  exact sameElsewhere_finish ws c sticky data s

/-- An illegal command writes no register (R224). -/
theorem WritesWithin.ofWhenLegal {i : Instr} {gs : List Group} {s : State} {o : Outcome}
    (h : WritesWithin gs s o) : WritesWithin gs s (whenLegal i s o) := by
  intro t ht
  obtain ⟨-, rfl⟩ | ⟨-, hnext⟩ := whenLegal_next ht
  · exact writesWithin_error gs s .illegalCommand _ rfl
  · exact h t hnext

/-! The shared operations, each within the groups it is given. -/

section
variable (s : State)

theorem addGroups_writesWithin {n rd ra rb cin : Nat} :
    WritesWithin [⟨rd, n⟩] s (.next (addGroups n rd ra rb cin s)) :=
  writesWithin_finish [(⟨rd, n⟩, _)] (some _) none 0 s

theorem subGroups_writesWithin {n rd ra rb bin : Nat} :
    WritesWithin [⟨rd, n⟩] s (.next (subGroups n rd ra rb bin s)) :=
  writesWithin_finish [(⟨rd, n⟩, _)] (some _) none 0 s

theorem mulGroups_writesWithin {na nb rd ra rb : Nat} :
    WritesWithin [⟨rd, na + nb⟩] s (.next (mulGroups na nb rd ra rb s)) :=
  writesWithin_finish [(⟨rd, na + nb⟩, _)] none none 0 s

theorem divGroups_writesWithin {a b q : Nat} {norm top : Bool} {rd rc ra rb : Nat} :
    WritesWithin [⟨rd, q⟩, ⟨rc, b⟩] s (divGroups a b q norm top rd rc ra rb s) := by
  obtain ⟨-, hnext⟩ | ⟨-, hfault⟩ := divGroups_cases a b q norm top rd rc ra rb s
  · rw [hnext]
    exact writesWithin_finish [(⟨rd, q⟩, _), (⟨rc, b⟩, _)] none none 0 s
  · rw [hfault]
    exact writesWithin_fault _ s _

theorem setLimb_writesWithin {rd : Nat} {v : Word} :
    WritesWithin [⟨rd, 1⟩] s (.next (s.setLimb rd v).completeOk) := by
  rw [setLimb_eq_setGroup]
  exact writesWithin_finish [(⟨rd, 1⟩, _)] none none 0 s

theorem msbGroup_writesWithin {n rd ra : Nat} : WritesWithin [⟨rd, 1⟩] s (msbGroup n rd ra s) := by
  obtain ⟨-, hfault⟩ | ⟨-, hnext⟩ := msbGroup_cases n rd ra s
  · rw [hfault]
    exact writesWithin_fault _ s _
  · rw [hnext]
    exact setLimb_writesWithin s

/-- The limbs `0 .. hi` are among the six of the window, the output pair is written limb by limb (R126, R127). -/
theorem reduceStep_writesWithin {sticky : Bool} {rd ra rb rc : Nat} :
    WritesWithin [⟨rd, windowSize⟩, ⟨ra, 1⟩, ⟨rc, 2⟩] s (reduceStep sticky rd ra rb rc s) := by
  have heq := reduceStep_eq_finish (some sticky) rd ra rb rc s
  rw [Option.getD_some] at heq
  rw [heq]
  split
  case isTrue => exact writesWithin_fault _ s _
  case isFalse hhi =>
    refine (writesWithin_finish _ none (some sticky) 0 s).mono fun k hk => ?_
    simp only [reduceWrites, List.map_cons, List.map_nil, outside_cons, outside_nil, windowSize, Config.hiMax,
      and_true] at *
    omega

theorem roundGroups_writesWithin {n rd ra rb : Nat} {sticky : Bool} :
    WritesWithin [⟨rd, n⟩] s (roundGroups n rd ra rb sticky s) := by
  obtain ⟨-, hfault⟩ | ⟨-, sum, -, hnext⟩ := roundGroups_cases n rd ra rb sticky s
  · rw [hfault]
    exact writesWithin_fault _ s _
  · rw [hnext]
    exact writesWithin_finish [(⟨rd, n⟩, _)] (some _) none 0 s

/-- The limbs `0 .. max(hi, 2)` are among the six of the window (R138). -/
theorem scaleWindow_writesWithin {rd ra rb : Nat} :
    WritesWithin [⟨rd, windowSize⟩, ⟨ra, 1⟩, ⟨rb, 1⟩] s (scaleWindow rd ra rb s) := by
  obtain ⟨-, hfault⟩ | ⟨hhi, ⟨e, -, herror⟩ | ⟨q, scale, -, hnext⟩⟩ := scaleWindow_cases rd ra rb s
  · rw [hfault]
    exact writesWithin_fault _ s _
  · rw [herror]
    exact writesWithin_error _ s e
  · rw [hnext]
    refine (writesWithin_finish [(⟨rd, max ((s.limb ra).toNat + 1) 3⟩, q), (⟨ra, 1⟩, hiLimb q), (⟨rb, 1⟩, scale)]
      none none 0 s).mono fun k hk => ?_
    simp only [List.map_cons, List.map_nil, outside_cons, outside_nil, windowSize, and_true] at *
    omega

/-- A Decimal group is its mantissa limbs and its `ctl` limb (R26). -/
theorem setDecimal_writesWithin {rd : Nat} {d : Decimal} :
    WritesWithin [⟨rd, decimalSize⟩] s (.next (s.setDecimal rd d).completeOk) := by
  rw [State.setDecimal, setLimb_eq_setGroup]
  refine WritesWithin.mono (writesWithin_finish [(⟨rd, 3⟩, d.mant), (⟨rd + 3, 1⟩, _)] none none 0 s) fun k hk => ?_
  simp only [List.map_cons, List.map_nil, outside_cons, outside_nil, decimalSize, and_true] at *
  omega

theorem decimalCommand_writesWithin {f : Decimal → Decimal → Except Code Decimal} {rd ra rb : Nat} :
    WritesWithin [⟨rd, decimalSize⟩] s (decimalCommand f rd ra rb s) := by
  obtain ⟨-, hfault⟩ | ⟨-, -, ⟨d, -, hnext⟩ | ⟨e, -, herror⟩⟩ := decimalCommand_cases f rd ra rb s
  · rw [hfault]
    exact writesWithin_fault _ s _
  · rw [hnext]
    exact setDecimal_writesWithin s
  · rw [herror]
    exact writesWithin_error _ s e

end

/-- Each command writes within its destination groups (R47): the case split over the commands. -/
theorem exec_writesWithin (i : Instr) (s : State) : WritesWithin i.dests s (exec i s) := by
  cases i with
  | add | adc => exact .ofWhenLegal (addGroups_writesWithin s)
  | sub | sbb => exact .ofWhenLegal (subGroups_writesWithin s)
  | neg n rd => exact .ofWhenLegal (writesWithin_finish [(⟨rd, limbs n⟩, _)] (some _) none 0 s)
  | mul32 | mul64x32 | mul64 => exact .ofWhenLegal (mulGroups_writesWithin s)
  | div64by32 | div128by64 | div96by32 | div128by96 | div160by96 | div96by64 =>
    exact .ofWhenLegal (divGroups_writesWithin s)
  | msb32 | msb64 => exact .ofWhenLegal (msbGroup_writesWithin s)
  | lzc32 | lzc64 => exact .ofWhenLegal (setLimb_writesWithin s)
  | shl128 rd => exact .ofWhenLegal (writesWithin_finish [(⟨rd, 4⟩, _)] none none 0 s)
  | reduce | reduceAcc | reduceClr => exact .ofWhenLegal (reduceStep_writesWithin s)
  | scaleres => exact .ofWhenLegal (scaleWindow_writesWithin s)
  | rndhe | rndheS => exact .ofWhenLegal (roundGroups_writesWithin s)
  | dmul | dadd | dsub | ddiv => exact .ofWhenLegal (decimalCommand_writesWithin s)
  | dparse => exact .ofWhenLegal (setDecimal_writesWithin s)
  | li => exact .ofWhenLegal (setLimb_writesWithin s)
  | rdReg => exact .ofWhenLegal (writesWithin_finish [] none none _ s)

/-- No command alters the words that wait behind it (R53). -/
theorem exec_next_commands {i : Instr} {s t : State} (h : exec i s = .next t) : t.commands = s.commands := by
  obtain ⟨code, rfl⟩ | ⟨ws, c, sticky, data, rfl, -, -⟩ := exec_next_cases h
  · rfl
  · exact finish_commands ws c sticky data s

/-- Settles O19: every write is to a destination group, and no ending touches the command stream. -/
theorem registersOutsideDestinationsKeep : Obligations.RegistersOutsideDestinationsKeep :=
  fun i s t h => ⟨exec_writesWithin i s t h, exec_next_commands h⟩

end Sys2Proof.Proofs
end

section
/-! Host access and the exchange record: what `LI` and `RD` do (R48, R216, R217), lists of them (R219), and the
bytes of a record (R43 to R45). -/

namespace Sys2Proof.Proofs

open Sys2Proof.Machine Sys2Proof.Safety

/-- `LI` is always legal (R70). -/
theorem wellFormed_li (rd : Reg) (imm : Word) : (Instr.li rd imm).wellFormed = true := by
  simp [Instr.wellFormed, Instr.limbCountOk, Instr.groupsFit, Instr.destsApart, Instr.digitsOk, Instr.dests,
    Instr.srcs, Group.fits, groupsApart]

/-- `RD` is always legal (R70). -/
theorem wellFormed_rdReg (ra : Reg) : (Instr.rdReg ra).wellFormed = true := by
  simp [Instr.wellFormed, Instr.limbCountOk, Instr.groupsFit, Instr.destsApart, Instr.digitsOk, Instr.dests,
    Instr.srcs, Group.fits, groupsApart]

theorem exec_li (rd : Reg) (imm : Word) (s : State) : exec (.li rd imm) s = .next (s.setLimb rd imm).completeOk :=
  whenLegal_of_legal (wellFormed_li rd imm) s _

theorem exec_rdReg (ra : Reg) (s : State) : exec (.rdReg ra) s = .next (s.complete .ok (s.limb ra)) :=
  whenLegal_of_legal (wellFormed_rdReg ra) s _

/-- A command that writes no register and no flag ends `OK` with its data (R217, R221). -/
theorem endsOk_complete_self (s : State) (data : Word) :
    endsOk [] data s.flags.c s.flags.s s (s.complete .ok data) :=
  endsOk_complete data rfl rfl rfl rfl (wroteExactly_nil s).1 (wroteExactly_nil s).2

/-- Settles O57: both commands are always legal, `LI` writes one limb and `RD` none. -/
theorem hostAccessResults : Obligations.HostAccessResults :=
  ⟨fun rd imm s =>
      ⟨_, exec_li rd imm s, State.limb_setLimb_same s rd imm rd.isLt, endsOk_one_limb s rd imm rd.isLt⟩,
    fun ra s => ⟨_, exec_rdReg ra s, endsOk_complete_self s (s.limb ra)⟩⟩

/-! Lists of host commands. -/

/-- A program goes on from the state its first command leaves (R50). -/
theorem execList_cons {i : Instr} {s t : State} (h : exec i s = .next t) (is : List Instr) :
    execList (i :: is) s = execList is t := by
  rw [execList, h]

/-- `LI` commands to different registers leave each with its immediate, and every other register alone (R216). -/
theorem execList_li (loads : List (Reg × Word)) (hdistinct : (loads.map Prod.fst).Nodup) (s : State) :
    ∃ t, execList (loads.map fun p => .li p.1 p.2) s = .next t ∧ (loads.map fun p => t.limb p.1) = loads.map Prod.snd ∧
      ∀ k : Reg, k ∉ loads.map Prod.fst → t.limb k = s.limb k := by
  induction loads generalizing s with
  | nil => exact ⟨s, rfl, rfl, fun _ _ => rfl⟩
  | cons p loads ih =>
    obtain ⟨rd, imm⟩ := p
    obtain ⟨hnew, hdistinct⟩ := List.nodup_cons.1 hdistinct
    obtain ⟨t, hrun, hloaded, hkept⟩ := ih hdistinct (s.setLimb rd imm).completeOk
    refine ⟨t, (execList_cons (exec_li rd imm s) _).trans hrun, ?_, fun k hk => ?_⟩
    · exact congrArg₂ List.cons ((hkept rd hnew).trans (State.limb_setLimb_same s rd imm rd.isLt)) hloaded
    · obtain ⟨hne, hk⟩ := List.ne_and_not_mem_of_not_mem_cons hk
      exact (hkept k hk).trans (State.limb_setLimb_ne s imm fun h => hne (Fin.ext h.symm))

/-- `RD` commands return one record each, with the register's value, and change no register (R217). -/
theorem execList_rdReg (regs : List Reg) (s : State) :
    ∃ u recs, execList (regs.map .rdReg) s = .next u ∧ u.w = s.w ∧ u.completions = s.completions ++ recs ∧
      recs.map Completion.data = regs.map fun k : Reg => s.limb k := by
  induction regs generalizing s with
  | nil => exact ⟨s, [], rfl, rfl, (List.append_nil _).symm, rfl⟩
  | cons ra regs ih =>
    obtain ⟨u, recs, hrun, hw, hrecs, hdata⟩ := ih (s.complete .ok (s.limb ra))
    refine ⟨u, { data := s.limb ra, flags := (s.complete .ok (s.limb ra)).flags.byte } :: recs,
      (execList_cons (exec_rdReg ra s) _).trans hrun, hw, ?_, congrArg (s.limb ra :: ·) hdata⟩
    rw [hrecs, State.complete_completions, List.append_assoc]
    rfl

/-- The registers of the Decimal group at `r`, in the order a host loads and unloads them (R219). -/
def decimalRegs (r : Nat) : List Reg :=
  [Fin.ofNat 32 r, Fin.ofNat 32 (r + 1), Fin.ofNat 32 (r + 2), Fin.ofNat 32 (r + 3)]

theorem decimalRegs_map_val {r : Nat} (hr : r + 4 ≤ 32) : (decimalRegs r).map Fin.val = [r, r + 1, r + 2, r + 3] := by
  have hval {k : Nat} (hk : k < 32) : (Fin.ofNat 32 k).val = k := by rw [Fin.val_ofNat, Nat.mod_eq_of_lt hk]
  simp only [decimalRegs, List.map_cons, List.map_nil]
  rw [hval (by omega), hval (by omega), hval (by omega), hval (by omega)]

theorem decimalRegs_nodup {r : Nat} (hr : r + 4 ≤ 32) : (decimalRegs r).Nodup :=
  List.Nodup.of_map Fin.val (by rw [decimalRegs_map_val hr]; simp)

theorem decimalRegs_limbs {r : Nat} (hr : r + 4 ≤ 32) (t : State) :
    (decimalRegs r).map (fun k : Reg => t.limb k) = [t.limb r, t.limb (r + 1), t.limb (r + 2), t.limb (r + 3)] :=
  calc (decimalRegs r).map (fun k : Reg => t.limb k) = ((decimalRegs r).map Fin.val).map t.limb := by
        rw [List.map_map]; rfl
    _ = _ := by rw [decimalRegs_map_val hr]; rfl

/-- The words of a record in the order of those registers: the mantissa's three, then `ctl` (R44). -/
def loadedWords (record : List Byte) : List Word :=
  [recordWord record 1, recordWord record 2, recordWord record 3, recordWord record 0]

/-- The host loads the record's words into the Decimal group's registers, one `LI` each (R219). -/
theorem loadRecord_eq (r : Nat) (record : List Byte) :
    loadRecord r record = ((decimalRegs r).zip (loadedWords record)).map fun p => .li p.1 p.2 := rfl

/-- The host takes the Decimal group's registers out, one `RD` each (R219). -/
theorem unloadDecimal_eq (r : Nat) : unloadDecimal r = (decimalRegs r).map .rdReg := rfl

/-- A Decimal group whose limbs are a record's words, mantissa first, holds the record's Decimal (R43, R44). -/
theorem decimal_eq_decimalOfRecord {t : State} {r : Nat} {record : List Byte}
    (h : [t.limb r, t.limb (r + 1), t.limb (r + 2), t.limb (r + 3)] = loadedWords record) :
    t.decimal r = decimalOfRecord record := by
  simp only [loadedWords, List.cons.injEq, and_true] at h
  obtain ⟨hlow, hmid, hhigh, hctl⟩ := h
  simp only [State.decimal, State.group, decimalOfRecord, hlow, hmid, hhigh, hctl, Decimal.mk.injEq, true_and]
  omega

/-- Settles O58: `LI` puts each word in its register, `RD` returns the registers in the same order. -/
theorem loadedRecordReadsBack : Obligations.LoadedRecordReadsBack := by
  intro r record s hr _
  obtain ⟨t, hload, hloaded, -⟩ := execList_li ((decimalRegs r).zip (loadedWords record)) (decimalRegs_nodup hr) s
  obtain ⟨u, recs, hunload, hw, hrecs, hdata⟩ := execList_rdReg (decimalRegs r) t
  have hlimbs : (decimalRegs r).map (fun k : Reg => t.limb k) = loadedWords record := hloaded
  rw [loadRecord_eq, unloadDecimal_eq]
  refine ⟨t, u, hload, ?_, hunload, ?_, hw⟩
  · exact decimal_eq_decimalOfRecord ((decimalRegs_limbs hr t).symm.trans hlimbs)
  · rw [hrecs, List.drop_left, hdata, hlimbs, loadedWords]

/-! The exchange record. -/

/-- The bytes of a number's low word (R45). -/
theorem bytesOfWord_ofNat (v : Nat) :
    bytesOfWord (BitVec.ofNat 32 v) = (List.range 4).map fun j => BitVec.ofNat 8 (v / 2 ^ (8 * j)) := by
  simp only [bytesOfWord, BitVec.toNat_ofNat, List.range_succ, List.range_zero, List.nil_append, List.cons_append,
    List.map_cons, List.map_nil, List.cons.injEq, and_true, Nat.mul_zero, pow_zero, Nat.div_one]
  refine ⟨?_, ?_, ?_, ?_⟩ <;> (apply BitVec.eq_of_toNat_eq; simp only [BitVec.toNat_ofNat]; omega)

/-- The bytes of a `ctl` word: two zero bytes, the scale, the sign in the top bit of the last (R43). -/
theorem bytesOfWord_ctlWord (sign : Bool) {scale : Nat} (h : scale ≤ 28) :
    bytesOfWord (ctlWord sign scale) = [0, 0, BitVec.ofNat 8 scale, BitVec.ofNat 8 (sign.toNat * 2 ^ 7)] := by
  simp only [bytesOfWord, toNat_ctlWord sign h, List.cons.injEq, and_true]
  refine ⟨?_, ?_, ?_, ?_⟩ <;>
    (apply BitVec.eq_of_toNat_eq; simp only [BitVec.ofNat_eq_ofNat, BitVec.toNat_ofNat]; omega)

/-- The bytes of the words of a number are the bytes of the number, word after word (R45). -/
theorem unpackBytes_words (m n : Nat) :
    unpackBytes ((List.range n).map fun j => BitVec.ofNat 32 (m / 2 ^ (32 * j))) =
      (List.range (4 * n)).map fun j => BitVec.ofNat 8 (m / 2 ^ (8 * j)) := by
  induction n with
  | zero => rfl
  | succ n ih =>
    rw [List.range_succ, List.map_append, unpackBytes, List.flatMap_append, ← unpackBytes, ih, Nat.mul_succ,
      List.range_add, List.map_append, List.map_map]
    simp only [List.map_cons, List.map_nil, List.flatMap_cons, List.flatMap_nil, List.append_nil, bytesOfWord_ofNat,
      Nat.div_div_eq_div_mul, ← pow_add, Function.comp_def, Nat.mul_add, ← Nat.mul_assoc, Nat.reduceMul]

/-- Packing the bytes of words gives the words back (R45). -/
theorem packBytes_unpackBytes (ws : List Word) : packBytes (unpackBytes ws) = ws := by
  induction ws with
  | nil => rfl
  | cons x ws ih =>
    obtain ⟨hx, -⟩ := List.cons.inj (packBytes_bytesOfWord x)
    exact congrArg₂ List.cons hx ih

theorem recordWord_recordOfDecimal (d : Decimal) (j : Nat) :
    recordWord (recordOfDecimal d) j = [ctlWord d.sign d.scale, BitVec.ofNat 32 d.mant,
      BitVec.ofNat 32 (d.mant / 2 ^ 32), BitVec.ofNat 32 (d.mant / 2 ^ 64)].getD j 0 := by
  rw [recordWord, recordOfDecimal, packBytes_unpackBytes]

/-- A valid Decimal is read back from its record (R43, R44). -/
theorem decimalOfRecord_recordOfDecimal {d : Decimal} (hd : validDecimal d) :
    decimalOfRecord (recordOfDecimal d) = d := by
  obtain ⟨hscale, hmant⟩ := hd
  have hs : d.scale < 256 := hscale.trans_lt (by decide)
  have hm : d.mant < 2 ^ 96 := hmant
  have hwords : d.mant % 2 ^ 32 + 2 ^ 32 * (d.mant / 2 ^ 32 % 2 ^ 32) + 2 ^ 64 * (d.mant / 2 ^ 64 % 2 ^ 32)
      = d.mant := by omega
  simp only [decimalOfRecord, recordWord_recordOfDecimal, List.getD_cons_zero, List.getD_cons_succ,
    BitVec.toNat_ofNat, ctlSign_ctlWord _ _ hs, ctlScale_ctlWord _ _ hs, hwords]

/-- Settles O13: the first word of a record is the `ctl` word, the other three are the mantissa's. -/
theorem exchangeRecordRoundTrip : Obligations.ExchangeRecordRoundTrip := by
  refine fun d hd => ⟨?_, decimalOfRecord_recordOfDecimal hd⟩
  have hwords : [BitVec.ofNat 32 d.mant, BitVec.ofNat 32 (d.mant / 2 ^ 32), BitVec.ofNat 32 (d.mant / 2 ^ 64)]
      = (List.range 3).map fun j => BitVec.ofNat 32 (d.mant / 2 ^ (32 * j)) := by simp [List.range_succ]
  calc recordOfDecimal d = bytesOfWord (ctlWord d.sign d.scale) ++ unpackBytes [BitVec.ofNat 32 d.mant,
        BitVec.ofNat 32 (d.mant / 2 ^ 32), BitVec.ofNat 32 (d.mant / 2 ^ 64)] := rfl
    _ = _ := by rw [bytesOfWord_ctlWord d.sign hd.1, hwords, unpackBytes_words]

end Sys2Proof.Proofs
end

section
/-! What the decoder finds at the head of the stream, and the step that runs it (R50, R73, R262). -/

namespace Sys2Proof.Proofs

open Sys2Proof.Machine Sys2Proof.Safety

/-- The legality check passes legal commands alone, unchanged (R70). -/
theorem checkLegal_eq_ok {i j : Instr} (h : checkLegal i = .ok j) : i = j ∧ i.wellFormed = true := by
  unfold checkLegal at h
  split_ifs at h with hcount hfit hapart hdigits
  cases h
  simp only [Bool.not_eq_true', Bool.not_eq_false] at hcount hfit hapart hdigits
  simp only [Instr.wellFormed, hcount, hfit, hapart, hdigits, Bool.and_self, and_self]

/-- A command read from the words of one complete command is legal (R70). -/
theorem wellFormed_of_decodeCommand {x : Word} {operands : List Word} {i : Instr}
    (h : decodeCommand x operands = .ok i) : i.wellFormed = true := by
  unfold decodeCommand at h
  cases hsel : select x operands with
  | error why => simp [hsel] at h
  | ok j =>
    simp only [hsel] at h
    obtain ⟨rfl, hj⟩ := checkLegal_eq_ok h
    exact hj

/-- A command is found exactly when all its words have arrived and they are legal; the words after them are left
(R70, R73). -/
theorem decode_cons_eq_command {x : Word} {tail rest : List Word} {i : Instr} :
    decode (x :: tail) = .command i rest ↔
      commandLength x - 1 ≤ tail.length ∧ decodeCommand x (tail.take (commandLength x - 1)) = .ok i ∧
        rest = tail.drop (commandLength x - 1) := by
  rw [decode]
  by_cases hlen : tail.length < commandLength x - 1
  · simp only [if_pos hlen, Nat.not_le.2 hlen, reduceCtorEq, false_and]
  · cases decodeCommand x (tail.take (commandLength x - 1)) with
    | error why => simp [hlen]
    | ok j => simp [hlen, Nat.le_of_not_lt hlen, eq_comm]

/-- A command found at the head of a stream is legal (R70). -/
theorem wellFormed_of_decode {ws rest : List Word} {i : Instr} (h : decode ws = .command i rest) :
    i.wellFormed = true := by
  cases ws with
  | nil => cases h
  | cons x tail =>
    obtain ⟨-, hcmd, -⟩ := decode_cons_eq_command.1 h
    exact wellFormed_of_decodeCommand hcmd

/-- Words behind a complete command do not change what the decoder finds (R73). -/
theorem decode_append {ws rest : List Word} {i : Instr} (h : decode ws = .command i rest) (more : List Word) :
    decode (ws ++ more) = .command i (rest ++ more) := by
  cases ws with
  | nil => cases h
  | cons x tail =>
    obtain ⟨hlen, hcmd, rfl⟩ := decode_cons_eq_command.1 h
    rw [List.cons_append, decode_cons_eq_command]
    refine ⟨?_, ?_, ?_⟩
    · rw [List.length_append]
      omega
    · rwa [List.take_append_of_le_length hlen]
    · rw [List.drop_append_of_le_length hlen]

/-- A step runs the command at the head of the stream on the rest of it (R50). -/
theorem step_of_command {s : State} {i : Instr} {rest : List Word} (h : decode s.commands = .command i rest) :
    step s = exec i { s with commands := rest } := by
  rw [step, h]

/-- Settles O1: the decoder checks legality, and a step hands its command to `exec`. -/
theorem stepRunsDecodedCommand : Obligations.StepRunsDecodedCommand :=
  fun _ _ _ h => ⟨wellFormed_of_decode h, step_of_command h⟩

/-! Opcode-table rows. -/

/-- Every command has a first word (R73). -/
theorem commandLength_pos (x : Word) : 0 < commandLength x := by
  unfold commandLength
  split_ifs <;> omega

/-- A table row's words are its first word and as many operand words as that calls for. -/
theorem tableWords_eq_cons (nbits w : Nat) :
    ∃ operands, tableWords nbits w = tableWord nbits w 0 :: operands ∧
      operands.length = commandLength (tableWord nbits w 0) - 1 := by
  obtain ⟨n, hn⟩ := Nat.exists_eq_add_one.2 (commandLength_pos (tableWord nbits w 0))
  rw [tableWords, hn, List.range_succ_eq_map, List.map_cons]
  exact ⟨_, rfl, by simp⟩

/-- The command of a table row uses up all the row's words. -/
theorem decode_tableWords {nbits w : Nat} {i : Instr} (h : decodeTableWord nbits w = some i) :
    decode (tableWords nbits w) = .command i [] := by
  unfold decodeTableWord at h
  cases hd : decode (tableWords nbits w) with
  | incomplete => simp [hd] at h
  | illegal why rest => simp [hd] at h
  | command j rest =>
    obtain rfl : j = i := by simpa [hd] using h
    obtain ⟨operands, hwords, hlen⟩ := tableWords_eq_cons nbits w
    rw [hwords] at hd
    obtain ⟨-, -, rfl⟩ := decode_cons_eq_command.1 hd
    rw [List.drop_of_length_le hlen.le]

/-- Settles O6: the row's words are one command, so the step leaves the stream as it was before them. -/
theorem fetchedTableRowRuns : Obligations.FetchedTableRowRuns := by
  intro s nbits w i h
  have hrow := decode_tableWords h
  have hstream : decode (s.withFetchWord nbits w).commands = .command i s.commands := by
    rw [State.withFetchWord_commands]
    exact decode_append hrow s.commands
  exact ⟨wellFormed_of_decode hrow, step_of_command hstream⟩

end Sys2Proof.Proofs
end

section
/-! Which words select which command: each of the three formats reads back what the encoder writes, and nothing
else (R55 to R62, R70). -/

namespace Sys2Proof.Proofs

open Sys2Proof.Machine Sys2Proof.Safety

/-! Format R (R56, R61). -/

/-- A command is selected only where the fields that must be 0 are 0 (R70 b). -/
theorem unless0_eq_ok {ok : Bool} {r : Except Illegal Instr} {i : Instr} :
    unless0 ok r = .ok i ↔ ok = true ∧ r = .ok i := by
  cases ok <;> simp [unless0]

/-- A word is written from its fields as the encoder names them (R56). -/
theorem wordR_eq_wordOf {f : Fields} {op : Fin 64} {fn : Fin 8} {rd ra rb rc : Reg} {n : LimbField}
    (hop : f.op.val = op.val) (hfn : f.fn.val = fn.val) (hrd : f.rd = rd) (hra : f.ra = ra) (hrb : f.rb = rb)
    (hrc : f.rc = rc) (hn : f.n = n) : [wordR op fn rd ra rb rc n] = [wordOf f] := by
  subst hrd hra hrb hrc hn
  exact congrArg (fun g => [wordOf g]) (Fields.ext_val hop.symm rfl rfl rfl rfl rfl hfn.symm)

/-- A format R word selects a command only if the encoder writes the command as this word: of its fields, the
command keeps the operands, and the others are fixed by `selectR` (R61, R62, R70 b). -/
theorem encode_of_selectR {f : Fields} {i : Instr} (h : selectR f = .ok i) : encode i = [wordOf f] := by
  unfold selectR at h
  split at h
  case h_23 => cases h
  all_goals
    rename_i hop
    obtain ⟨hzero, h⟩ := unless0_eq_ok.1 h
    simp only [Bool.and_eq_true, beq_iff_eq] at hzero
  case h_1 | h_2 | h_13 | h_14 | h_16 | h_18 | h_20 =>
    split at h <;> cases h
    all_goals
      rename_i hfn
      apply wordR_eq_wordOf hop hfn <;> simp [hzero]
  all_goals
    cases h
    apply wordR_eq_wordOf hop <;> simp [hzero]

/-- A format R word selects by its fields (R73). -/
theorem select_wordR {op : Fin 64} (hLI : op.val ≠ opLI) (hDPARSE : op.val ≠ opDPARSE) (fn : Fin 8)
    (rd ra rb rc : Reg) (n : LimbField) (operands : List Word) :
    select (wordR op fn rd ra rb rc n) operands = selectR ⟨op, rd, ra, rb, rc, n, fn⟩ := by
  rw [select, wordR, bits_op_wordOf, fieldsOf_wordOf, if_neg hLI, if_neg hDPARSE]

/-! Format X (R57). -/

theorem select_li (rd : Reg) (imm : Word) : select (wordR 0x30 0 rd 0) [imm] = .ok (.li rd imm) := by
  have hop : bits (wordR 0x30 0 rd 0) 26 6 = opLI := bits_op_wordOf _
  have hlow : bits (wordR 0x30 0 rd 0) 0 21 = 0 := (bits_low_wordOf _).trans (by simp)
  have hrd : (fieldsOf (wordR 0x30 0 rd 0)).rd = rd := by rw [wordR, fieldsOf_wordOf]
  rw [select, if_pos hop, selectX, hlow, hrd]
  rfl

/-- Word 0 of `LI` has no bit outside `op` and `rd` but zeros (R57). -/
theorem wordR_li_fieldsOf {x : Word} (hop : bits x 26 6 = opLI) (hlow : bits x 0 21 = 0) :
    wordR 0x30 0 (fieldsOf x).rd 0 = x := by
  have hx := x.isLt
  apply BitVec.eq_of_toNat_eq
  rw [wordR, wordOf_toNat]
  simp only [bits, opLI, fieldsOf, Fin.val_ofNat, Fin.val_zero] at hop hlow ⊢
  omega

/-- `LI` is selected only by its own words (R57, R70 b). -/
theorem encode_of_selectX {x imm : Word} {i : Instr} (hop : bits x 26 6 = opLI) (h : selectX x imm = .ok i) :
    encode i = [x, imm] := by
  obtain ⟨hlow, h⟩ := unless0_eq_ok.1 h
  cases h
  rw [encode, wordR_li_fieldsOf hop (beq_iff_eq.1 hlow)]

/-! Format P (R58). -/

/-- The fields of word 0 of `DPARSE` (R58). -/
theorem fields_wordP (rd ra : Reg) {len : Nat} (hlen : len ≤ Config.parseLenMax) (sgn : Bool) :
    bits (wordP rd ra len sgn) 26 6 = opDPARSE ∧ (fieldsOf (wordP rd ra len sgn)).rd = rd ∧
      (fieldsOf (wordP rd ra len sgn)).ra = ra ∧ parseLen (wordP rd ra len sgn) = len ∧
      (bits (wordP rd ra len sgn) 0 1 == 1) = sgn := by
  have hword := wordP_toNat rd ra len sgn
  have hlen : len ≤ 32767 := hlen
  have hsgn := Bool.toNat_lt sgn
  have hrd := rd.isLt
  have hra := ra.isLt
  refine ⟨?_, Fin.ext ?_, Fin.ext ?_, ?_, ?_⟩
  · rw [bits, hword, opDPARSE]; omega
  · simp only [fieldsOf, bits, hword, Fin.val_ofNat]; omega
  · simp only [fieldsOf, bits, hword, Fin.val_ofNat]; omega
  · rw [parseLen, bits, hword]; omega
  · rw [bits, hword]; cases sgn <;> simp <;> omega

/-- Word 0 of `DPARSE` has no bit outside its fields (R58). -/
theorem wordP_fieldsOf {x : Word} (hop : bits x 26 6 = opDPARSE) :
    wordP (fieldsOf x).rd (fieldsOf x).ra (parseLen x) (bits x 0 1 == 1) = x := by
  apply BitVec.eq_of_toNat_eq
  rw [wordP_toNat]
  have hsgn : (bits x 0 1 == 1).toNat = bits x 0 1 := by
    have : bits x 0 1 < 2 := Nat.mod_lt _ (by decide)
    interval_cases bits x 0 1 <;> rfl
  have hx := x.isLt
  rw [hsgn]
  simp only [bits, opDPARSE, fieldsOf, parseLen, Fin.val_ofNat] at hop ⊢
  omega

/-- A legal `DPARSE` has at most as many digits as its `len` field can say (R58, R70 g). -/
theorem digits_length_le {rd ra : Reg} {sgn : Bool} {digits : List Byte}
    (h : (Instr.dparse rd ra sgn digits).wellFormed = true) : digits.length ≤ Config.parseLenMax := by
  simp only [Instr.wellFormed, Instr.digitsOk, Bool.and_eq_true, decide_eq_true_eq] at h
  obtain ⟨-, hlen, -⟩ := h
  exact hlen

theorem select_dparse {rd ra : Reg} {sgn : Bool} {digits : List Byte} (hlen : digits.length ≤ Config.parseLenMax) :
    select (wordP rd ra digits.length sgn) (packBytes digits) = .ok (.dparse rd ra sgn digits) := by
  obtain ⟨hop, hrd, hra, hparse, hsgn⟩ := fields_wordP rd ra hlen sgn
  obtain ⟨k, -, hbytes⟩ := unpackBytes_packBytes digits
  rw [select, hop, if_neg (by decide), if_pos rfl, selectP, hrd, hra, hparse, hsgn, hbytes]
  simp

theorem unpackBytes_length (ws : List Word) : (unpackBytes ws).length = 4 * ws.length := by
  induction ws with
  | nil => rfl
  | cons x ws ih =>
    have hword : (bytesOfWord x).length = 4 := rfl
    rw [unpackBytes, List.flatMap_cons, List.length_append, ← unpackBytes, ih, hword, List.length_cons]
    omega

/-- Zero bytes that only fill the last word do not change how bytes are packed: they are the padding (R58). -/
theorem packBytes_append_zeros (l : List Byte) {k : Nat} (hk : k < 4) (hfill : 4 ∣ l.length + k) :
    packBytes (l ++ List.replicate k 0) = packBytes l := by
  obtain ⟨padding, hpadding, hbytes⟩ := unpackBytes_packBytes l
  have hlen := congrArg List.length hbytes
  rw [unpackBytes_length, List.length_append, List.length_replicate] at hlen
  obtain rfl : k = padding := by omega
  exact hbytes ▸ packBytes_unpackBytes (packBytes l)

/-- `DPARSE` is selected only by its own words, padding included (R58, R70 g). -/
theorem encode_of_selectP {x : Word} {operands : List Word} {i : Instr} (hop : bits x 26 6 = opDPARSE)
    (hlen : operands.length = (parseLen x + 3) / 4) (h : selectP x operands = .ok i) :
    encode i = x :: operands := by
  rw [selectP] at h
  split_ifs at h with hpad
  cases h
  have hbytes := unpackBytes_length operands
  have htake : ((unpackBytes operands).take (parseLen x)).length = parseLen x := by
    rw [List.length_take]
    omega
  have hzeros : (unpackBytes operands).drop (parseLen x) = List.replicate (4 * operands.length - parseLen x) 0 := by
    rw [List.eq_replicate_iff, List.length_drop, hbytes]
    exact ⟨rfl, by simpa using hpad⟩
  have hpacked : packBytes ((unpackBytes operands).take (parseLen x)) = operands :=
    calc packBytes ((unpackBytes operands).take (parseLen x))
      _ = packBytes ((unpackBytes operands).take (parseLen x) ++ (unpackBytes operands).drop (parseLen x)) := by
        rw [hzeros, packBytes_append_zeros _ (by omega) (by rw [htake]; omega)]
      _ = operands := by rw [List.take_append_drop, packBytes_unpackBytes]
  rw [encode, htake, wordP_fieldsOf hop, hpacked]

/-! All formats. -/

/-- Every command is encoded as a first word and the operand words behind it (R55). -/
theorem encode_eq_cons (i : Instr) : encode i = (encode i).headD 0 :: (encode i).tail := by
  cases i <;> rfl

/-- The words of a legal command select it (R55 to R62). -/
theorem select_encode {i : Instr} (h : i.wellFormed = true) :
    select ((encode i).headD 0) (encode i).tail = .ok i := by
  cases i with
  | dparse rd ra sgn digits => exact select_dparse (digits_length_le h)
  | li rd imm => exact select_li rd imm
  | _ => exact select_wordR (by decide) (by decide) ..

/-- As many words as their first calls for select a command only if the encoder writes them for it (R70, R73). -/
theorem encode_of_select {x : Word} {operands : List Word} {i : Instr}
    (hlen : operands.length + 1 = commandLength x) (h : select x operands = .ok i) : encode i = x :: operands := by
  rw [select] at h
  rw [commandLength] at hlen
  split_ifs at h hlen with hLI hDPARSE
  · obtain ⟨imm, rfl⟩ := List.length_eq_one_iff.1 (Nat.succ.inj hlen)
    exact encode_of_selectX hLI h
  · exact encode_of_selectP hDPARSE (by omega) h
  · obtain rfl := List.length_eq_zero_iff.1 (Nat.succ.inj hlen)
    rw [encode_of_selectR h, wordOf_fieldsOf]

end Sys2Proof.Proofs
end

section
/-! The decoder and the encoder are inverse to each other, for every command and every stream (R70, R73, R262). -/

namespace Sys2Proof.Proofs

open Sys2Proof.Machine Sys2Proof.Safety

/-- The first word of a legal command tells how many words the command has (R73). -/
theorem commandLength_encode {i : Instr} (h : i.wellFormed = true) :
    commandLength ((encode i).headD 0) = (encode i).length := by
  cases i with
  | dparse rd ra sgn digits => exact Laws.EncodedLength.dparse rd ra sgn digits h
  | li rd imm => exact Laws.EncodedLength.li rd imm h
  | _ => exact Laws.EncodedLength.commandLength_wordR _ _ _ _ _ _ _ (by decide) (by decide)

/-- A legal command passes the legality check (R70). -/
theorem checkLegal_of_wellFormed {i : Instr} (h : i.wellFormed = true) : checkLegal i = .ok i := by
  simp only [Instr.wellFormed, Bool.and_eq_true] at h
  obtain ⟨⟨⟨hcount, hfit⟩, hapart⟩, hdigits⟩ := h
  simp [checkLegal, hcount, hfit, hapart, hdigits]

/-- The words of one complete command are legal when they select a legal command (R70). -/
theorem decodeCommand_eq_ok {x : Word} {operands : List Word} {i : Instr} :
    decodeCommand x operands = .ok i ↔ select x operands = .ok i ∧ i.wellFormed = true := by
  rw [decodeCommand]
  cases hsel : select x operands with
  | error why => simp
  | ok j =>
    constructor
    · intro h
      obtain ⟨rfl, hj⟩ := checkLegal_eq_ok h
      exact ⟨rfl, hj⟩
    · rintro ⟨hj, hi⟩
      cases hj
      exact checkLegal_of_wellFormed hi

/-- Settles O7: the first word gives the length, the words select the command, and the check passes it. -/
theorem decodeOfEncodeIsTheCommand : Obligations.DecodeOfEncodeIsTheCommand := by
  intro i rest h
  have hlen : commandLength ((encode i).headD 0) - 1 = (encode i).tail.length := by
    rw [commandLength_encode h, List.length_tail]
  have hcmd := decodeCommand_eq_ok.2 ⟨select_encode h, h⟩
  rw [encode_eq_cons, List.cons_append, decode_cons_eq_command, hlen, List.take_left, List.drop_left]
  exact ⟨by simp, hcmd, rfl⟩

/-- Settles O8: each format selects a command only from the words the encoder writes for it. -/
theorem decodedWordsAreTheEncoding : Obligations.DecodedWordsAreTheEncoding := by
  intro ws rest i h
  refine ⟨wellFormed_of_decode h, ?_⟩
  cases ws with
  | nil => cases h
  | cons x tail =>
    obtain ⟨hlen, hcmd, rfl⟩ := decode_cons_eq_command.1 h
    obtain ⟨hsel, -⟩ := decodeCommand_eq_ok.1 hcmd
    have hwords : (tail.take (commandLength x - 1)).length + 1 = commandLength x := by
      have := commandLength_pos x
      rw [List.length_take]
      omega
    rw [encode_of_select hwords hsel, List.cons_append, List.take_append_drop]

end Sys2Proof.Proofs
end

section
/-! How a step consumes the stream: waiting, illegal and reserved words (R69, R73, R224). -/

namespace Sys2Proof.Proofs

open Sys2Proof.Machine Sys2Proof.Safety

/-- The `op` field is the top of the word (R56). -/
theorem bits_op (x : Word) : bits x 26 6 = x.toNat / 2 ^ 26 :=
  Nat.mod_eq_of_lt (Nat.div_lt_of_lt_mul x.isLt)

/-- A command waits until its last word has arrived (R73). -/
theorem decode_of_short {x : Word} {tail : List Word} (h : (x :: tail).length < commandLength x) :
    decode (x :: tail) = .incomplete := by
  rw [List.length_cons] at h
  rw [decode, if_pos (by omega)]

/-- A complete command is legal or not, and the words after it are those beyond its length (R70, R73). -/
theorem decode_of_complete {x : Word} {tail : List Word} (h : commandLength x ≤ (x :: tail).length) :
    (∃ why, decode (x :: tail) = .illegal why ((x :: tail).drop (commandLength x))) ∨
      ∃ i, decode (x :: tail) = .command i ((x :: tail).drop (commandLength x)) := by
  rw [List.length_cons] at h
  obtain ⟨operands, hlen⟩ := Nat.exists_eq_add_one.2 (commandLength_pos x)
  rw [decode, if_neg (by omega), hlen, Nat.add_sub_cancel, List.drop_succ_cons]
  cases decodeCommand x (tail.take operands) with
  | error why => exact .inl ⟨why, rfl⟩
  | ok i => exact .inr ⟨i, rfl⟩

theorem step_of_incomplete {s : State} (h : decode s.commands = .incomplete) : step s = .next s := by
  rw [step, h]

/-- A step takes an illegal command off the stream and completes `IllegalCommand` (R224). -/
theorem step_of_illegal {s : State} {why : Illegal} {rest : List Word} (h : decode s.commands = .illegal why rest) :
    step s = .next ({ s with commands := rest }.completeError .illegalCommand) := by
  rw [step, h]

/-- Settles O3: the decoder leaves the words beyond the length, and neither a completion nor `exec` touches them. -/
theorem streamIsConsumedByLength : Obligations.StreamIsConsumedByLength := by
  refine ⟨fun s h => step_of_incomplete (by rw [h]; rfl), fun s x tail hs => ?_⟩
  have hlength : (if x.toNat / 2 ^ 26 = 0x30 then 2
      else if x.toNat / 2 ^ 26 = 0x2C then 1 + (x.toNat / 2 % 2 ^ 15 + 3) / 4 else 1) = commandLength x := by
    rw [commandLength, bits_op]
    rfl
  rw [hlength]
  refine ⟨fun hshort => step_of_incomplete (by rw [hs, decode_of_short hshort]), fun hcomplete t ht => ?_⟩
  have hdecoded := decode_of_complete hcomplete
  rw [← hs] at hdecoded ⊢
  obtain ⟨why, hd⟩ | ⟨i, hd⟩ := hdecoded
  · cases (step_of_illegal hd).symm.trans ht
    rfl
  · exact exec_next_commands ((step_of_command hd).symm.trans ht)

/-- Settles O4: illegal words are completed by the step, an ill-formed term by `exec`. -/
theorem illegalCommandChangesOnlyErr : Obligations.IllegalCommandChangesOnlyErr :=
  ⟨fun _ _ _ h => ⟨_, step_of_illegal h, endsWithError_completeError _ .illegalCommand⟩,
    fun _ s h => ⟨_, exec_of_illegal h s, endsWithError_completeError s .illegalCommand⟩⟩

/-- The `op` values that stand for no command (R69). -/
def reservedOps : List Nat :=
  [0x00, 0x04, 0x05, 0x06, 0x07, 0x0B, 0x0C, 0x0D, 0x0E, 0x0F, 0x16, 0x17, 0x1B, 0x1C, 0x1D, 0x1E, 0x1F, 0x23, 0x24,
    0x25, 0x26, 0x27, 0x2A, 0x2D, 0x2E, 0x2F, 0x32, 0x33, 0x34, 0x35, 0x36, 0x37, 0x38, 0x39, 0x3A, 0x3B, 0x3C, 0x3D,
    0x3E, 0x3F]

/-- No arm of the selection but the last is for a reserved `op` (R69, R70 a). -/
theorem selectR_of_reserved {f : Fields} (h : f.op.val ∈ reservedOps) : selectR f = .error .reservedOp := by
  unfold selectR
  split
  case h_23 => rfl
  all_goals
    rename_i hop
    rw [hop] at h
    exact absurd h (by decide)

/-- A word with a reserved `op` is an illegal command of one word (R69). -/
theorem decode_of_reserved {x : Word} (h : bits x 26 6 ∈ reservedOps) (tail : List Word) :
    decode (x :: tail) = .illegal .reservedOp tail := by
  have hLI : bits x 26 6 ≠ opLI := fun hop => absurd (hop ▸ h) (by decide)
  have hDPARSE : bits x 26 6 ≠ opDPARSE := fun hop => absurd (hop ▸ h) (by decide)
  have hlen : commandLength x = 1 := by rw [commandLength, if_neg hLI, if_neg hDPARSE]
  have hfield : (fieldsOf x).op.val = bits x 26 6 := Nat.mod_mod _ _
  have hsel (operands : List Word) : select x operands = .error .reservedOp := by
    rw [select, if_neg hLI, if_neg hDPARSE, selectR_of_reserved (hfield ▸ h)]
  simp [decode, hlen, decodeCommand, hsel]

/-- Settles O5: all zeros and all ones have the reserved `op` values 0 and 0x3F. -/
theorem reservedOpIsOneWordIllegalCommand : Obligations.ReservedOpIsOneWordIllegalCommand := by
  rintro x tail (h | rfl | rfl)
  · exact decode_of_reserved (bits_op x ▸ h) tail
  · exact decode_of_reserved (by decide) tail
  · exact decode_of_reserved (by decide) tail

end Sys2Proof.Proofs
end

section
/-! The opcode table: a command's first word matches its own row's mask and match and no other's (R63). -/

namespace Sys2Proof.Proofs

open Sys2Proof.Machine Sys2Proof.Safety

theorem bits_and (x y : Word) (lo width : Nat) : bits (x &&& y) lo width = bits x lo width &&& bits y lo width := by
  simp only [bits, BitVec.toNat_and, ← Nat.shiftRight_eq_div_pow, Nat.shiftRight_and_distrib, Nat.and_mod_two_pow]

/-- A word is its seven fields (R56). -/
theorem eq_of_bits {x y : Word} (hop : bits x 26 6 = bits y 26 6) (hrd : bits x 21 5 = bits y 21 5)
    (hra : bits x 16 5 = bits y 16 5) (hrb : bits x 11 5 = bits y 11 5) (hrc : bits x 6 5 = bits y 6 5)
    (hn : bits x 3 3 = bits y 3 3) (hfn : bits x 0 3 = bits y 0 3) : x = y := by
  have hfields : fieldsOf x = fieldsOf y := by simp only [fieldsOf, hop, hrd, hra, hrb, hrc, hn, hfn]
  rw [← wordOf_fieldsOf x, hfields, wordOf_fieldsOf]

/-- The fields below `op` of a word written from fields (R56). -/
theorem bits_wordOf (f : Fields) :
    bits (wordOf f) 21 5 = f.rd.val ∧ bits (wordOf f) 16 5 = f.ra.val ∧ bits (wordOf f) 11 5 = f.rb.val ∧
      bits (wordOf f) 6 5 = f.rc.val ∧ bits (wordOf f) 3 3 = f.n.val ∧ bits (wordOf f) 0 3 = f.fn.val := by
  have hword := wordOf_toNat f
  have := f.rd.isLt
  have := f.ra.isLt
  have := f.rb.isLt
  have := f.rc.isLt
  have := f.n.isLt
  have := f.fn.isLt
  simp only [bits, hword]
  omega

/-- A word is masked field by field (R56, R63). -/
theorem wordOf_and_eq {f : Fields} {mask value : Word} (hop : f.op.val &&& bits mask 26 6 = bits value 26 6)
    (hrd : f.rd.val &&& bits mask 21 5 = bits value 21 5) (hra : f.ra.val &&& bits mask 16 5 = bits value 16 5)
    (hrb : f.rb.val &&& bits mask 11 5 = bits value 11 5) (hrc : f.rc.val &&& bits mask 6 5 = bits value 6 5)
    (hn : f.n.val &&& bits mask 3 3 = bits value 3 3) (hfn : f.fn.val &&& bits mask 0 3 = bits value 0 3) :
    wordOf f &&& mask = value := by
  obtain ⟨rd_eq, ra_eq, rb_eq, rc_eq, n_eq, fn_eq⟩ := bits_wordOf f
  apply eq_of_bits <;> rw [bits_and]
  · rwa [bits_op_wordOf]
  · rwa [rd_eq]
  · rwa [ra_eq]
  · rwa [rb_eq]
  · rwa [rc_eq]
  · rwa [n_eq]
  · rwa [fn_eq]

/-- The first word of a command matches its own row: the mask is 0 at the operands (R63). -/
theorem matches_own_row {i : Instr} (h : i.wellFormed = true) :
    (encode i).headD 0 &&& (matchMask i).2 = (matchMask i).1 := by
  cases i with
  | dparse rd ra sgn digits =>
    obtain ⟨hword, -⟩ := fields_wordP rd ra (digits_length_le h) sgn
    show wordP rd ra digits.length sgn &&& _ = _
    rw [← wordOf_fieldsOf (wordP rd ra digits.length sgn)]
    apply wordOf_and_eq
    case hop =>
      simp only [fieldsOf, hword, matchMask]
      decide
    all_goals simp [bits, matchMask]
  | _ => apply wordOf_and_eq <;> simp [bits, matchMask]

/-- The rows of the opcode table, each taken from one command of the row (R63). -/
def tableRows : List (Word × Word) :=
  [Instr.add 0 0 0 0, .adc 0 0 0 0, .sub 0 0 0 0, .sbb 0 0 0 0, .neg 0 0 0, .mul32 0 0 0, .mul64x32 0 0 0,
    .mul64 0 0 0, .div64by32 0 0 0 0, .div128by64 0 0 0 0, .div96by32 0 0 0 0, .div128by96 0 0 0 0,
    .div160by96 0 0 0 0, .div96by64 0 0 0 0, .msb32 0 0, .msb64 0 0, .lzc32 0 0, .lzc64 0 0, .shl128 0 0 0,
    .reduce 0 0 0 0, .reduceAcc 0 0 0 0, .reduceClr 0 0 0 0, .scaleres 0 0 0, .rndhe 0 0 0 0, .rndheS 0 0 0 0,
    .dmul 0 0 0, .dadd 0 0 0, .dsub 0 0 0, .ddiv 0 0 0, .dparse 0 0 false [], .li 0 0, .rdReg 0].map matchMask

theorem matchMask_mem_tableRows (i : Instr) : matchMask i ∈ tableRows := by
  cases i <;> simp [tableRows, matchMask]

/-- Two rows, each a match and a mask, ask for different values of a bit that both of them fix (R63). -/
def RowsDiffer (r r' : Word × Word) : Prop := r.1 &&& r'.2 ≠ r'.1 &&& r.2

theorem tableRows_differ : tableRows.Pairwise RowsDiffer := by
  unfold RowsDiffer
  decide

/-- No word matches two rows (R63). -/
theorem row_unique {i j : Instr} {x : Word} (hi : x &&& (matchMask i).2 = (matchMask i).1)
    (hj : x &&& (matchMask j).2 = (matchMask j).1) : matchMask i = matchMask j := by
  have hagree : (matchMask i).1 &&& (matchMask j).2 = (matchMask j).1 &&& (matchMask i).2 := by
    rw [← hi, ← hj, BitVec.and_assoc, BitVec.and_assoc, BitVec.and_comm (matchMask i).2]
  have hsymm : Std.Symm RowsDiffer := ⟨fun _ _ => Ne.symm⟩
  by_contra hne
  exact tableRows_differ.forall (matchMask_mem_tableRows i) (matchMask_mem_tableRows j) hne hagree

/-- Settles O9: a word matches at most one row, and a command's first word matches its own. -/
theorem matchMaskSelectsOneRow : Obligations.MatchMaskSelectsOneRow := by
  intro i j h
  refine ⟨row_unique (matches_own_row h), fun hrow => ?_⟩
  rw [← hrow]
  exact matches_own_row h

end Sys2Proof.Proofs
end

section
/-! A value group cut in two: what reading and writing `n₁ + n₂` limbs has to do with the first `n₁` and the next
`n₂` (R22, R86). -/

namespace Sys2Proof.Proofs

open Sys2Proof.Machine

/-- `n₁ + n₂` limbs count in a base that is the product of the two parts' bases. -/
theorem two_pow_limbs_add {R : Type} [Monoid R] (x : R) (n₁ n₂ : Nat) :
    x ^ (32 * (n₁ + n₂)) = x ^ (32 * n₁) * x ^ (32 * n₂) := by
  rw [Nat.mul_add, pow_add]

/-- A group's value is its low part plus its high part, which counts in units of `2^(32n₁)` (R23). -/
theorem group_add (s : State) (r n₁ n₂ : Nat) :
    s.group r (n₁ + n₂) = s.group r n₁ + 2 ^ (32 * n₁) * s.group (r + n₁) n₂ := by
  induction n₁ generalizing r with
  | zero => simp [State.group]
  | succ n₁ ih =>
    rw [Nat.add_right_comm, State.group, State.group, ih, two_pow_limb_succ, Nat.add_right_comm r 1 n₁,
      Nat.add_assoc r n₁ 1]
    ring

/-- Writing a group writes its low part, then its high part. -/
theorem setGroup_add (s : State) (r n₁ n₂ v : Nat) :
    s.setGroup r (n₁ + n₂) v = (s.setGroup r n₁ v).setGroup (r + n₁) n₂ (v / 2 ^ (32 * n₁)) := by
  induction n₁ generalizing s r v with
  | zero => simp [State.setGroup]
  | succ n₁ ih =>
    rw [Nat.add_right_comm, State.setGroup, State.setGroup, ih, two_pow_limb_succ, Nat.div_div_eq_div_mul,
      Nat.add_right_comm r 1 n₁, Nat.add_assoc r n₁ 1]

/-- Only the value modulo `2^(32n)` reaches a group of `n` limbs. -/
theorem setGroup_mod (s : State) (r n v : Nat) : s.setGroup r n (v % 2 ^ (32 * n)) = s.setGroup r n v := by
  induction n generalizing s r v with
  | zero => rfl
  | succ n ih =>
    have hlow : BitVec.ofNat 32 (v % (2 ^ 32 * 2 ^ (32 * n))) = BitVec.ofNat 32 v :=
      BitVec.eq_of_toNat_eq (Nat.mod_mul_right_mod v _ _)
    rw [State.setGroup, State.setGroup, two_pow_limb_succ, hlow, Nat.mod_mul_right_div_self, ih]

/-- What a group write does to the registers depends on the registers alone, not on flags or streams. -/
theorem setGroup_registers_congr {s u : State} (hw : s.w = u.w) (hmarks : s.written = u.written) (r n v : Nat) :
    (s.setGroup r n v).w = (u.setGroup r n v).w ∧ (s.setGroup r n v).written = (u.setGroup r n v).written := by
  induction n generalizing s u r v with
  | zero => exact ⟨hw, hmarks⟩
  | succ n ih =>
    exact ih (congrArg (·.setIfInBounds r (BitVec.ofNat 32 v)) hw) (congrArg (·.setIfInBounds r true) hmarks) _ _

/-- Digits of a residue: cutting off the low part commutes with reducing the high part. -/
theorem emod_mul_ediv (x : Int) {p : Int} (hp : 0 < p) (q : Int) : x % (p * q) / p = x / p % q := by
  rw [Int.emod_def, Int.mul_assoc, Int.sub_mul_ediv_left _ _ hp.ne', ← Int.ediv_ediv_of_nonneg hp.le, ← Int.emod_def]

/-- Writing the residue of an integer writes the residue of its low part, then that of its high part. -/
theorem setGroup_residue_add (s : State) (r n₁ n₂ : Nat) (x : Int) :
    s.setGroup r (n₁ + n₂) (x % 2 ^ (32 * (n₁ + n₂))).toNat =
      (s.setGroup r n₁ (x % 2 ^ (32 * n₁)).toNat).setGroup (r + n₁) n₂
        (x / 2 ^ (32 * n₁) % 2 ^ (32 * n₂)).toNat := by
  have hpos : (0 : Int) < 2 ^ (32 * n₁) := by positivity
  obtain ⟨v, hv⟩ := Int.eq_ofNat_of_zero_le (Int.emod_nonneg x (by positivity : (2 : Int) ^ (32 * (n₁ + n₂)) ≠ 0))
  have hlow : x % 2 ^ (32 * n₁) = (v % 2 ^ (32 * n₁) : Nat) := by
    push_cast
    rw [← hv, Int.emod_emod_of_dvd x (pow_dvd_pow 2 (by omega))]
  have hhigh : x / 2 ^ (32 * n₁) % 2 ^ (32 * n₂) = (v / 2 ^ (32 * n₁) : Nat) := by
    push_cast
    rw [← hv, two_pow_limbs_add, emod_mul_ediv x hpos]
  rw [hv, hlow, hhigh, Int.toNat_natCast, Int.toNat_natCast, Int.toNat_natCast, setGroup_mod, setGroup_add]

end Sys2Proof.Proofs
end

section
/-! `ADD`, `ADC`, `SUB`, `SBB` and `NEG`: each ends by writing the residue of an integer and one flag (R81 to R85),
and a wide one splits into a chain (R86). -/

namespace Sys2Proof.Proofs

open Sys2Proof.Machine Sys2Proof.Safety

/-- The ending that the five commands share: the residue of `x` to `G(rd, n)`, `c` to `C` (R81 to R85). -/
def writeResidue (n rd : Nat) (x : Int) (c : Bool) (s : State) : State :=
  ((s.setGroup rd n (x % 2 ^ (32 * n)).toNat).setC c).completeOk

theorem writeResidue_flags (n rd : Nat) (x : Int) (c : Bool) (s : State) :
    (writeResidue n rd x c s).flags = { c := c, s := s.flags.s, err := 0 } := by
  simp [writeResidue, State.completeOk_eq, Code.bits]

/-- The destination holds the residue. -/
theorem writeResidue_group {n rd : Nat} (x : Int) (c : Bool) (s : State) (hrd : rd + n ≤ 32) :
    ((writeResidue n rd x c s).group rd n : Int) = x % 2 ^ (32 * n) := by
  have hpos : (0 : Int) < 2 ^ (32 * n) := by positivity
  have hnonneg : 0 ≤ x % 2 ^ (32 * n) := Int.emod_nonneg x hpos.ne'
  have hlt : (x % 2 ^ (32 * n)).toNat < 2 ^ (32 * n) :=
    (Int.toNat_lt hnonneg).2 (mod_cast Int.emod_lt_of_pos x hpos)
  rw [writeResidue, State.completeOk_eq, State.complete_group, State.setC_group, State.group_setGroup _ _ _ _ hrd hlt,
    Int.toNat_of_nonneg hnonneg]

/-- A group apart from the destination keeps its value. -/
theorem writeResidue_group_of_apart {n rd r n' : Nat} (x : Int) (c : Bool) (s : State) (hrd : rd + n ≤ 32)
    (hapart : Group.meets ⟨rd, n⟩ ⟨r, n'⟩ = false) : (writeResidue n rd x c s).group r n' = s.group r n' := by
  rw [writeResidue, State.completeOk_eq, State.complete_group, State.setC_group,
    State.group_setGroup_of_apart _ _ _ _ _ _ hrd (apart_of_not_meets hapart).symm]

theorem writeResidue_endsOk {n rd : Nat} (x : Int) (c : Bool) (s : State) (hrd : rd + n ≤ 32) :
    endsOk [⟨rd, n⟩] 0 c s.flags.s s (writeResidue n rd x c s) :=
  endsOk_one_group s rd n _ c hrd

/-- The states agree on every register, mark and flag: on all that R86 calls the effect. -/
def SameEffect (t₂ t : State) : Prop := t₂.w = t.w ∧ t₂.written = t.written ∧ t₂.flags = t.flags

/-- A wide write is a narrow write of the low part and one of the high part, the first flag overwritten (R86). -/
theorem writeResidue_chain (n₁ n₂ rd : Nat) (x : Int) (c₁ c : Bool) (s : State) :
    SameEffect (writeResidue n₂ (rd + n₁) (x / 2 ^ (32 * n₁)) c (writeResidue n₁ rd x c₁ s))
      (writeResidue (n₁ + n₂) rd x c s) := by
  obtain ⟨hw, hmarks⟩ := setGroup_registers_congr (s := writeResidue n₁ rd x c₁ s)
    (u := s.setGroup rd n₁ (x % 2 ^ (32 * n₁)).toNat) rfl rfl (rd + n₁) n₂ (x / 2 ^ (32 * n₁) % 2 ^ (32 * n₂)).toNat
  rw [← setGroup_residue_add] at hw hmarks
  exact ⟨hw, hmarks, by simp only [writeResidue_flags]⟩

/-- The residue written depends on the integer's residue alone. -/
theorem writeResidue_congr {n : Nat} {x y : Int} (h : x % 2 ^ (32 * n) = y % 2 ^ (32 * n)) (rd : Nat) (c : Bool)
    (s : State) : writeResidue n rd x c s = writeResidue n rd y c s := by
  rw [writeResidue, h, writeResidue]

/-! The carry and the borrow, as what an integer has beyond `n` limbs. -/

/-- A sum of two groups and a carry has 0 or 1 beyond its `n` limbs (R81, R82). -/
theorem sum_div_eq_carry (s : State) (ra rb n : Nat) {cin : Nat} (hcin : cin ≤ 1) :
    (s.group ra n + s.group rb n + cin) / 2 ^ (32 * n) =
      (decide (2 ^ (32 * n) ≤ s.group ra n + s.group rb n + cin)).toNat := by
  have ha := s.group_lt ra n
  have hb := s.group_lt rb n
  by_cases h : 2 ^ (32 * n) ≤ s.group ra n + s.group rb n + cin
  · rw [decide_eq_true h, Bool.toNat_true]
    exact Nat.div_eq_of_lt_le (by omega) (by omega)
  · rw [decide_eq_false h, Bool.toNat_false]
    exact Nat.div_eq_of_lt (Nat.lt_of_not_le h)

/-- A difference of two groups and a borrow has 0 or -1 beyond its `n` limbs (R83, R84). -/
theorem diff_ediv_eq_borrow (s : State) (ra rb n : Nat) {bin : Nat} (hbin : bin ≤ 1) :
    ((s.group ra n : Int) - s.group rb n - bin) / 2 ^ (32 * n) =
      -(decide (s.group ra n < s.group rb n + bin)).toNat := by
  have ha : (s.group ra n : Int) < 2 ^ (32 * n) := mod_cast s.group_lt ra n
  have hb : (s.group rb n : Int) < 2 ^ (32 * n) := mod_cast s.group_lt rb n
  have hpos : (0 : Int) < 2 ^ (32 * n) := by positivity
  by_cases h : s.group ra n < s.group rb n + bin
  · rw [decide_eq_true h, Bool.toNat_true, Int.ediv_eq_iff_of_pos hpos]
    constructor <;> push_cast <;> omega
  · rw [decide_eq_false h, Bool.toNat_false, Int.ediv_eq_iff_of_pos hpos]
    constructor <;> push_cast <;> omega

theorem addGroups_eq (n rd ra rb : Nat) {cin : Nat} (hcin : cin ≤ 1) (s : State) :
    addGroups n rd ra rb cin s = writeResidue n rd (s.group ra n + s.group rb n + cin : Nat)
      (decide (2 ^ (32 * n) ≤ s.group ra n + s.group rb n + cin)) s := by
  have hcarry : carryOut n (s.group ra n + s.group rb n + cin) =
      decide (2 ^ (32 * n) ≤ s.group ra n + s.group rb n + cin) := by
    rw [carryOut, sum_div_eq_carry s ra rb n hcin]
    simp
  rw [addGroups, hcarry]
  rfl

theorem subGroups_eq (n rd ra rb bin : Nat) (s : State) :
    subGroups n rd ra rb bin s = writeResidue n rd ((s.group ra n : Int) - s.group rb n - bin)
      (decide (s.group ra n < s.group rb n + bin)) s := by
  have hborrow : borrowOut ((s.group ra n : Int) - s.group rb n - bin) =
      decide (s.group ra n < s.group rb n + bin) := decide_eq_decide.2 (by omega)
  rw [subGroups, hborrow]
  rfl

/-! The commands' results. -/

/-- What an addition leaves: the wrapped sum, its carry, and the frame (R81, R82). -/
theorem addGroups_result {n rd cin : Nat} (ra rb : Nat) (s : State) (hrd : rd + n ≤ 32) (hcin : cin ≤ 1) :
    (addGroups n rd ra rb cin s).group rd n = (s.group ra n + s.group rb n + cin) % 2 ^ (32 * n) ∧
      endsOk [⟨rd, n⟩] 0 (decide (2 ^ (32 * n) ≤ s.group ra n + s.group rb n + cin)) s.flags.s s
        (addGroups n rd ra rb cin s) := by
  rw [addGroups_eq n rd ra rb hcin]
  refine ⟨Int.natCast_inj.1 ?_, writeResidue_endsOk _ _ s hrd⟩
  rw [writeResidue_group _ _ s hrd]
  push_cast
  rfl

/-- What a subtraction leaves: the wrapped difference, its borrow, and the frame (R83, R84). -/
theorem subGroups_result {n rd : Nat} (ra rb bin : Nat) (s : State) (hrd : rd + n ≤ 32) :
    ((subGroups n rd ra rb bin s).group rd n : Int) =
        ((s.group ra n : Int) - s.group rb n - bin) % 2 ^ (32 * n) ∧
      endsOk [⟨rd, n⟩] 0 (decide (s.group ra n < s.group rb n + bin)) s.flags.s s
        (subGroups n rd ra rb bin s) := by
  rw [subGroups_eq]
  exact ⟨writeResidue_group _ _ s hrd, writeResidue_endsOk _ _ s hrd⟩

section
variable {n : LimbField} {rd ra rb : Reg}

/-- When one of the four three-operand commands is legal (R70 c, e): the other three differ from `ADD` in nothing
that legality looks at. -/
theorem wellFormed_add_iff : (Instr.add n rd ra rb).wellFormed = true ↔
    n.val ≤ 5 ∧ rd.val + limbs n ≤ 32 ∧ ra.val + limbs n ≤ 32 ∧ rb.val + limbs n ≤ 32 := by
  simp [Instr.wellFormed, Instr.limbCountOk, Instr.groupsFit, Instr.destsApart, Instr.digitsOk, Instr.dests,
    Instr.srcs, Group.fits, groupsApart]

theorem wellFormed_adc : (Instr.adc n rd ra rb).wellFormed = (Instr.add n rd ra rb).wellFormed := rfl
theorem wellFormed_sub : (Instr.sub n rd ra rb).wellFormed = (Instr.add n rd ra rb).wellFormed := rfl
theorem wellFormed_sbb : (Instr.sbb n rd ra rb).wellFormed = (Instr.add n rd ra rb).wellFormed := rfl

theorem wellFormed_neg_iff : (Instr.neg n rd ra).wellFormed = true ↔
    n.val ≤ 5 ∧ rd.val + limbs n ≤ 32 ∧ ra.val + limbs n ≤ 32 := by
  simp [Instr.wellFormed, Instr.limbCountOk, Instr.groupsFit, Instr.destsApart, Instr.digitsOk, Instr.dests,
    Instr.srcs, Group.fits, groupsApart]

theorem exec_add_of_legal (h : (Instr.add n rd ra rb).wellFormed = true) (s : State) :
    exec (.add n rd ra rb) s = .next (addGroups (limbs n) rd ra rb 0 s) := whenLegal_of_legal h s _

theorem exec_adc_of_legal (h : (Instr.adc n rd ra rb).wellFormed = true) (s : State) :
    exec (.adc n rd ra rb) s = .next (addGroups (limbs n) rd ra rb s.flags.c.toNat s) := whenLegal_of_legal h s _

theorem exec_sub_of_legal (h : (Instr.sub n rd ra rb).wellFormed = true) (s : State) :
    exec (.sub n rd ra rb) s = .next (subGroups (limbs n) rd ra rb 0 s) := whenLegal_of_legal h s _

theorem exec_sbb_of_legal (h : (Instr.sbb n rd ra rb).wellFormed = true) (s : State) :
    exec (.sbb n rd ra rb) s = .next (subGroups (limbs n) rd ra rb s.flags.c.toNat s) := whenLegal_of_legal h s _

/-- `NEG` writes the residue of `-x`, as if `x` were subtracted from 0 (R85). -/
theorem exec_neg_of_legal (h : (Instr.neg n rd ra).wellFormed = true) (s : State) :
    exec (.neg n rd ra) s =
      .next (writeResidue (limbs n) rd (-s.group ra (limbs n)) (decide (s.group ra (limbs n) ≠ 0)) s) := by
  have hx : s.group ra (limbs n) ≤ 2 ^ (32 * limbs n) := (s.group_lt ra (limbs n)).le
  have hresidue : (2 ^ (32 * limbs n) - s.group ra (limbs n)) % 2 ^ (32 * limbs n) =
      (-(s.group ra (limbs n) : Int) % 2 ^ (32 * limbs n)).toNat := by
    rw [Int.emod_eq_add_self_emod, neg_add_eq_sub, ← Int.toNat_natCast (_ % _)]
    push_cast [hx]
    rfl
  refine (whenLegal_of_legal h s _).trans ?_
  rw [hresidue]
  rfl

end

/-- Settles O26: both are the shared addition, `ADC` with the flag as its carry in. -/
theorem additionResults : Obligations.AdditionResults := by
  intro n rd ra rb s N
  constructor
  · intro h
    obtain ⟨-, hrd, -⟩ := wellFormed_add_iff.1 h
    exact ⟨_, exec_add_of_legal h s, addGroups_result ra rb s hrd zero_le_one⟩
  · intro h
    obtain ⟨-, hrd, -⟩ := wellFormed_add_iff.1 (wellFormed_adc ▸ h)
    exact ⟨_, exec_adc_of_legal h s, addGroups_result ra rb s hrd (Bool.toNat_le _)⟩

/-- Settles O27: both are the shared subtraction, `SBB` with the flag as its borrow in. -/
theorem subtractionResults : Obligations.SubtractionResults := by
  intro n rd ra rb s N
  constructor
  · intro h
    obtain ⟨-, hrd, -⟩ := wellFormed_add_iff.1 (wellFormed_sub ▸ h)
    refine ⟨_, exec_sub_of_legal h s, ?_⟩
    simpa using subGroups_result ra rb 0 s hrd
  · intro h
    obtain ⟨-, hrd, -⟩ := wellFormed_add_iff.1 (wellFormed_sbb ▸ h)
    exact ⟨_, exec_sbb_of_legal h s, subGroups_result ra rb _ s hrd⟩

/-- A negative integer that a borrow reaches is represented by its two's complement (R87). -/
theorem emod_of_borrow {x m : Int} (hlow : -m ≤ x) (hneg : x < 0) : x % m = x + m := by
  rw [Int.emod_eq_add_self_emod, Int.emod_eq_of_lt (by omega) (by omega)]

/-- Settles O28: the residue of `-x` is 0 for 0 and `2^(32n) - x` otherwise. -/
theorem negationResult : Obligations.NegationResult := by
  intro n rd ra s h
  obtain ⟨-, hrd, -⟩ := wellFormed_neg_iff.1 h
  have hgroup := writeResidue_group (-(s.group ra (limbs n) : Int)) (decide (s.group ra (limbs n) ≠ 0)) s hrd
  refine ⟨_, exec_neg_of_legal h s, fun hzero => ?zero, fun hne => ?nonzero, writeResidue_endsOk _ _ s hrd⟩
  case zero =>
    rw [hzero] at hgroup ⊢
    simpa using hgroup
  case nonzero =>
    have hlt : (s.group ra (limbs n) : Int) < 2 ^ (32 * limbs n) := mod_cast s.group_lt ra (limbs n)
    rw [emod_of_borrow (by omega) (by omega)] at hgroup
    refine Int.natCast_inj.1 ?_
    rw [Nat.cast_add, hgroup, neg_add_cancel_comm, Nat.cast_pow, Nat.cast_ofNat]

/-- Settles O29: the subtraction leaves `A - B + 2^(32n)`, not 0, and its two's complement is `B - A`. -/
theorem negationRecoversTheMagnitude : Obligations.NegationRecoversTheMagnitude := by
  intro n rd ra rb s h hborrow
  obtain ⟨hn, hrd, -⟩ := wellFormed_add_iff.1 (wellFormed_sub ▸ h)
  obtain ⟨t, ht, hdiff, ⟨htflags, -⟩⟩ := (subtractionResults n rd ra rb s).1 h
  obtain ⟨u, hu, -, hneg, ⟨huflags, -⟩⟩ := negationResult n rd rd t (wellFormed_neg_iff.2 ⟨hn, hrd, hrd⟩)
  have hlt : (s.group rb (limbs n) : Int) < 2 ^ (32 * limbs n) := mod_cast s.group_lt rb (limbs n)
  rw [emod_of_borrow (by omega) (by omega)] at hdiff
  have hne : t.group rd (limbs n) ≠ 0 := by omega
  have hmag : (u.group rd (limbs n) : Int) + t.group rd (limbs n) = 2 ^ (32 * limbs n) := mod_cast hneg hne
  exact ⟨t, u, ht, by simp [htflags, hborrow], hu, by simp [huflags, hne], by omega⟩

/-! The chain of R86. -/

section
variable (s : State) (n₁ n₂ rd ra rb : Nat)

/-- A wide sum is the sum of the low parts plus, in units of `2^(32n₁)`, that of the high parts. -/
theorem wide_sum_eq : s.group ra (n₁ + n₂) + s.group rb (n₁ + n₂) =
    s.group ra n₁ + s.group rb n₁ + 2 ^ (32 * n₁) * (s.group (ra + n₁) n₂ + s.group (rb + n₁) n₂) := by
  rw [group_add, group_add]
  ring

/-- A wide difference is put together in the same way. -/
theorem wide_diff_eq : (s.group ra (n₁ + n₂) : Int) - s.group rb (n₁ + n₂) =
    (s.group ra n₁ - s.group rb n₁) + 2 ^ (32 * n₁) * (s.group (ra + n₁) n₂ - s.group (rb + n₁) n₂) := by
  rw [group_add, group_add]
  push_cast
  ring

/-- The high part of a wide sum is the sum of the high parts and the carry of the low ones. -/
theorem wide_sum_div : (s.group ra (n₁ + n₂) + s.group rb (n₁ + n₂)) / 2 ^ (32 * n₁) =
    s.group (ra + n₁) n₂ + s.group (rb + n₁) n₂ +
      (decide (2 ^ (32 * n₁) ≤ s.group ra n₁ + s.group rb n₁)).toNat := by
  rw [wide_sum_eq, Nat.add_mul_div_left _ _ (by positivity), add_comm]
  exact congrArg _ (sum_div_eq_carry s ra rb n₁ zero_le_one)

/-- The high part of a wide difference is the difference of the high parts less the borrow of the low ones. -/
theorem wide_diff_ediv : ((s.group ra (n₁ + n₂) : Int) - s.group rb (n₁ + n₂)) / 2 ^ (32 * n₁) =
    (s.group (ra + n₁) n₂ : Int) - s.group (rb + n₁) n₂ -
      (decide (s.group ra n₁ < s.group rb n₁)).toNat := by
  have hborrow := diff_ediv_eq_borrow s ra rb n₁ zero_le_one
  rw [Nat.cast_zero, sub_zero, Nat.add_zero] at hborrow
  rw [wide_diff_eq, Int.add_mul_ediv_left _ _ (by positivity), hborrow, neg_add_eq_sub]

/-- A wide sum carries exactly when its high part does. -/
theorem wide_carry_iff : 2 ^ (32 * (n₁ + n₂)) ≤ s.group ra (n₁ + n₂) + s.group rb (n₁ + n₂) ↔
    2 ^ (32 * n₂) ≤ s.group (ra + n₁) n₂ + s.group (rb + n₁) n₂ +
      (decide (2 ^ (32 * n₁) ≤ s.group ra n₁ + s.group rb n₁)).toNat := by
  rw [← wide_sum_div, Nat.le_div_iff_mul_le (by positivity), two_pow_limbs_add, Nat.mul_comm]

/-- A wide difference borrows exactly when its high part does. -/
theorem wide_borrow_iff : s.group ra (n₁ + n₂) < s.group rb (n₁ + n₂) ↔
    s.group (ra + n₁) n₂ < s.group (rb + n₁) n₂ + (decide (s.group ra n₁ < s.group rb n₁)).toNat := by
  have hhigh := wide_diff_ediv s n₁ n₂ ra rb
  have hsign : ((s.group ra (n₁ + n₂) : Int) - s.group rb (n₁ + n₂)) / 2 ^ (32 * n₁) < 0 ↔
      (s.group ra (n₁ + n₂) : Int) - s.group rb (n₁ + n₂) < 0 * 2 ^ (32 * n₁) :=
    Int.ediv_lt_iff_lt_mul (by positivity)
  omega

variable {s n₁ n₂ rd ra rb}
variable (hrd : rd + n₁ ≤ 32) (ha : Group.meets ⟨rd, n₁⟩ ⟨ra + n₁, n₂⟩ = false)
  (hb : Group.meets ⟨rd, n₁⟩ ⟨rb + n₁, n₂⟩ = false)
include hrd ha hb

/-- A wide addition is a narrow one and one of the next limbs with the carry of the first (R86). -/
theorem addGroups_chain :
    let t₁ := addGroups n₁ rd ra rb 0 s
    SameEffect (addGroups n₂ (rd + n₁) (ra + n₁) (rb + n₁) t₁.flags.c.toNat t₁)
      (addGroups (n₁ + n₂) rd ra rb 0 s) := by
  have hlow : ((s.group ra n₁ + s.group rb n₁ : Nat) : Int) % 2 ^ (32 * n₁) =
      (s.group ra (n₁ + n₂) + s.group rb (n₁ + n₂) : Nat) % 2 ^ (32 * n₁) := by
    rw [wide_sum_eq]
    push_cast
    exact (Int.add_mul_emod_self_left _ _ _).symm
  simp only [addGroups_eq _ _ _ _ zero_le_one, addGroups_eq _ _ _ _ (Bool.toNat_le _), writeResidue_flags,
    writeResidue_group_of_apart _ _ s hrd ha, writeResidue_group_of_apart _ _ s hrd hb, Nat.add_zero,
    writeResidue_congr hlow, ← wide_carry_iff]
  rw [← wide_sum_div, Int.natCast_ediv, Nat.cast_pow, Nat.cast_ofNat]
  exact writeResidue_chain ..

/-- A wide subtraction is a narrow one and one of the next limbs with the borrow of the first (R86). -/
theorem subGroups_chain :
    let t₁ := subGroups n₁ rd ra rb 0 s
    SameEffect (subGroups n₂ (rd + n₁) (ra + n₁) (rb + n₁) t₁.flags.c.toNat t₁)
      (subGroups (n₁ + n₂) rd ra rb 0 s) := by
  have hlow : ((s.group ra n₁ : Int) - s.group rb n₁) % 2 ^ (32 * n₁) =
      ((s.group ra (n₁ + n₂) : Int) - s.group rb (n₁ + n₂)) % 2 ^ (32 * n₁) := by
    rw [wide_diff_eq]
    exact (Int.add_mul_emod_self_left _ _ _).symm
  simp only [subGroups_eq, writeResidue_flags, Nat.cast_zero, sub_zero, Nat.add_zero,
    writeResidue_group_of_apart _ _ s hrd ha, writeResidue_group_of_apart _ _ s hrd hb,
    writeResidue_congr hlow, ← wide_borrow_iff, ← wide_diff_ediv]
  exact writeResidue_chain ..

end

/-- Settles O30: the parts of a legal wide command are legal, and each wide operation is its chain. -/
theorem wideAdditionSplitsIntoAChain : Obligations.WideAdditionSplitsIntoAChain := by
  intro n n₁ n₂ rd ra rb rd₂ ra₂ rb₂ s hn hrd₂ hra₂ hrb₂ hapartA hapartB h
  obtain ⟨hn5, hrd, hra, hrb⟩ := wellFormed_add_iff.1 h
  have hlow : (Instr.add n₁ rd ra rb).wellFormed = true :=
    wellFormed_add_iff.2 ⟨by unfold limbs at hn; omega, by omega, by omega, by omega⟩
  have hhigh : (Instr.add n₂ rd₂ ra₂ rb₂).wellFormed = true :=
    wellFormed_add_iff.2 ⟨by unfold limbs at hn; omega, by omega, by omega, by omega⟩
  rw [hra₂] at hapartA
  rw [hrb₂] at hapartB
  constructor
  · refine ⟨_, _, _, exec_add_of_legal h s, exec_add_of_legal hlow s, exec_adc_of_legal hhigh _, ?_⟩
    rw [hn, hrd₂, hra₂, hrb₂]
    exact addGroups_chain (by omega) hapartA hapartB
  · refine ⟨_, _, _, exec_sub_of_legal h s, exec_sub_of_legal hlow s, exec_sbb_of_legal hhigh _, ?_⟩
    rw [hn, hrd₂, hra₂, hrb₂]
    exact subGroups_chain (by omega) hapartA hapartB

end Sys2Proof.Proofs
end

section
/-! The words written out in the spec's examples (R81 to R217). -/

namespace Sys2Proof.Proofs

/-- The words of a legal command, and no others after them, decode to it. -/
theorem decode_of_encode_eq {i : Instr} {ws : List Word} (h : i.wellFormed = true) (hws : encode i = ws) :
    decode ws = .command i [] := by
  rw [← hws, ← List.append_nil (encode i)]
  exact decodeOfEncodeIsTheCommand i [] h

/-- Settles O10: each example's words are the encoding of the legal command it names. -/
theorem writtenOutWordsDecode : Obligations.WrittenOutWordsDecode := by
  and_intros <;> exact decode_of_encode_eq (by decide) (by decide)

end Sys2Proof.Proofs
end

section
/-! `MUL32`, `MUL64X32` and `MUL64`: one multiplication whose destination is as wide as both operands together, so
that the product is whole (R90 to R93). -/

namespace Sys2Proof.Proofs

open Sys2Proof.Machine Sys2Proof.Safety

/-- The product of two groups fits in as many limbs as they have together (R93). -/
theorem group_mul_group_lt (s : State) (ra rb na nb : Nat) :
    s.group ra na * s.group rb nb < 2 ^ (32 * (na + nb)) := by
  rw [two_pow_limbs_add]
  exact Nat.mul_lt_mul'' (s.group_lt ra na) (s.group_lt rb nb)

/-- What a multiplication leaves: the whole product of the operands as they were before it, and the frame (R90 to
R93). Only the destination has to fit; the operands may overlap it. -/
theorem mulGroups_result {na nb rd : Nat} (ra rb : Nat) (s : State) (hrd : rd + (na + nb) ≤ 32) :
    (mulGroups na nb rd ra rb s).group rd (na + nb) = s.group ra na * s.group rb nb ∧
      endsOk [⟨rd, na + nb⟩] 0 s.flags.c s.flags.s s (mulGroups na nb rd ra rb s) := by
  rw [mulGroups]
  constructor
  · rw [State.completeOk_eq, State.complete_group,
      State.group_setGroup _ _ _ _ hrd (group_mul_group_lt s ra rb na nb)]
  · exact endsOk_one_group_only s rd (na + nb) _ hrd

/-- A legal command that is a multiplication leaves the whole product in its destination group (R90 to R93). -/
theorem whenLegal_mulGroups {i : Instr} {na nb rd : Nat} (ra rb : Nat) (s : State) (h : i.wellFormed = true)
    (hdest : i.dests = [⟨rd, na + nb⟩]) :
    ∃ t, whenLegal i s (.next (mulGroups na nb rd ra rb s)) = .next t ∧
      t.group rd (na + nb) = s.group ra na * s.group rb nb ∧
      endsOk [⟨rd, na + nb⟩] 0 s.flags.c s.flags.s s t := by
  have hrd : rd + (na + nb) ≤ 32 := fits_of_wellFormed h (g := ⟨rd, na + nb⟩) (by simp [hdest])
  exact ⟨_, whenLegal_of_legal h s _, mulGroups_result ra rb s hrd⟩

section
variable (rd ra rb : Reg) (s : State)

theorem exec_mul32 : exec (.mul32 rd ra rb) s =
    whenLegal (.mul32 rd ra rb) s (.next (mulGroups 1 1 rd ra rb s)) := rfl

theorem exec_mul64x32 : exec (.mul64x32 rd ra rb) s =
    whenLegal (.mul64x32 rd ra rb) s (.next (mulGroups 2 1 rd ra rb s)) := rfl

theorem exec_mul64 : exec (.mul64 rd ra rb) s =
    whenLegal (.mul64 rd ra rb) s (.next (mulGroups 2 2 rd ra rb s)) := rfl

end

/-- Settles O31: the three are one multiplication at 1 by 1, 2 by 1 and 2 by 2 limbs; an operand of one limb is that
limb. -/
theorem multiplicationResults : Obligations.MultiplicationResults := by
  intro rd ra rb s
  refine ⟨fun h => ?mul32, fun h => ?mul64x32, fun h => ?mul64⟩
  case mul32 =>
    rw [exec_mul32, ← State.group_one s ra, ← State.group_one s rb]
    exact whenLegal_mulGroups (na := 1) (nb := 1) ra rb s h rfl
  case mul64x32 =>
    rw [exec_mul64x32, ← State.group_one s rb]
    exact whenLegal_mulGroups (na := 2) (nb := 1) ra rb s h rfl
  case mul64 =>
    rw [exec_mul64]
    exact whenLegal_mulGroups (na := 2) (nb := 2) ra rb s h rfl

end Sys2Proof.Proofs
end

section
/-! The six divisions: one shared step, with exact quotient and remainder where its precondition holds and the fault
`DivPrecondition` where it does not (R100 to R109). -/

namespace Sys2Proof.Proofs

open Sys2Proof.Machine Sys2Proof.Safety

/-! The preconditions of R101, read off the limbs. -/

/-- The value of a group without its low `k` limbs is the group of the other limbs. -/
theorem group_div (s : State) (r k n : Nat) : s.group r (k + n) / 2 ^ (32 * k) = s.group (r + k) n := by
  rw [group_add, Nat.add_mul_div_left _ _ (by positivity), Nat.div_eq_of_lt (s.group_lt r k), Nat.zero_add]

/-- A group is normalized exactly when its top limb's bit 31 is set (R101). -/
theorem normalized_iff (s : State) (r n : Nat) :
    2 ^ (32 * (n + 1) - 1) ≤ s.group r (n + 1) ↔ (s.limb (r + n)).getLsbD 31 = true := by
  have hpow : 2 ^ (32 * (n + 1) - 1) = 2 ^ 31 * 2 ^ (32 * n) := by
    rw [← pow_add]
    congr 1
    omega
  rw [hpow, ← Nat.le_div_iff_mul_le (by positivity), group_div, State.group_one]
  rw [← BitVec.msb_eq_getLsbD_last (s.limb (r + n)), BitVec.msb_eq_decide, decide_eq_true_iff]

/-- A zero divisor never meets the precondition (R101). -/
theorem divisor_ne_zero {a b q dividend divisor : Nat} {norm top : Bool}
    (h : divPrecondition a b q norm top dividend divisor = true) : divisor ≠ 0 := by
  simp only [divPrecondition, Bool.and_eq_true, decide_eq_true_eq] at h
  obtain ⟨⟨hnonzero, -⟩, -⟩ := h
  exact hnonzero

/-- Without its two optional parts the precondition asks for a nonzero divisor alone (R106). -/
theorem divPrecondition_nonzero_iff (a b q dividend divisor : Nat) :
    divPrecondition a b q false false dividend divisor = true ↔ divisor ≠ 0 := by
  simp [divPrecondition]

/-- With the top-limb condition, the top `q` limbs of the dividend are below those of the divisor, which cannot be
zero then (R101). -/
theorem divPrecondition_top_iff {a b q k : Nat} (ha : a = b + q) (hb : b = k + q) (norm : Bool) (ra rb : Nat)
    (s : State) :
    divPrecondition a b q norm true (s.group ra a) (s.group rb b) = true ↔
      (norm = true → 2 ^ (32 * b - 1) ≤ s.group rb b) ∧ s.group (ra + b) q < s.group (rb + k) q := by
  have hdividend : s.group ra a / 2 ^ (32 * a - 32 * q) = s.group (ra + b) q := by
    rw [ha, ← Nat.mul_sub, Nat.add_sub_cancel, group_div]
  have hdivisor : s.group rb b / 2 ^ (32 * b - 32 * q) = s.group (rb + k) q := by
    rw [hb, ← Nat.mul_sub, Nat.add_sub_cancel, group_div]
  have hnonzero : s.group (ra + b) q < s.group (rb + k) q → s.group rb b ≠ 0 := by
    intro hlt hzero
    rw [← hdivisor, hzero, Nat.zero_div] at hlt
    exact Nat.not_lt_zero _ hlt
  simp only [divPrecondition, hdividend, hdivisor, Bool.and_eq_true, Bool.or_eq_true, decide_eq_true_eq,
    Bool.not_true, Bool.false_eq_true, false_or]
  refine and_congr_left fun htop => ?_
  rw [and_iff_right (hnonzero htop)]
  cases norm <;> simp

/-- Under the top-limb condition the quotient fits its `q` limbs (R101). -/
theorem quotient_lt_of_top {a b q k : Nat} (ha : a = b + q) (hb : b = k + q) {ra rb : Nat} {s : State}
    (htop : s.group (ra + b) q < s.group (rb + k) q) :
    s.group ra a / s.group rb b < 2 ^ (32 * q) := by
  refine Nat.div_lt_of_lt_mul ?_
  rw [← group_div, ← ha, Nat.div_lt_iff_lt_mul (by positivity)] at htop
  calc s.group ra a < s.group (rb + k) q * 2 ^ (32 * b) := htop
    _ = 2 ^ (32 * k) * s.group (rb + k) q * 2 ^ (32 * q) := by rw [hb, two_pow_limbs_add]; ring
    _ ≤ s.group rb b * 2 ^ (32 * q) := by
      rw [hb, group_add]
      exact Nat.mul_le_mul_right _ (Nat.le_add_left _ _)

/-! The shared division. -/

/-- What a division that completes leaves: the exact quotient and remainder of the operands as they were before it,
and the frame (R100, R103). -/
theorem divided_setGroups {a b q rd rc ra rb : Nat} {s : State} (hrd : rd + q ≤ 32) (hrc : rc + b ≤ 32)
    (hapart : Group.meets ⟨rd, q⟩ ⟨rc, b⟩ = false) (hdivisor : s.group rb b ≠ 0)
    (hquotient : s.group ra a / s.group rb b < 2 ^ (32 * q)) :
    divided a b q rd rc ra rb s ((s.setGroup rd q (s.group ra a / s.group rb b)).setGroup rc b
      (s.group ra a % s.group rb b)).completeOk := by
  have hremainder : s.group ra a % s.group rb b < s.group rb b := Nat.mod_lt _ (Nat.pos_of_ne_zero hdivisor)
  rw [divided, State.completeOk_eq, State.complete_group, State.complete_group,
    State.group_setGroup _ _ _ _ hrc (hremainder.trans (s.group_lt rb b)),
    State.group_setGroup_of_apart _ _ _ _ _ _ hrc (apart_of_not_meets hapart),
    State.group_setGroup _ _ _ _ hrd hquotient, Nat.mul_comm]
  exact ⟨(Nat.div_add_mod _ _).symm, hremainder, endsOk_two_groups s _ _ _ _ _ _ hrd hrc⟩

/-- How a legal division command ends: completed with its exact results where `pre` holds, at the fault where it does
not (R100 to R103). -/
def DivisionEnds (i : Instr) (a b q rd rc ra rb : Nat) (s : State) (pre : Prop) : Prop :=
  i.wellFormed = true →
    (pre → ∃ t, exec i s = .next t ∧ divided a b q rd rc ra rb s t) ∧ (¬ pre → exec i s = .fault .divPrecondition)

section
variable {i : Instr} {a b q rd rc ra rb : Nat} {norm top : Bool} {s : State}

/-- A command that runs the shared division, whose precondition says `pre` and gives a quotient that fits, ends by
`pre`. -/
theorem divisionEnds {pre : Prop}
    (hexec : exec i s = whenLegal i s (divGroups a b q norm top rd rc ra rb s))
    (hdests : i.dests = [⟨rd, q⟩, ⟨rc, b⟩])
    (hpre : divPrecondition a b q norm top (s.group ra a) (s.group rb b) = true ↔ pre)
    (hquotient : pre → s.group ra a / s.group rb b < 2 ^ (32 * q)) :
    DivisionEnds i a b q rd rc ra rb s pre := by
  intro h
  have hrd : rd + q ≤ 32 := fits_of_wellFormed h (g := ⟨rd, q⟩) (by simp [hdests])
  have hrc : rc + b ≤ 32 := fits_of_wellFormed h (g := ⟨rc, b⟩) (by simp [hdests])
  have hapart : Group.meets ⟨rd, q⟩ ⟨rc, b⟩ = false := by
    simpa [Instr.destsApart, hdests, groupsApart] using destsApart_of_wellFormed h
  rw [hexec, whenLegal_of_legal h]
  obtain ⟨hcond, hnext⟩ | ⟨hcond, hfault⟩ := divGroups_cases a b q norm top rd rc ra rb s
  · have hp := hpre.1 hcond
    exact ⟨fun _ => ⟨_, hnext, divided_setGroups hrd hrc hapart (divisor_ne_zero hcond) (hquotient hp)⟩, absurd hp⟩
  · have hn : ¬ pre := fun hp => by simp [hpre.2 hp] at hcond
    exact ⟨fun hp => absurd hp hn, fun _ => hfault⟩

/-- The five divisions with the top-limb condition end by it, and by normalization where that is asked for (R101). -/
theorem topDivisionEnds {k : Nat} {pre : Prop}
    (hexec : exec i s = whenLegal i s (divGroups a b q norm true rd rc ra rb s))
    (hdests : i.dests = [⟨rd, q⟩, ⟨rc, b⟩]) (ha : a = b + q) (hb : b = k + q)
    (hpre : (norm = true → 2 ^ (32 * b - 1) ≤ s.group rb b) ∧ s.group (ra + b) q < s.group (rb + k) q ↔ pre) :
    DivisionEnds i a b q rd rc ra rb s pre := by
  exact divisionEnds hexec hdests ((divPrecondition_top_iff ha hb norm ra rb s).trans hpre) fun hp =>
    quotient_lt_of_top ha hb (hpre.2 hp).2

end

/-! The six commands. -/

section
variable (rd rc ra rb : Reg) (s : State)

/-- `DIV64BY32` ends by R104. -/
theorem div64by32_ends : DivisionEnds (.div64by32 rd rc ra rb) 2 1 1 rd rc ra rb s
    (s.limb (ra + 1 : Nat) < s.limb rb) :=
  topDivisionEnds (k := 0) (norm := false) rfl rfl rfl rfl (by simp [BitVec.lt_def])

/-- `DIV128BY64` ends by R105. -/
theorem div128by64_ends : DivisionEnds (.div128by64 rd rc ra rb) 4 2 2 rd rc ra rb s
    (s.group (ra + 2 : Nat) 2 < s.group rb 2) :=
  topDivisionEnds (k := 0) (norm := false) rfl rfl rfl rfl (by simp)

/-- `DIV96BY32` ends by R106: its quotient is as wide as its dividend, so that a nonzero divisor is enough. -/
theorem div96by32_ends : DivisionEnds (.div96by32 rd rc ra rb) 3 1 3 rd rc ra rb s (s.limb rb ≠ 0) := by
  have hzero : s.group rb 1 ≠ 0 ↔ s.limb rb ≠ 0 := by
    simp [BitVec.toNat_eq]
  exact divisionEnds (norm := false) (top := false) rfl rfl ((divPrecondition_nonzero_iff ..).trans hzero)
    fun _ => (Nat.div_le_self _ _).trans_lt (s.group_lt ra 3)

/-- `DIV128BY96` ends by R107. -/
theorem div128by96_ends : DivisionEnds (.div128by96 rd rc ra rb) 4 3 1 rd rc ra rb s
    ((s.limb (rb + 2 : Nat)).getLsbD 31 = true ∧ s.limb (ra + 3 : Nat) < s.limb (rb + 2 : Nat)) :=
  topDivisionEnds (k := 2) (norm := true) rfl rfl rfl rfl (by rw [← normalized_iff s rb 2]; simp [BitVec.lt_def])

/-- `DIV160BY96` ends by R108. -/
theorem div160by96_ends : DivisionEnds (.div160by96 rd rc ra rb) 5 3 2 rd rc ra rb s
    ((s.limb (rb + 2 : Nat)).getLsbD 31 = true ∧ s.group (ra + 3 : Nat) 2 < s.group (rb + 1 : Nat) 2) :=
  topDivisionEnds (k := 1) (norm := true) rfl rfl rfl rfl (by rw [← normalized_iff s rb 2]; simp)

/-- `DIV96BY64` ends by R109. -/
theorem div96by64_ends : DivisionEnds (.div96by64 rd rc ra rb) 3 2 1 rd rc ra rb s
    ((s.limb (rb + 1 : Nat)).getLsbD 31 = true ∧ s.limb (ra + 2 : Nat) < s.limb (rb + 1 : Nat)) :=
  topDivisionEnds (k := 1) (norm := true) rfl rfl rfl rfl (by rw [← normalized_iff s rb 1]; simp [BitVec.lt_def])

end

/-- Settles O32: what each division does where its precondition holds. -/
theorem divisionResults : Obligations.DivisionResults := fun rd rc ra rb s =>
  ⟨fun h => (div64by32_ends rd rc ra rb s h).1,
    fun h => (div128by64_ends rd rc ra rb s h).1,
    fun h => (div96by32_ends rd rc ra rb s h).1,
    fun h hnorm htop => (div128by96_ends rd rc ra rb s h).1 ⟨hnorm, htop⟩,
    fun h hnorm htop => (div160by96_ends rd rc ra rb s h).1 ⟨hnorm, htop⟩,
    fun h hnorm htop => (div96by64_ends rd rc ra rb s h).1 ⟨hnorm, htop⟩⟩

/-- Settles O33: what each division does where its precondition fails. -/
theorem divisionPreconditionFaults : Obligations.DivisionPreconditionFaults := fun rd rc ra rb s =>
  ⟨fun h => (div64by32_ends rd rc ra rb s h).2,
    fun h => (div128by64_ends rd rc ra rb s h).2,
    fun h hzero => (div96by32_ends rd rc ra rb s h).2 (not_not_intro hzero),
    fun h => (div128by96_ends rd rc ra rb s h).2,
    fun h => (div160by96_ends rd rc ra rb s h).2,
    fun h => (div96by64_ends rd rc ra rb s h).2⟩

end Sys2Proof.Proofs
end

section
/-! `MSB32`, `MSB64`, `LZC32`, `LZC64` and `SHL128`: the two scans and the two counts are one scan and one count at
1 and 2 limbs (R115 to R120). -/

namespace Sys2Proof.Proofs

open Sys2Proof.Machine Sys2Proof.Safety

/-! The functions of R16, R117 and R119, in terms of powers of two. -/

/-- `msb` is the index of the most significant set bit (R16). -/
theorem two_pow_msb_le_and_lt {x : Nat} (hx : x ≠ 0) : 2 ^ msb x ≤ x ∧ x < 2 ^ (msb x + 1) :=
  ⟨Nat.log2_self_le hx, Nat.lt_log2_self⟩

theorem msb_lt {x w : Nat} (hx : x ≠ 0) (h : x < 2 ^ w) : msb x < w :=
  (Nat.log2_lt hx).2 h

theorem leadingZeros_zero (n : Nat) : leadingZeros n 0 = 32 * n := if_pos rfl

theorem leadingZeros_le (n x : Nat) : leadingZeros n x ≤ 32 * n := by
  unfold leadingZeros
  split <;> omega

/-- The count is the width less one less the scan (R120). -/
theorem leadingZeros_add_msb {n x : Nat} (hx : x ≠ 0) (h : x < 2 ^ (32 * n)) :
    leadingZeros n x + 1 + msb x = 32 * n := by
  have hmsb := msb_lt hx h
  rw [leadingZeros, if_neg hx]
  omega

/-- Shifting an operand left by its count sets the top bit of its width and loses nothing (R120). -/
theorem mul_two_pow_leadingZeros {n x : Nat} (hx : x ≠ 0) (h : x < 2 ^ (32 * n)) :
    2 ^ (32 * n - 1) ≤ x * 2 ^ leadingZeros n x ∧ x * 2 ^ leadingZeros n x < 2 ^ (32 * n) := by
  obtain ⟨hle, hlt⟩ := two_pow_msb_le_and_lt hx
  have hsum := leadingZeros_add_msb hx h
  have htop : 2 ^ (32 * n - 1) = 2 ^ msb x * 2 ^ leadingZeros n x := by
    rw [← pow_add]
    congr 1
    omega
  have hwidth : 2 ^ (32 * n) = 2 ^ (msb x + 1) * 2 ^ leadingZeros n x := by
    rw [← pow_add]
    congr 1
    omega
  rw [htop, hwidth]
  exact ⟨Nat.mul_le_mul_right _ hle, Nat.mul_lt_mul_of_pos_right hlt (Nat.two_pow_pos _)⟩

/-- The cut at count 128 changes no value: from there on the product is a multiple of `2^128` (R119). -/
theorem shiftLeft128_eq (x count : Nat) : shiftLeft128 x count = x * 2 ^ count % 2 ^ 128 := by
  unfold shiftLeft128
  split
  case isTrue h => exact (Nat.mod_eq_zero_of_dvd ((Nat.pow_dvd_pow 2 h).mul_left x)).symm
  case isFalse => rfl

/-! The shared scan and the shared count. -/

section
variable {n rd : Nat} (ra : Nat) {s : State}

/-- A limb is zero exactly when its group of one is. -/
theorem group_one_eq_zero_iff (s : State) (r : Nat) : s.group r 1 = 0 ↔ s.limb r = 0 := by
  rw [State.group_one, BitVec.toNat_eq]
  rfl

/-- A number that fits a limb reads back from the register it is written to. -/
theorem toNat_limb_setLimb_completeOk (s : State) {v : Nat} (hrd : rd < 32) (hv : v < 2 ^ 32) :
    ((s.setLimb rd (BitVec.ofNat 32 v)).completeOk.limb rd).toNat = v := by
  rw [State.completeOk_eq, State.complete_limb, State.limb_setLimb_same _ _ _ hrd, BitVec.toNat_ofNat,
    Nat.mod_eq_of_lt hv]

/-- What the scan of a nonzero operand leaves: the index of its top bit, and the frame (R115, R116). -/
theorem msbGroup_result (hrd : rd < 32) (hn : n ≤ 2) (hx : s.group ra n ≠ 0) :
    ∃ t, msbGroup n rd ra s = .next t ∧ (t.limb rd).toNat = msb (s.group ra n) ∧
      endsOk [⟨rd, 1⟩] 0 s.flags.c s.flags.s s t := by
  obtain ⟨hzero, -⟩ | ⟨-, hnext⟩ := msbGroup_cases n rd ra s
  · exact absurd hzero hx
  · have hmsb := msb_lt hx (s.group_lt ra n)
    exact ⟨_, hnext, toNat_limb_setLimb_completeOk s hrd (by omega), endsOk_one_limb s rd _ hrd⟩

/-- What the count leaves for every operand, and the frame (R117, R118). -/
theorem lzcGroup_result (s : State) (hrd : rd < 32) (hn : n ≤ 2) :
    ((lzcGroup n rd ra s).limb rd).toNat = leadingZeros n (s.group ra n) ∧
      endsOk [⟨rd, 1⟩] 0 s.flags.c s.flags.s s (lzcGroup n rd ra s) := by
  have hcount := leadingZeros_le n (s.group ra n)
  exact ⟨toNat_limb_setLimb_completeOk s hrd (by omega), endsOk_one_limb s rd _ hrd⟩

/-- The scan's index, as the powers of two around the operand (R115, R116). -/
theorem msbGroup_bounds (hrd : rd < 32) (hn : n ≤ 2) (hx : s.group ra n ≠ 0) :
    ∃ t, msbGroup n rd ra s = .next t ∧
      2 ^ (t.limb rd).toNat ≤ s.group ra n ∧ s.group ra n < 2 ^ ((t.limb rd).toNat + 1) ∧
      endsOk [⟨rd, 1⟩] 0 s.flags.c s.flags.s s t := by
  obtain ⟨t, hnext, hmsb, hends⟩ := msbGroup_result ra hrd hn hx
  obtain ⟨hle, hlt⟩ := two_pow_msb_le_and_lt hx
  exact ⟨t, hnext, hmsb ▸ hle, hmsb ▸ hlt, hends⟩

/-- The count's register: the width for 0, and otherwise the shift that brings the operand's top bit to the top of
its width (R117, R118). -/
theorem lzcGroup_bounds (s : State) (hrd : rd < 32) (hn : n ≤ 2) :
    (s.group ra n = 0 → (lzcGroup n rd ra s).limb rd = BitVec.ofNat 32 (32 * n)) ∧
    (s.group ra n ≠ 0 → 2 ^ (32 * n - 1) ≤ s.group ra n * 2 ^ ((lzcGroup n rd ra s).limb rd).toNat ∧
      s.group ra n * 2 ^ ((lzcGroup n rd ra s).limb rd).toNat < 2 ^ (32 * n)) ∧
    endsOk [⟨rd, 1⟩] 0 s.flags.c s.flags.s s (lzcGroup n rd ra s) := by
  obtain ⟨hcount, hends⟩ := lzcGroup_result ra s hrd hn
  refine ⟨fun hzero => ?_, fun hx => ?_, hends⟩
  · rw [hzero, leadingZeros_zero] at hcount
    rw [← hcount, BitVec.ofNat_toNat, BitVec.setWidth_eq]
  · rw [hcount]
    exact mul_two_pow_leadingZeros hx (s.group_lt ra n)

/-- The scan and the count of one nonzero operand, together (R120). -/
theorem msbGroup_lzcGroup {rd' : Nat} (hrd : rd < 32) (hrd' : rd' < 32) (hn : n ≤ 2) (hx : s.group ra n ≠ 0) :
    ∃ t, msbGroup n rd ra s = .next t ∧
      ((lzcGroup n rd' ra s).limb rd').toNat + 1 + (t.limb rd).toNat = 32 * n ∧
      2 ^ (t.limb rd).toNat ≤ s.group ra n ∧ s.group ra n < 2 ^ ((t.limb rd).toNat + 1) ∧
      2 ^ (32 * n - 1) ≤ s.group ra n * 2 ^ ((lzcGroup n rd' ra s).limb rd').toNat ∧
      s.group ra n * 2 ^ ((lzcGroup n rd' ra s).limb rd').toNat < 2 ^ (32 * n) := by
  obtain ⟨t, hnext, hmsb, -⟩ := msbGroup_result ra hrd hn hx
  obtain ⟨hcount, -⟩ := lzcGroup_result ra s hrd' hn
  obtain ⟨hle, hlt⟩ := two_pow_msb_le_and_lt hx
  rw [hcount]
  refine ⟨t, hnext, ?_⟩
  rw [hmsb]
  exact ⟨leadingZeros_add_msb hx (s.group_lt ra n), hle, hlt, mul_two_pow_leadingZeros hx (s.group_lt ra n)⟩

end

/-! The commands. -/

section
variable {rd ra rb : Reg}

theorem wellFormed_lzc32 (rd ra : Reg) : (Instr.lzc32 rd ra).wellFormed = true := wellFormed_msb32 rd ra

/-- A scan of two registers is legal when they are in the register file (R70 e). -/
theorem wellFormed_msb64_iff : (Instr.msb64 rd ra).wellFormed = true ↔ (ra : Nat) + 2 ≤ 32 := by
  simp [Instr.wellFormed, Instr.limbCountOk, Instr.groupsFit, Instr.destsApart, Instr.digitsOk, Instr.dests,
    Instr.srcs, Group.fits, groupsApart, Config.nreg]

theorem wellFormed_lzc64_iff : (Instr.lzc64 rd ra).wellFormed = true ↔ (ra : Nat) + 2 ≤ 32 :=
  wellFormed_msb64_iff (rd := rd)

theorem exec_msb32 (rd ra : Reg) (s : State) : exec (.msb32 rd ra) s = msbGroup 1 rd ra s :=
  whenLegal_of_legal (wellFormed_msb32 rd ra) s _

theorem exec_msb64_of_legal (h : (Instr.msb64 rd ra).wellFormed = true) (s : State) :
    exec (.msb64 rd ra) s = msbGroup 2 rd ra s := whenLegal_of_legal h s _

theorem exec_lzc32 (rd ra : Reg) (s : State) : exec (.lzc32 rd ra) s = .next (lzcGroup 1 rd ra s) :=
  whenLegal_of_legal (wellFormed_lzc32 rd ra) s _

theorem exec_lzc64_of_legal (h : (Instr.lzc64 rd ra).wellFormed = true) (s : State) :
    exec (.lzc64 rd ra) s = .next (lzcGroup 2 rd ra s) := whenLegal_of_legal h s _

theorem exec_shl128_of_legal (h : (Instr.shl128 rd ra rb).wellFormed = true) (s : State) :
    exec (.shl128 rd ra rb) s =
      .next (s.setGroup rd 4 (shiftLeft128 (s.group ra 4) (s.limb rb).toNat)).completeOk := whenLegal_of_legal h s _

end

/-- Settles O34: both are the scan of a group, of one limb or of two. -/
theorem scanResults : Obligations.ScanResults := by
  intro rd ra s
  refine ⟨fun hx => ?msb32, fun h hx => ?msb64⟩
  case msb32 =>
    rw [exec_msb32, ← State.group_one]
    exact msbGroup_bounds (n := 1) ra rd.isLt (by decide) ((group_one_eq_zero_iff s ra).not.2 hx)
  case msb64 =>
    rw [exec_msb64_of_legal h]
    exact msbGroup_bounds ra rd.isLt le_rfl hx

/-- Settles O35: both are the count of a group, of one limb or of two. -/
theorem leadingZeroResults : Obligations.LeadingZeroResults := by
  intro rd ra s
  refine ⟨?lzc32, fun h => ?lzc64⟩
  case lzc32 =>
    rw [← State.group_one, ne_eq, ← group_one_eq_zero_iff]
    exact ⟨_, exec_lzc32 rd ra s, lzcGroup_bounds (n := 1) ra s rd.isLt (by decide)⟩
  case lzc64 => exact ⟨_, exec_lzc64_of_legal h s, lzcGroup_bounds ra s rd.isLt le_rfl⟩

/-- Settles O36: where the scan is legal the count is too, whatever register it writes. -/
theorem countIsWidthLessScan : Obligations.CountIsWidthLessScan := by
  intro rd rd' ra s
  refine ⟨fun hx => ?w32, fun h hx => ?w64⟩
  case w32 =>
    obtain ⟨t, hnext, hresults⟩ := msbGroup_lzcGroup (n := 1) ra rd.isLt rd'.isLt (by decide)
      ((group_one_eq_zero_iff s ra).not.2 hx)
    rw [← State.group_one]
    exact ⟨t, _, (exec_msb32 rd ra s).trans hnext, exec_lzc32 rd' ra s, hresults⟩
  case w64 =>
    have hcount : (Instr.lzc64 rd' ra).wellFormed = true := wellFormed_lzc64_iff.2 (wellFormed_msb64_iff.1 h)
    obtain ⟨t, hnext, hresults⟩ := msbGroup_lzcGroup (n := 2) ra rd.isLt rd'.isLt le_rfl hx
    exact ⟨t, _, (exec_msb64_of_legal h s).trans hnext, exec_lzc64_of_legal hcount s, hresults⟩

/-- Settles O37: the destination reads back the shifted value, which a count of 128 or more makes 0. -/
theorem shiftResult : Obligations.ShiftResult := by
  intro rd ra rb s h
  have hrd : (rd : Nat) + 4 ≤ 32 := fits_of_wellFormed h (g := ⟨rd, 4⟩) (by simp [Instr.dests])
  have hread : (s.setGroup rd 4 (shiftLeft128 (s.group ra 4) (s.limb rb).toNat)).completeOk.group rd 4 =
      shiftLeft128 (s.group ra 4) (s.limb rb).toNat := by
    rw [State.completeOk_eq, State.complete_group, State.group_setGroup _ _ _ _ hrd]
    rw [shiftLeft128_eq]
    exact Nat.mod_lt _ (Nat.two_pow_pos 128)
  refine ⟨_, exec_shl128_of_legal h s, ?value, fun hfar => ?far, endsOk_one_group_only s rd 4 _ hrd⟩
  case value => rw [hread, shiftLeft128_eq]
  case far => rw [hread, shiftLeft128, if_pos hfar]

end Sys2Proof.Proofs
end

section
/-! Rounding in steps: dividing by one power of ten after another, with the discarded remainders collected in a sticky
bit, rounds as dividing once by their product does (R130). -/

namespace Sys2Proof.Proofs

open Sys2Proof.Machine

/-- For an even last divisor `d`, the rounding decision of the last step and the sticky bit of all before it is that
of the whole division by `e * d` (R130). -/
theorem roundsUp_of_sticky (num : Nat) {e d : Nat} (he : 0 < e) (hd : 2 ∣ d) :
    roundsUp (num / e / d) (num / e % d) d (decide (num % e ≠ 0)) =
      roundsUp (num / (e * d)) (num % (e * d)) (e * d) false := by
  obtain ⟨half, rfl⟩ := hd
  have hrem : num % (e * (2 * half)) = num % e + e * (num / e % (2 * half)) := Nat.mod_mul
  have hlow : num % e < e := Nat.mod_lt num he
  rw [Bool.eq_iff_iff, roundsUp_iff, roundsUp_iff, Nat.div_div_eq_div_mul, hrem, Nat.mul_left_comm e 2 half]
  generalize num / (e * (2 * half)) = q
  generalize num / e % (2 * half) = r
  simp only [decide_eq_true_eq, Bool.false_eq_true, or_false]
  rcases Nat.lt_trichotomy r half with hlt | rfl | hgt
  · have : e * (r + 1) ≤ e * half := Nat.mul_le_mul_left e hlt
    rw [Nat.mul_succ] at this
    omega
  · omega
  · have : e * (half + 1) ≤ e * r := Nat.mul_le_mul_left e hgt
    rw [Nat.mul_succ] at this
    omega

theorem two_dvd_ten_pow {p : Nat} (hp : 1 ≤ p) : 2 ∣ 10 ^ p :=
  dvd_pow (by decide) (Nat.ne_of_gt hp)

/-- `RHE` by `10^(k+p)` is a last step by `10^p` that looks at what the division by `10^k` discarded (R130, R132). -/
theorem rhe_ten_pow_add (num k : Nat) {p : Nat} (hp : 1 ≤ p) :
    rhe num (10 ^ (k + p)) = num / 10 ^ k / 10 ^ p +
      (roundsUp (num / 10 ^ k / 10 ^ p) (num / 10 ^ k % 10 ^ p) (10 ^ p) (decide (num % 10 ^ k ≠ 0))).toNat := by
  rw [roundsUp_of_sticky num (Nat.pow_pos (by decide)) (two_dvd_ten_pow hp), Nat.div_div_eq_div_mul, ← pow_add, rhe]

/-- Folding the last remainder into the sticky bit makes it tell of all that was discarded (R128). -/
theorem stickyWith_ten_pow_add (num k p : Nat) :
    stickyWith (decide (num % 10 ^ k ≠ 0)) (num / 10 ^ k % 10 ^ p) = decide (num % 10 ^ (k + p) ≠ 0) := by
  have hpos : 0 < 10 ^ k := Nat.pow_pos (by decide)
  rw [Bool.eq_iff_iff, pow_add, Nat.mod_mul]
  simp only [stickyWith, Bool.or_eq_true, decide_eq_true_eq, ne_eq, Nat.add_eq_zero_iff, Nat.mul_eq_zero,
    hpos.ne', false_or, not_and_or]

end Sys2Proof.Proofs
end

section
/-! DS's estimate and procedure beside the closed form of `ScaleResult` (R135, R136, R137). -/

namespace Sys2Proof.Proofs

open Sys2Proof.Machine

/-! The estimate. -/

/-- The fixed-point approximation 77/256 of `log10 2`, checked for every excess of a magnitude below `2^192`
(R135). -/
theorem ten_pow_estimate : ∀ e < 96, 10 ^ (e * 77 / 256) ≤ 2 ^ e ∧ 2 ^ (e + 1) ≤ 10 ^ (e * 77 / 256 + 2) := by
  decide

theorem kest_of_fits {m : Nat} (h : m < 2 ^ 96) : kest m = 0 := if_pos h

/-- One power of ten less than the estimate leaves too large a magnitude, one more is always enough (R135). -/
theorem kest_bounds {m : Nat} (hm : m < 2 ^ 192) (hbig : 2 ^ 96 ≤ m) :
    ∃ a, kest m = a + 1 ∧ 2 ^ 96 ≤ m / 10 ^ a ∧ m / 10 ^ (a + 2) < 2 ^ 96 := by
  have hm0 : m ≠ 0 := by omega
  have hmsb : msb m < 192 := msb_lt hm0 hm
  have hmsb96 : 96 ≤ msb m := (Nat.le_log2 hm0).2 hbig
  obtain ⟨hlow, hhigh⟩ := two_pow_msb_le_and_lt hm0
  obtain ⟨e, he⟩ := Nat.exists_eq_add_of_le hmsb96
  obtain ⟨hten, htwo⟩ := ten_pow_estimate e (by omega)
  refine ⟨e * 77 / 256, ?estimate, ?tooLarge, ?enough⟩
  case estimate => rw [kest, if_neg (Nat.not_lt.2 hbig), he, Nat.add_sub_cancel_left]
  case tooLarge =>
    rw [Nat.le_div_iff_mul_le (Nat.pow_pos (by decide))]
    calc 2 ^ 96 * 10 ^ (e * 77 / 256) ≤ 2 ^ 96 * 2 ^ e := Nat.mul_le_mul_left _ hten
      _ = 2 ^ msb m := by rw [he, pow_add]
      _ ≤ m := hlow
  case enough =>
    refine Nat.div_lt_of_lt_mul ?_
    calc m < 2 ^ (msb m + 1) := hhigh
      _ = 2 ^ (e + 1) * 2 ^ 96 := by rw [he, ← pow_add]; congr 1; omega
      _ ≤ 10 ^ (e * 77 / 256 + 2) * 2 ^ 96 := Nat.mul_le_mul_right _ htwo

theorem fits_of_kest_eq_zero {m : Nat} (hm : m < 2 ^ 192) (h : kest m = 0) : m < 2 ^ 96 := by
  by_contra hbig
  obtain ⟨a, ha, -⟩ := kest_bounds hm (Nat.le_of_not_lt hbig)
  omega

/-- Settles O43: a power below the least one leaves `2^96` or more, and the least one does not. -/
theorem estimateIsACloseLowerBound : Obligations.EstimateIsACloseLowerBound := by
  intro m k hm hfits hleast
  rcases Nat.lt_or_ge m (2 ^ 96) with hsmall | hbig
  · have hk : k = 0 := by
      by_contra hne
      have := hleast 0 (Nat.pos_of_ne_zero hne)
      rw [pow_zero, Nat.div_one] at this
      omega
    rw [kest_of_fits hsmall, hk]
    exact ⟨le_rfl, Nat.zero_le _⟩
  · obtain ⟨a, ha, htooLarge, henough⟩ := kest_bounds hm hbig
    rw [ha]
    constructor
    · by_contra hlt
      have : m / 10 ^ a ≤ m / 10 ^ k :=
        Nat.div_le_div_left (Nat.pow_le_pow_right (by decide) (by omega)) (Nat.pow_pos (by decide))
      omega
    · by_contra hgt
      have := hleast (a + 2) (by omega)
      omega

theorem kest_le_leastFit {m : Nat} (hm : m < 2 ^ 192) : kest m ≤ leastFit m ∧ leastFit m ≤ kest m + 1 :=
  estimateIsACloseLowerBound m (leastFit m) hm (leastFit_spec m).1 (leastFit_spec m).2

/-! The procedure. -/

theorem firstPower_le_bestPower (m s : Nat) : firstPower m s ≤ bestPower m s := by
  unfold bestPower
  split <;> omega

/-- While a magnitude is too large, fewer digits than the least power have been divided off (R134). -/
theorem lt_leastFit_of_le {m k : Nat} (h : 2 ^ 96 ≤ m / 10 ^ k) : k < leastFit m := by
  by_contra hge
  exact absurd (fits_of_leastFit_le (Nat.le_of_not_lt hge)) (Nat.not_lt.2 h)

/-- The comparison of R136 with half the power of ten is the rounding decision of R132. -/
theorem roundsUp_iff_half (q r : Nat) {d : Nat} (hd : 2 ∣ d) (sticky : Bool) :
    roundsUp q r d sticky = true ↔ d / 2 < r ∨ (r = d / 2 ∧ (q % 2 = 1 ∨ sticky = true)) := by
  obtain ⟨half, rfl⟩ := hd
  rw [roundsUp_iff, Nat.mul_div_cancel_left half (by decide)]
  exact or_congr (by omega) (and_congr_left fun _ => by omega)

/-- The last iteration of the loop of R136, once the magnitude divided by `10^k` fits: it answers that quotient
rounded, at one digit less where rounding carries to `2^96`. -/
theorem procedureLoop_last {fuel m k rem : Nat} {s : Int} {sticky : Bool} (hk : 1 ≤ k) (hk9 : k ≤ 9)
    (hfit : m / 10 ^ k < 2 ^ 96) {q : Nat}
    (hq : q = m / 10 ^ k + (roundsUp (m / 10 ^ k) (m % 10 ^ k) (10 ^ k) (stickyWith sticky rem)).toNat) :
    procedureLoop (fuel + 2) m s sticky rem k =
      if q = 2 ^ 96 then if s - 1 < 0 then .error .overflow else .ok (carryMant, (s - 1).toNat)
      else if s < 0 then .error .overflow else .ok (q, s.toNat) := by
  have hmin : min k Config.reduceMaxPow = k := Nat.min_eq_left hk9
  have hdone : ¬ 0 < k - k := by omega
  have hsmall : ¬ Config.mantLimit ≤ m / 10 ^ k := Nat.not_le.2 hfit
  rw [procedureLoop]
  simp only [hmin, hdone, hsmall, if_false, ← roundsUp_iff_half _ _ (two_dvd_ten_pow hk)]
  cases hup : roundsUp (m / 10 ^ k) (m % 10 ^ k) (10 ^ k) (stickyWith sticky rem) with
  | false =>
    rw [hup, Bool.toNat_false, Nat.add_zero] at hq
    rw [← hq] at hfit ⊢
    rw [if_neg Bool.false_ne_true, if_neg hfit.ne]
  | true =>
    rw [hup, Bool.toNat_true] at hq
    rw [← hq, if_pos rfl]
    split
    case isTrue hcarry => rw [hcarry, procedureLoop_carry]
    case isFalse => rfl

/-- The test for a negative scale at the end of R136 is that of R134 before the subtraction. -/
theorem answer_at_scale (s k q : Nat) :
    (if (s : Int) - (k : Nat) < 0 then .error .overflow else .ok (q, ((s : Int) - (k : Nat)).toNat)
      : Except Code (Nat × Nat)) = if s < k then .error .overflow else .ok (q, s - k) := by
  simp only [sub_neg, Nat.cast_lt, Int.toNat_sub]

/-- From a state of the loop in which `10^a` has been divided off `M`, its remainders in `sticky` and `rem`, and no
more than the least power is aimed at, the procedure rounds `M` at `bestPower` (R136, R137). -/
theorem procedureLoop_eq {M s : Nat} {fuel a k rem : Nat} {sticky : Bool} (hk : 1 ≤ k) (hscale : s - 28 ≤ a + k)
    (hle : a + k ≤ firstPower M s) (hsticky : stickyWith sticky rem = decide (M % 10 ^ a ≠ 0))
    (hfuel : firstPower M s + 1 ≤ a + fuel) :
    procedureLoop fuel (M / 10 ^ a) ((s : Int) - (a + k : Nat)) sticky rem k =
      if s < bestPower M s then .error .overflow
      else .ok (rhe M (10 ^ bestPower M s), s - bestPower M s) := by
  induction fuel generalizing a k rem sticky with
  | zero => omega
  | succ fuel ih =>
    by_cases hmore : 9 < k
    case pos =>
      have hmin : min k Config.reduceMaxPow = 9 := Nat.min_eq_right hmore.le
      have hnext := ih (a := a + 9) (k := k - 9) (by omega) (by omega) (by omega)
        (stickyWith_ten_pow_add M a 9) (by omega)
      rw [show a + 9 + (k - 9) = a + k by omega] at hnext
      rw [procedureLoop]
      simpa only [hmin, hsticky, if_pos (Nat.sub_pos_of_lt hmore), Nat.div_div_eq_div_mul, ← pow_add] using hnext
    case neg =>
      have hk9 : k ≤ 9 := Nat.le_of_not_lt hmore
      rcases Nat.lt_or_ge (M / 10 ^ (a + k)) (2 ^ 96) with hfit | hlarge
      case inl =>
        have hfirst : a + k = firstPower M s :=
          le_antisymm hle (max_le hscale (Nat.le_of_not_lt fun hlt =>
            Nat.not_lt.2 ((leastFit_spec M).2 _ hlt) hfit))
        obtain ⟨fuel, rfl⟩ : ∃ f, fuel = f + 1 := ⟨fuel - 1, by omega⟩
        have hquot : M / 10 ^ a / 10 ^ k = M / 10 ^ (a + k) := by rw [Nat.div_div_eq_div_mul, ← pow_add]
        rw [procedureLoop_last hk hk9 (hquot ▸ hfit) (hsticky ▸ rhe_ten_pow_add M a hk), bestPower, ← hfirst]
        split
        case isTrue hcarry =>
          rw [pow_succ, rhe_mul_ten_of_carry hfit hcarry, Int.sub_sub]
          exact answer_at_scale s (a + k + 1) carryMant
        case isFalse => exact answer_at_scale s (a + k) _
      case inr =>
        have hlt : a + k < firstPower M s := (lt_leastFit_of_le hlarge).trans_le (Nat.le_max_right _ _)
        have hmin : min k Config.reduceMaxPow = k := Nat.min_eq_left hk9
        have hnext := ih (a := a + k) (k := 1) le_rfl (by omega) hlt (stickyWith_ten_pow_add M a k) (by omega)
        rw [show (s : Int) - (a + k + 1 : Nat) = s - (a + k : Nat) - 1 by omega] at hnext
        rw [procedureLoop]
        simpa only [hmin, hsticky, Nat.sub_self, lt_irrefl, if_false, Nat.div_div_eq_div_mul, ← pow_add,
          Config.mantLimit, hlarge, if_true] using hnext

/-- Settles O44: the estimate is a lower bound of the least power, so the early overflow is one, and the loop starts no
later than that power. Neither needs the bound on the scale. -/
theorem procedureEqualsTheClosedForm : Obligations.ProcedureEqualsTheClosedForm := by
  intro m s hm _
  obtain ⟨hlower, hclose⟩ := kest_le_leastFit hm
  have hfirst : leastFit m ≤ firstPower m s := Nat.le_max_right _ _
  have hbest := firstPower_le_bestPower m s
  rw [scaleProcedure]
  by_cases hover : s < kest m
  · rw [if_pos hover, scaleResult_eq, if_pos (by omega)]
  rw [if_neg hover]
  simp only [Config.scaleMax]
  obtain ⟨k, hk⟩ : ∃ k, max (kest m) (s - 28) = k := ⟨_, rfl⟩
  have hle : k ≤ firstPower m s := hk ▸ max_le (hlower.trans hfirst) (Nat.le_max_left _ _)
  have hstart : firstPower m s ≤ k + 1 := max_le (by omega) (by omega)
  rw [hk]
  by_cases hzero : k = 0
  · rw [if_pos hzero, scaleResult_of_fits (fits_of_kest_eq_zero hm (by omega)) (by omega)]
  · have hloop := procedureLoop_eq (M := m) (s := s) (a := 0) (fuel := procedureFuel m k) (rem := 0) (sticky := false)
      (Nat.pos_of_ne_zero hzero) (by omega) (by omega) (by simp [stickyWith, Nat.mod_one])
      (by unfold procedureFuel; omega)
    rw [if_neg hzero, scaleResult_eq, ← hloop, pow_zero, Nat.div_one, Nat.zero_add]

end Sys2Proof.Proofs
end

section
/-! `RNDHE` and `RNDHE.S`: one rounding step that differs in the sticky bit it looks at (R131, R132). -/

namespace Sys2Proof.Proofs

open Sys2Proof.Machine Sys2Proof.Safety

/-- An increment carries out of a group exactly when the sum reaches `2^(32n)` (R131). -/
theorem carryOut_increment {n q : Nat} (hq : q < 2 ^ (32 * n)) (up : Bool) :
    carryOut n (q + up.toNat) = decide (2 ^ (32 * n) ≤ q + up.toNat) := by
  have hup := up.toNat_le
  refine decide_eq_decide.2 ⟨fun h => ?_, fun h => Nat.div_eq_of_lt_le (by omega) (by omega)⟩
  by_contra hlt
  simp [Nat.div_eq_of_lt (Nat.lt_of_not_le hlt)] at h

/-- Everything a rounding step with a remainder below its divisor leaves: the rounded quotient, its carry, and the
frame (R131, R132). -/
theorem roundGroups_result {n rd ra rb : Nat} (sticky : Bool) {s : State} (hrd : rd + n ≤ 32)
    (hrem : s.group ra n < s.group rb n) :
    ∃ t, roundGroups n rd ra rb sticky s = .next t ∧
      let sum := s.group rd n + (roundsUp (s.group rd n) (s.group ra n) (s.group rb n) sticky).toNat
      t.group rd n = sum % 2 ^ (32 * n) ∧ endsOk [⟨rd, n⟩] 0 (decide (2 ^ (32 * n) ≤ sum)) s.flags.s s t := by
  obtain ⟨hbad, -⟩ | ⟨-, sum, hsum, hstep⟩ := roundGroups_cases n rd ra rb sticky s
  · omega
  refine ⟨_, hstep, ?_⟩
  simp only [← hsum]
  constructor
  · rw [State.completeOk_eq, State.complete_group, State.setC_group,
      State.group_setGroup _ _ _ _ hrd (Nat.mod_lt _ (Nat.two_pow_pos _))]
  · rw [hsum, ← carryOut_increment (s.group_lt rd n)]
    exact endsOk_one_group s rd n _ _ hrd

theorem exec_rndhe_of_legal {n : LimbField} {rd ra rb : Reg} (h : (Instr.rndhe n rd ra rb).wellFormed = true)
    (s : State) : exec (.rndhe n rd ra rb) s = roundGroups (limbs n) rd ra rb false s := whenLegal_of_legal h s _

theorem exec_rndheS_of_legal {n : LimbField} {rd ra rb : Reg} (h : (Instr.rndheS n rd ra rb).wellFormed = true)
    (s : State) : exec (.rndheS n rd ra rb) s = roundGroups (limbs n) rd ra rb s.flags.s s :=
  whenLegal_of_legal h s _

/-- Without a sticky bit a tie goes to the even neighbour (R15). -/
theorem roundsUp_without_sticky (q r d : Nat) :
    roundsUp q r d false = decide (d < 2 * r ∨ (2 * r = d ∧ q % 2 = 1)) := by
  simp [roundsUp]

/-- Settles O40: both are the shared rounding step, `RNDHE` with a clear sticky bit and `RNDHE.S` with `S`. -/
theorem roundingResults : Obligations.RoundingResults := by
  intro n rd ra rb s hrem N q r d
  constructor
  · intro h
    rw [exec_rndhe_of_legal h, ← roundsUp_without_sticky]
    exact roundGroups_result false (fits_of_wellFormed h (g := ⟨rd, limbs n⟩) (by simp [Instr.dests])) hrem
  · intro h
    rw [exec_rndheS_of_legal h]
    exact roundGroups_result s.flags.s (fits_of_wellFormed h (g := ⟨rd, limbs n⟩) (by simp [Instr.dests])) hrem

end Sys2Proof.Proofs
end

section
/-! A chain of reduction steps that collects the discarded remainders in `S` (R128 to R130). -/

namespace Sys2Proof.Proofs

open Sys2Proof.Machine Sys2Proof.Safety

/-- Limbs `0 .. n` of the window at `rd` hold `m`, and the `hi` register `ra` names a limb up to `n` above which they
are 0: reading limbs `0 .. hi` loses nothing (R126). -/
structure WindowHolds (rd ra n m : Nat) (t : State) : Prop where
  hi_le : (t.limb ra).toNat ≤ n
  group_eq : t.group rd (n + 1) = m
  lt_of_hi : m < 2 ^ (32 * ((t.limb ra).toNat + 1))

theorem windowHolds_self (rd ra : Nat) (s : State) :
    WindowHolds rd ra (s.limb ra).toNat (s.group rd ((s.limb ra).toNat + 1)) s :=
  ⟨le_rfl, rfl, s.group_lt rd _⟩

/-- What a window holds depends on its registers and the `hi` register alone. -/
theorem WindowHolds.congr {rd ra n m : Nat} {s t : State} (h : WindowHolds rd ra n m s)
    (hhi : t.limb ra = s.limb ra) (hgroup : t.group rd (n + 1) = s.group rd (n + 1)) : WindowHolds rd ra n m t :=
  ⟨hhi ▸ h.hi_le, hgroup.trans h.group_eq, hhi ▸ h.lt_of_hi⟩

/-- The limbs up to `hi` hold the whole magnitude, those above it nothing. -/
theorem WindowHolds.split {rd ra n m : Nat} {t : State} (h : WindowHolds rd ra n m t) :
    t.group rd ((t.limb ra).toNat + 1) = m ∧
      t.group (rd + ((t.limb ra).toNat + 1)) (n - (t.limb ra).toNat) = 0 := by
  obtain ⟨hle, hgroup, hlt⟩ := h
  generalize (t.limb ra).toNat = hi at *
  rw [show n + 1 = hi + 1 + (n - hi) by omega, group_add] at hgroup
  have hhigh : t.group (rd + (hi + 1)) (n - hi) = 0 := by
    by_contra hne
    have := Nat.le_mul_of_pos_right (2 ^ (32 * (hi + 1))) (Nat.pos_of_ne_zero hne)
    omega
  rw [hhigh, Nat.mul_zero, Nat.add_zero] at hgroup
  exact ⟨hgroup, hhigh⟩

section
variable {rd ra rb rc n m M k p : Nat} {sticky : Bool} {s t : State}

/-- A reduction step leaves the quotient in the whole window, since the limbs above `hi` were 0 already (R127). -/
theorem WindowHolds.of_reduced (h : WindowHolds rd ra n m s) (ho : WindowOperands rd ra rc 2) (hn : n ≤ 5)
    (ht : reduced rd ra rb rc sticky s t) : WindowHolds rd ra n (m / 10 ^ min (s.limb rb).toNat 9) t := by
  obtain ⟨hlow, hhigh⟩ := h.split
  obtain ⟨hquot, -, -, hhi, ⟨hbound, -⟩, -, -, -, hsame, -⟩ := ht
  rw [hlow] at hquot hbound
  have hle := h.hi_le
  generalize (s.limb ra).toNat = hi at *
  have hkept : t.group (rd + (hi + 1)) (n - hi) = 0 := by
    rw [← hhigh]
    refine State.group_congr fun j hj1 hj2 => (hsame j ?_).1
    obtain ⟨-, -, -, hhiWindow, houtWindow, -⟩ := ho
    simp only [outside_cons, outside_nil, and_true]
    omega
  refine ⟨hhi.trans hle, ?_, hbound⟩
  rw [show n + 1 = hi + 1 + (n - hi) by omega, group_add, hkept, hquot, Nat.mul_zero, Nat.add_zero]

/-- A chain of steps has divided `M` by `10^k` and then by `10^p`: the last divisor and remainder stand in their
registers, and `S` tells whether anything was discarded before them (R127, R128). -/
structure ReducedTo (rd ra rc n M k p : Nat) (t : State) : Prop where
  window : WindowHolds rd ra n (M / 10 ^ (k + p)) t
  divisor : (t.limb rc).toNat = 10 ^ p
  remainder : (t.limb (rc + 1)).toNat = M / 10 ^ k % 10 ^ p
  sticky : t.flags.s = decide (M % 10 ^ k ≠ 0)

/-- One more reduction step of a chain, its sticky bit being right. -/
theorem reduceStep_reducedTo (ho : WindowOperands rd ra rc 2) (hn : n ≤ 5)
    (hwindow : WindowHolds rd ra n (M / 10 ^ k) s) (hbudget : (s.limb rb).toNat = p) (hp : p ≤ 9)
    (hsticky : sticky = decide (M % 10 ^ k ≠ 0)) :
    ∃ t, reduceStep sticky rd ra rb rc s = .next t ∧ ReducedTo rd ra rc n M k p t := by
  obtain ⟨t, hstep, ht⟩ := reduceStep_reduced rb sticky ho (hwindow.hi_le.trans hn)
  have hnext := hwindow.of_reduced ho hn ht
  obtain ⟨-, hdivisor, hremainder, -, -, hflags, -⟩ := ht
  rw [hbudget, Nat.min_eq_left hp] at hnext hdivisor hremainder
  rw [hwindow.split.1] at hremainder
  rw [Nat.div_div_eq_div_mul, ← pow_add] at hnext
  exact ⟨t, hstep, hnext, hdivisor, hremainder, by rw [hflags, hsticky]⟩

end

section
variable {rd ra rb rc : Reg} {n M k p : Nat} {s : State}

/-- A budget register that is no destination of the step lies outside the window, the `hi` register and the output
pair. -/
theorem outside_dests_iff : outside (Instr.reduceClr rd ra rb rc).dests rb = true ↔
    ¬ (rd.val ≤ rb.val ∧ rb.val < rd + 6) ∧ ra.val ≠ rb.val ∧ rc.val ≠ rb.val ∧ rc.val + 1 ≠ rb.val := by
  simp only [Instr.dests, windowSize, outside_cons, outside_nil, and_true]
  omega

/-- Loading the budget changes nothing that the chain has left (R216). -/
theorem WindowHolds.load {m : Nat} (h : WindowHolds rd ra n m s) (hn : n ≤ 5)
    (hout : outside (Instr.reduceClr rd ra rb rc).dests rb = true) (imm : Word) :
    WindowHolds rd ra n m (s.setLimb rb imm).completeOk := by
  obtain ⟨hwindow, hhi, -⟩ := outside_dests_iff.1 hout
  exact h.congr (State.limb_setLimb_ne _ _ hhi.symm) (by
    rw [State.completeOk_eq, State.complete_group, State.group_setLimb_of_outside _ _ _ _ _ (by omega)])

theorem toNat_limb_load (rb : Reg) (hp : p ≤ 9) (s : State) :
    ((s.setLimb rb (BitVec.ofNat 32 p)).completeOk.limb rb).toNat = p := by
  rw [State.completeOk_eq, State.complete_limb, State.limb_setLimb_same _ _ _ rb.isLt, BitVec.toNat_ofNat,
    Nat.mod_eq_of_lt (by omega)]

/-- The two modes of the chain are legal together (R70). -/
theorem wellFormed_reduceAcc (rd ra rb rc : Reg) :
    (Instr.reduceAcc rd ra rb rc).wellFormed = (Instr.reduceClr rd ra rb rc).wellFormed := rfl

/-- The first step of a chain clears `S`: nothing has been discarded yet (R129). -/
theorem exec_load_reduceClr (hlegal : (Instr.reduceClr rd ra rb rc).wellFormed = true)
    (hout : outside (Instr.reduceClr rd ra rb rc).dests rb = true) (hn : n ≤ 5) (hp : p ≤ 9)
    (hwindow : WindowHolds rd ra n M s) :
    ∃ t, exec (.reduceClr rd ra rb rc) (s.setLimb rb (BitVec.ofNat 32 p)).completeOk = .next t ∧
      ReducedTo rd ra rc n M 0 p t := by
  rw [exec_reduceClr, execReduceClr, whenLegal_of_legal hlegal]
  refine reduceStep_reducedTo (windowOperands_of_wellFormed hlegal rfl) hn ?_ (toNat_limb_load rb hp s) hp
    (by simp [Nat.mod_one])
  rw [pow_zero, Nat.div_one]
  exact hwindow.load hn hout _

/-- Every later step folds the remainder before it into `S` (R128). -/
theorem exec_load_reduceAcc (hlegal : (Instr.reduceClr rd ra rb rc).wellFormed = true)
    (hout : outside (Instr.reduceClr rd ra rb rc).dests rb = true) (hn : n ≤ 5) {p' : Nat} (hp' : p' ≤ 9)
    (h : ReducedTo rd ra rc n M k p s) :
    ∃ t, exec (.reduceAcc rd ra rb rc) (s.setLimb rb (BitVec.ofNat 32 p')).completeOk = .next t ∧
      ReducedTo rd ra rc n M (k + p) p' t := by
  obtain ⟨-, -, -, hremainder⟩ := outside_dests_iff.1 hout
  rw [exec_reduceAcc, execReduceAcc, whenLegal_of_legal (wellFormed_reduceAcc rd ra rb rc ▸ hlegal)]
  refine reduceStep_reducedTo (windowOperands_of_wellFormed hlegal rfl) hn (h.window.load hn hout _)
    (toNat_limb_load rb hp' s) hp' ?_
  rw [State.completeOk_eq, State.complete_limb, State.limb_setLimb_ne _ _ hremainder.symm, h.remainder,
    State.complete_flags, State.setLimb_flags, h.sticky, stickyWith_ten_pow_add]

/-- The accumulating steps of a chain go on from any point of it, and divide off the digits of all their budgets
(R130). -/
theorem execList_accumulate (hlegal : (Instr.reduceClr rd ra rb rc).wellFormed = true)
    (hout : outside (Instr.reduceClr rd ra rb rc).dests rb = true) (hn : n ≤ 5) (ps : List Nat)
    (hps : ∀ q ∈ ps, 1 ≤ q ∧ q ≤ 9) (hp : 1 ≤ p) (h : ReducedTo rd ra rc n M k p s) :
    ∃ t k' p', execList (ps.flatMap fun q => [.li rb (BitVec.ofNat 32 q), .reduceAcc rd ra rb rc]) s = .next t ∧
      k' + p' = k + p + ps.sum ∧ 1 ≤ p' ∧ ReducedTo rd ra rc n M k' p' t := by
  induction ps generalizing k p s with
  | nil => exact ⟨s, k, p, rfl, rfl, hp, h⟩
  | cons q ps ih =>
    obtain ⟨⟨hq1, hq9⟩, hps⟩ := List.forall_mem_cons.1 hps
    obtain ⟨u, hu, hreduced⟩ := exec_load_reduceAcc hlegal hout hn hq9 h
    obtain ⟨t, k', p', hrun, hsum, hp', ht⟩ := ih hps hq1 hreduced
    refine ⟨t, k', p', ?_, by rw [hsum, List.sum_cons, Nat.add_assoc], hp', ht⟩
    rw [List.flatMap_cons, List.cons_append, List.cons_append, List.nil_append, execList_cons (exec_li rb _ s),
      execList_cons hu, hrun]

/-- A whole chain ends with the digits of all its budgets divided off in two stages, the last step and all before it
(R130). -/
theorem execList_reduceChain (hlegal : (Instr.reduceClr rd ra rb rc).wellFormed = true)
    (hout : outside (Instr.reduceClr rd ra rb rc).dests rb = true) (hn : n ≤ 5) {ps : List Nat} (hne : ps ≠ [])
    (hps : ∀ q ∈ ps, 1 ≤ q ∧ q ≤ 9) (hwindow : WindowHolds rd ra n M s) :
    ∃ t k p, execList (reduceChain rd ra rb rc ps) s = .next t ∧ k + p = ps.sum ∧ 1 ≤ p ∧
      ReducedTo rd ra rc n M k p t := by
  obtain ⟨q, ps, rfl⟩ := List.exists_cons_of_ne_nil hne
  obtain ⟨⟨hq1, hq9⟩, hps⟩ := List.forall_mem_cons.1 hps
  obtain ⟨u, hu, hreduced⟩ := exec_load_reduceClr hlegal hout hn hq9 hwindow
  obtain ⟨t, k, p, hrun, hsum, hp, ht⟩ := execList_accumulate hlegal hout hn ps hps hq1 hreduced
  refine ⟨t, k, p, ?_, by rw [hsum, Nat.zero_add, List.sum_cons], hp, ht⟩
  rw [reduceChain, List.cons_append, List.cons_append, List.nil_append, execList_cons (exec_li rb _ s),
    execList_cons hu, hrun]

end

/-- Settles O39: the chain divides by `10^k` and last by `10^p`, and `S` holds what the decision of the last step needs
to know of the division by `10^k`. -/
theorem stickyChainRoundsExactly : Obligations.StickyChainRoundsExactly := by
  intro rd ra rb rc ps s hlegal hout hhi hne hps
  obtain ⟨t, k, p, hrun, hsum, hp, hwindow, hdivisor, hremainder, hsticky⟩ :=
    execList_reduceChain hlegal hout hhi hne hps (windowHolds_self rd ra s)
  refine ⟨t, hrun, ?_⟩
  dsimp only
  rw [hwindow.group_eq, hdivisor, hremainder, hsticky, ← hsum, rhe_ten_pow_add _ _ hp, Nat.div_div_eq_div_mul,
    ← pow_add]
  rfl

end Sys2Proof.Proofs
end

section
/-! `DMUL` followed by `DDIV`: a product that was not rounded, divided by its second factor, is its first factor again
(R158, R190 a). -/

namespace Sys2Proof.Proofs

open Sys2Proof.Machine Sys2Proof.Safety

/-- A Decimal that lies apart from the group a command wrote reads as before (R47). -/
theorem decimal_of_sameElsewhere {s t : State} {rd rb : Nat} (h : sameElsewhere [⟨rd, 4⟩] s t)
    (hmeets : Group.meets ⟨rd, 4⟩ ⟨rb, 4⟩ = false) : t.decimal rb = s.decimal rb := by
  have hapart := apart_of_not_meets hmeets
  dsimp only at hapart
  refine State.decimal_congr fun k hlow hhigh => ?_
  exact (h k ((outside_cons _ _ _ _).2 ⟨by omega, outside_nil k⟩)).1

/-- Zero divided by a nonzero Decimal is zero, whatever the scales: a negative scale of the quotient is raised to 0
(R178, R184). -/
theorem divideDecimal_of_zero_dividend {a b : Decimal} (ha : a.mant = 0) (hb : b.mant ≠ 0) :
    divideDecimal a b = .ok { sign := a.sign ^^ b.sign, scale := a.scale - b.scale, mant := 0 } := by
  by_cases hs : b.scale ≤ a.scale
  case pos => rw [divideDecimal_of_exact hb (by rw [ha, Nat.zero_mod]) hs, ha, Nat.zero_div]
  case neg =>
    have hneg : (a.scale : Int) - (b.scale : Int) < 0 := by omega
    have hscale : a.scale - b.scale = 0 := by omega
    simp [divideDecimal, divideFuel, divideLoop, ha, hb, hneg, hscale, Config.mantLimit]

/-- Zeros have the same value at every sign and scale (R25). -/
theorem sameValue_of_zero {a b : Decimal} (ha : a.mant = 0) (hb : b.mant = 0) : sameValue a b := by
  simp [sameValue, signed, ha, hb]

/-- The quotient of the exact product of nonzero factors is the first factor, field by field (R190 a). -/
theorem divideDecimal_product {a b : Decimal} (hb : b.mant ≠ 0) :
    divideDecimal { sign := a.sign ^^ b.sign, scale := a.scale + b.scale, mant := a.mant * b.mant } b = .ok a := by
  rw [divideDecimal_of_exact hb (Nat.mul_mod_left ..) (Nat.le_add_left ..), Bool.xor_assoc, Bool.xor_self,
    Bool.xor_false, Nat.add_sub_cancel, Nat.mul_div_cancel _ (Nat.pos_of_ne_zero hb)]

/-- `Divide` undoes a product that was not rounded (R158, R190 a). -/
theorem divideDecimal_multiplyDecimal {a b : Decimal} (hfit : a.mant * b.mant < 2 ^ 96)
    (hscale : a.scale + b.scale ≤ 28) (hb : b.mant ≠ 0) :
    ∃ p q, multiplyDecimal a b = .ok p ∧ validDecimal p ∧ divideDecimal p b = .ok q ∧
      sameValue q a ∧ (a.mant ≠ 0 → q = a) := by
  by_cases ha : a.mant = 0
  case pos =>
    exact ⟨_, _, multiplyDecimal_of_zero (by rw [ha, Nat.zero_mul]), ⟨Nat.zero_le _, Nat.two_pow_pos 96⟩,
      divideDecimal_of_zero_dividend rfl hb, sameValue_of_zero rfl ha, absurd ha⟩
  case neg =>
    exact ⟨_, _, multiplyDecimal_of_ok (Nat.mul_ne_zero ha hb) (scaleResult_of_fits hfit hscale), ⟨hscale, hfit⟩,
      divideDecimal_product hb, rfl, fun _ => rfl⟩

/-- Settles O54: the divisor lies apart from the product, so that `DDIV` divides the product by the Decimal `DMUL`
multiplied by. -/
theorem multiplyThenDivideRecovers : Obligations.MultiplyThenDivideRecovers := by
  intro rd rq ra rb s hmul hdiv hmeets a b ha hb hfit hscale hne
  have hrd : rd.val + 4 ≤ 32 := fits_of_wellFormed hmul (List.mem_cons_self ..)
  have hrq : rq.val + 4 ≤ 32 := fits_of_wellFormed hdiv (List.mem_cons_self ..)
  obtain ⟨p, q, hp, hpvalid, hq, hvalue, hsame⟩ := divideDecimal_multiplyDecimal hfit hscale hne
  obtain ⟨t, ht, ⟨hproduct, -⟩, -, -, -, hframe, -⟩ := decimalCommand_of_ok hrd ha hb hp hpvalid
  have hdivisor : t.decimal rb = b := decimal_of_sameElsewhere hframe hmeets
  obtain ⟨u, hu, ⟨hquotient, -⟩, -⟩ := decimalCommand_of_ok hrq (f := divideDecimal) (s := t) (ra := rd) (rb := rb)
    (hproduct ▸ hpvalid.1) (hdivisor ▸ hb) (by rw [hproduct, hdivisor, hq]) (divideDecimal_valid hpvalid hq)
  exact ⟨t, u, (exec_dmul_of_legal hmul s).trans ht, (exec_ddiv_of_legal hdiv t).trans hu, hquotient ▸ hvalue,
    hquotient ▸ hsame⟩

end Sys2Proof.Proofs
end

section
/-! `AddSub` in closed form, and what follows from it for `DADD` and `DSUB` (R163 to R170). -/

namespace Sys2Proof.Proofs

open Sys2Proof.Machine Sys2Proof.Safety

/-! Integers as sign and magnitude. -/

theorem natAbs_signed (t : Bool) (m : Nat) : (signed t m).natAbs = m := by cases t <;> simp [signed]

@[simp] theorem signed_eq_zero_iff {t : Bool} {m : Nat} : signed t m = 0 ↔ m = 0 := by cases t <;> simp [signed]

/-- A nonzero magnitude gives the integer its sign. -/
theorem decide_signed_neg {t : Bool} {m : Nat} (hm : m ≠ 0) : decide (signed t m < 0) = t := by
  cases t <;> simp [signed]; omega

theorem signed_add (t : Bool) (x y : Nat) : signed t (x + y) = signed t x + signed t y := by
  cases t <;> simp [signed]; omega

theorem signed_sub (t : Bool) {x y : Nat} (h : x ≤ y) : signed t (y - x) = signed t y - signed t x := by
  cases t <;> simp [signed] <;> omega

theorem signed_not (t : Bool) (m : Nat) : signed (!t) m = -signed t m := by cases t <;> simp [signed]

/-- The sign of a nonzero integer changes with its negation. -/
theorem decide_neg_lt_zero {V : Int} (hV : V ≠ 0) : decide (-V < 0) = !decide (V < 0) := by
  rw [← decide_not, decide_eq_decide]
  omega

/-- The magnitude of a sum of opposite signs is at most the larger one (R166). -/
theorem natAbs_signed_add_le {ta tb : Bool} (hne : ta ≠ tb) (x y : Nat) :
    (signed ta x + signed tb y).natAbs ≤ max x y := by
  obtain rfl : tb = !ta := Bool.eq_not_of_ne hne.symm
  cases ta <;> simp only [signed, Bool.not_true, Bool.not_false, if_true, Bool.false_eq_true, if_false] <;> omega

/-! The term a Decimal stands for, the exact sum of two terms, and its sign. -/

/-- The Decimal as a term of a sum: a subtrahend has its sign inverted (R162, R163). -/
def termOf (sub : Bool) (b : Decimal) : Decimal := { b with sign := b.sign ^^ sub }

/-- The exact sum of two terms in units of `10^-s`, `s` the larger scale (R163). -/
def exactSum (a b : Decimal) : Int :=
  signed a.sign (a.mant * 10 ^ (max a.scale b.scale - a.scale)) +
    signed b.sign (b.mant * 10 ^ (max a.scale b.scale - b.scale))

/-- The sign of an exact zero sum: that of the term kept by the shortcut, or the common sign, or `+` (R167, R168). -/
def zeroSumSign (a b : Decimal) : Bool :=
  if a.scale < b.scale ∧ a.mant = 0 then b.sign
  else if b.scale < a.scale ∧ b.mant = 0 then a.sign
  else a.sign && b.sign

/-- The sign of a sum (R164, R167, R168). -/
def sumSign (a b : Decimal) : Bool := if exactSum a b = 0 then zeroSumSign a b else decide (exactSum a b < 0)

/-- What `AddSub` makes of a sign and a magnitude: the Decimal itself below `2^96`, else its `ScaleResult` (R163). -/
def fitDecimal (sign : Bool) (m s : Nat) : Except Code Decimal :=
  if m < 2 ^ 96 then .ok { sign := sign, scale := s, mant := m }
  else match scaleResult m s with
    | .error code => .error code
    | .ok (q, scale) => .ok { sign := sign, scale := scale, mant := q }

/-- A zero sum of two terms is negative where both are (R168). -/
theorem commonSign_eq_and (ta tb : Bool) : (if ta = tb then ta else false) = (ta && tb) := by
  cases ta <;> cases tb <;> rfl

theorem termOf_false (b : Decimal) : termOf false b = b := by simp [termOf]

theorem exactSum_comm (a b : Decimal) : exactSum a b = exactSum b a := by
  unfold exactSum
  rw [max_comm, add_comm]

theorem zeroSumSign_comm (a b : Decimal) : zeroSumSign a b = zeroSumSign b a := by
  unfold zeroSumSign
  rw [Bool.and_comm]
  rcases lt_trichotomy a.scale b.scale with h | h | h
  · simp only [h, h.not_gt, true_and, false_and, if_false]
  · simp only [h, lt_irrefl, false_and, if_false]
  · simp only [h, h.not_gt, true_and, false_and, if_false]

theorem sumSign_comm (a b : Decimal) : sumSign a b = sumSign b a := by
  rw [sumSign, sumSign, exactSum_comm, zeroSumSign_comm]

/-- The two differences are negatives of each other as integers (R170 b). -/
theorem exactSum_difference_swap (a b : Decimal) : exactSum b (termOf true a) = -exactSum a (termOf true b) := by
  simp only [exactSum, termOf, Bool.xor_true, signed_not, max_comm b.scale a.scale]
  ring

/-! `fitDecimal`. -/

theorem fitDecimal_of_lt {m : Nat} (sign : Bool) (s : Nat) (hm : m < 2 ^ 96) :
    fitDecimal sign m s = .ok { sign := sign, scale := s, mant := m } := if_pos hm

theorem fitDecimal_of_ok {m s q s' : Nat} (sign : Bool) (hm : 2 ^ 96 ≤ m) (h : scaleResult m s = .ok (q, s')) :
    fitDecimal sign m s = .ok { sign := sign, scale := s', mant := q } := by
  rw [fitDecimal, if_neg hm.not_gt, h]

theorem fitDecimal_of_error {m s : Nat} {e : Code} (sign : Bool) (hm : 2 ^ 96 ≤ m) (h : scaleResult m s = .error e) :
    fitDecimal sign m s = .error e := by
  rw [fitDecimal, if_neg hm.not_gt, h]

/-- The sign plays no part in scaling: every sign has the same scale and mantissa, or overflows (R163, R169). -/
theorem fitDecimal_cases (m s : Nat) :
    (∃ s' q, (m = 0 → q = 0) ∧
      ∀ sign, fitDecimal sign m s = .ok { sign := sign, scale := s', mant := q }) ∨
    (scaleResult m s = .error .overflow ∧ ∀ sign, fitDecimal sign m s = .error .overflow) := by
  rcases Nat.lt_or_ge m (2 ^ 96) with hm | hm
  · exact .inl ⟨s, m, id, fun sign => fitDecimal_of_lt sign s hm⟩
  · cases hres : scaleResult m s with
    | ok p => exact .inl ⟨p.2, p.1, by omega, fun sign => fitDecimal_of_ok sign hm hres⟩
    | error e =>
      obtain rfl := scaleResult_error hres
      exact .inr ⟨rfl, fun sign => fitDecimal_of_error sign hm hres⟩

/-! `AddSub` in closed form. -/

/-- The comparison of R163 gives the sign and the magnitude of the exact sum (R164, R168). -/
theorem comparison_eq_sign_natAbs (tx ty : Bool) (x y : Nat) :
    (if tx = ty then (tx, x + y) else if y < x then (tx, x - y) else if x < y then (ty, y - x) else (false, 0)) =
      (if signed tx x + signed ty y = 0 then tx && ty
        else decide (signed tx x + signed ty y < 0), (signed tx x + signed ty y).natAbs) := by
  rcases Decidable.eq_or_ne tx ty with rfl | hne
  case inl =>
    have hsum : signed tx x + signed tx y = signed tx (x + y) := (signed_add tx x y).symm
    rw [hsum, natAbs_signed, if_pos rfl, Bool.and_self]
    split
    case isTrue => rfl
    case isFalse hne => rw [decide_signed_neg (mt signed_eq_zero_iff.2 hne)]
  case inr =>
    obtain rfl : ty = !tx := Bool.eq_not_of_ne hne.symm
    rw [if_neg hne, Bool.and_not_self, signed_not]
    rcases lt_trichotomy x y with hlt | rfl | hgt
    · have hsum : signed tx x + -signed tx y = signed (!tx) (y - x) := by
        rw [signed_not, signed_sub tx hlt.le]
        ring
      rw [hsum, natAbs_signed, if_neg hlt.not_gt, if_pos hlt, if_neg (by rw [signed_eq_zero_iff]; omega),
        decide_signed_neg (by omega)]
    · simp
    · have hsum : signed tx x + -signed tx y = signed tx (x - y) := by
        rw [signed_sub tx hgt.le]
        ring
      rw [hsum, natAbs_signed, if_pos hgt, if_neg (by rw [signed_eq_zero_iff]; omega),
        decide_signed_neg (by omega)]

/-- An aligned sum fits its exact sum, the sign of a zero as the shortcut or the signs give it (R163, R167, R168). -/
theorem addAligned_eq (tx ty : Bool) (x delta s : Nat) {y : Nat} (hy : y < 2 ^ 96) :
    addAligned tx x ty y delta s =
      fitDecimal
        (if signed tx (x * 10 ^ delta) + signed ty y = 0 then
          if 0 < delta ∧ x = 0 then ty else tx && ty
        else decide (signed tx (x * 10 ^ delta) + signed ty y < 0))
        (signed tx (x * 10 ^ delta) + signed ty y).natAbs s := by
  by_cases hshort : 0 < delta ∧ x = 0
  case pos =>
    have hsum : signed tx (x * 10 ^ delta) + signed ty y = signed ty y := by
      rw [hshort.2, Nat.zero_mul, signed_eq_zero_iff.2 rfl, zero_add]
    rw [addAligned, if_pos hshort, if_pos hshort, hsum, natAbs_signed, fitDecimal_of_lt _ _ hy]
    split
    case isTrue => rfl
    case isFalse hne => rw [decide_signed_neg (mt signed_eq_zero_iff.2 hne)]
  case neg =>
    rw [addAligned, if_neg hshort, if_neg hshort]
    dsimp only
    rw [comparison_eq_sign_natAbs]
    rfl

/-- `AddSub` fits the exact sum of its terms (R163). -/
theorem addSubDecimal_eq {a b : Decimal} (sub : Bool) (ha : a.mant < 2 ^ 96) (hb : b.mant < 2 ^ 96) :
    addSubDecimal sub a b =
      fitDecimal (sumSign a (termOf sub b)) (exactSum a (termOf sub b)).natAbs (max a.scale b.scale) := by
  unfold addSubDecimal sumSign exactSum zeroSumSign
  dsimp only [termOf]
  rcases lt_trichotomy a.scale b.scale with h | h | h
  · rw [if_pos h.le, addAligned_eq _ _ _ _ _ hb]
    simp [h, h.not_gt, h.le]
  · rw [if_pos h.le, addAligned_eq _ _ _ _ _ hb]
    simp [h]
  · rw [if_neg h.not_ge, addAligned_eq _ _ _ _ _ ha, add_comm]
    simp [h, h.not_gt, h.le, Bool.and_comm]

/-- Settles O47: each range of the exact sum is one case of `fitDecimal`. -/
theorem decimalSumIsExactOrBestFit : Obligations.DecimalSumIsExactOrBestFit := by
  intro sub a b ha hb s tb V
  have hsum : addSubDecimal sub a b = fitDecimal (sumSign a (termOf sub b)) V.natAbs s :=
    addSubDecimal_eq sub ha.2 hb.2
  have hsign (hV : V ≠ 0) : sumSign a (termOf sub b) = decide (V < 0) := if_neg hV
  rw [hsum]
  refine ⟨fun hV hfit => ?exact, fun hV => ?zero, fun hbig => ?scaled⟩
  case exact => rw [hsign hV, fitDecimal_of_lt _ _ hfit]
  case zero =>
    rw [show sumSign a (termOf sub b) = zeroSumSign a (termOf sub b) from if_pos hV, hV]
    simp only [commonSign_eq_and]
    exact fitDecimal_of_lt _ _ (Nat.two_pow_pos 96)
  case scaled =>
    rw [hsign (by omega)]
    exact ⟨fun q s' => fitDecimal_of_ok _ hbig, fitDecimal_of_error _ hbig⟩

/-! Commutation. -/

theorem addSubDecimal_comm {a b : Decimal} (ha : a.mant < 2 ^ 96) (hb : b.mant < 2 ^ 96) :
    addSubDecimal false a b = addSubDecimal false b a := by
  rw [addSubDecimal_eq false ha hb, addSubDecimal_eq false hb ha, termOf_false, termOf_false, sumSign_comm,
    exactSum_comm, max_comm]

/-- `DADD` is illegal where a register exceeds 28 (R161). -/
theorem wellFormed_dadd_iff {rd ra rb : Reg} : (Instr.dadd rd ra rb).wellFormed = true ↔
    rd.val ≤ 28 ∧ ra.val ≤ 28 ∧ rb.val ≤ 28 := by
  simp [Instr.wellFormed, Instr.limbCountOk, Instr.groupsFit, Instr.destsApart, Instr.digitsOk, Instr.dests,
    Instr.srcs, Group.fits, groupsApart, decimalSize, Config.nreg]

/-- Exchanging the sources keeps `DADD` legal (R70). -/
theorem wellFormed_dadd_swap (rd ra rb : Reg) :
    (Instr.dadd rd ra rb).wellFormed = (Instr.dadd rd rb ra).wellFormed := by
  rw [Bool.eq_iff_iff, wellFormed_dadd_iff, wellFormed_dadd_iff, and_comm (a := ra.val ≤ 28)]

/-- A Decimal command whose function commutes on its operands commutes (R26). -/
theorem decimalCommand_swap {f : Decimal → Decimal → Except Code Decimal} {ra rb : Nat} {s : State} (rd : Nat)
    (hf : f (s.decimal ra) (s.decimal rb) = f (s.decimal rb) (s.decimal ra)) :
    decimalCommand f rd ra rb s = decimalCommand f rd rb ra s := by
  simp only [decimalCommand, hf, or_comm]

theorem exec_dadd_swap (rd ra rb : Reg) (s : State) : exec (.dadd rd ra rb) s = exec (.dadd rd rb ra) s := by
  cases hlegal : (Instr.dadd rd ra rb).wellFormed with
  | true =>
    rw [exec_dadd_of_legal hlegal, exec_dadd_of_legal (wellFormed_dadd_swap rd ra rb ▸ hlegal)]
    exact decimalCommand_swap rd (addSubDecimal_comm (mant_decimal_lt s ra) (mant_decimal_lt s rb))
  | false =>
    exact (whenLegal_of_illegal hlegal s _).trans
      (whenLegal_of_illegal (wellFormed_dadd_swap rd ra rb ▸ hlegal) s _).symm

/-- The signs of the two differences are opposite unless the difference is zero (R170 b). -/
theorem sumSign_difference_swap {a b : Decimal} (h : exactSum a (termOf true b) ≠ 0) :
    sumSign a (termOf true b) = !sumSign b (termOf true a) := by
  rw [sumSign, sumSign, exactSum_difference_swap a b, if_neg h, if_neg (neg_ne_zero.2 h), decide_neg_lt_zero h,
    Bool.not_not]

/-- Settles O48: the exact sum is symmetric, and the two differences have one magnitude, which `fitDecimal` treats
alike for both signs. -/
theorem decimalSumCommutes : Obligations.DecimalSumCommutes := by
  refine ⟨exec_dadd_swap, fun a b ha hb => ?_⟩
  rw [addSubDecimal_eq true ha.2 hb.2, addSubDecimal_eq true hb.2 ha.2, exactSum_difference_swap a b, Int.natAbs_neg,
    max_comm b.scale a.scale]
  obtain ⟨s', q, hzero, hok⟩ | ⟨-, herror⟩ :=
    fitDecimal_cases (exactSum a (termOf true b)).natAbs (max a.scale b.scale)
  · rw [hok, hok]
    refine ⟨rfl, rfl, fun hq => sumSign_difference_swap fun hsum => hq (hzero ?_)⟩
    rw [hsum, Int.natAbs_zero]
  · rw [herror, herror]
    exact ⟨rfl, rfl⟩

/-! Overflow. -/

/-- A magnitude of at most `q` multiples of a divisor rounds to at most `q` (R15). -/
theorem rhe_le_of_le_mul {m q d : Nat} (hd : 0 < d) (h : m ≤ q * d) : rhe m d ≤ q := by
  rcases h.eq_or_lt with rfl | hlt
  · exact (rhe_mul_self q hd).le
  · calc rhe m d ≤ m / d + 1 := rhe_le m d
      _ ≤ q := (Nat.div_lt_iff_lt_mul hd).2 hlt

/-- `ScaleResult` does not overflow where the magnitude fits at some scale it may choose (R134). -/
theorem scaleResult_ne_overflow {m s j q : Nat} (hj : j ≤ s) (h28 : j ≤ 28) (hs : s ≤ 28) (hq : q < 2 ^ 96)
    (hm : m ≤ q * 10 ^ (s - j)) : scaleResult m s ≠ .error .overflow := by
  have hbound : m < 2 ^ 192 := by
    calc m ≤ q * 10 ^ (s - j) := hm
      _ ≤ q * 10 ^ 28 := Nat.mul_le_mul_left q (Nat.pow_le_pow_right (by decide) (by omega))
      _ < 2 ^ 192 := by omega
  intro hover
  have hall := (scaleResultIsTheBestFit m s hbound).2.1 hover j hj h28
  exact absurd (rhe_le_of_le_mul (Nat.pow_pos (by decide)) hm) (by omega)

/-- A difference of magnitudes is at most the larger mantissa in units of the smaller scale (R166). -/
theorem natAbs_exactSum_le {a b : Decimal} (hne : a.sign ≠ b.sign) :
    (exactSum a b).natAbs ≤ max a.mant b.mant * 10 ^ (max a.scale b.scale - min a.scale b.scale) := by
  have haligned {x e : Nat} (hx : x ≤ max a.mant b.mant) (he : min a.scale b.scale ≤ e) :
      x * 10 ^ (max a.scale b.scale - e) ≤
        max a.mant b.mant * 10 ^ (max a.scale b.scale - min a.scale b.scale) :=
    Nat.mul_le_mul hx (Nat.pow_le_pow_right (by decide) (Nat.sub_le_sub_left he _))
  exact (natAbs_signed_add_le hne _ _).trans
    (Nat.max_le.2 ⟨haligned (le_max_left ..) (min_le_left ..), haligned (le_max_right ..) (min_le_right ..)⟩)

/-- Settles O49: a difference of magnitudes fits at the smaller of the two scales. -/
theorem overflowOnlyWhenMagnitudesAdd : Obligations.OverflowOnlyWhenMagnitudesAdd := by
  intro sub a b e ha hb herr
  rw [addSubDecimal_eq sub ha.2 hb.2] at herr
  obtain ⟨s', q, -, hok⟩ | ⟨hres, hoverflow⟩ :=
    fitDecimal_cases (exactSum a (termOf sub b)).natAbs (max a.scale b.scale)
  · cases (hok _).symm.trans herr
  · cases (hoverflow _).symm.trans herr
    refine ⟨rfl, by_contra fun hne => ?_⟩
    exact scaleResult_ne_overflow ((min_le_left ..).trans (le_max_left ..)) ((min_le_left ..).trans ha.1)
      (Nat.max_le.2 ⟨ha.1, hb.1⟩) (Nat.max_lt.2 ⟨ha.2, hb.2⟩) (natAbs_exactSum_le (b := termOf sub b) hne) hres

end Sys2Proof.Proofs
end

section
/-! `DDIV`: the scale search (R180) and the unscale pass (R185). -/

namespace Sys2Proof.Proofs

open Sys2Proof.Machine Sys2Proof.Safety

/-! The scale search. -/

/-- The scale search keeps to its bound and misses no safe power up to it (R180). -/
theorem searchScaleFrom_maximal (q room bound : Nat) :
    searchScaleFrom q room bound ≤ bound ∧
      ∀ j ≤ bound, j ≤ room → (q + 1) * 10 ^ j ≤ 2 ^ 96 → j ≤ searchScaleFrom q room bound := by
  induction bound with
  | zero => exact ⟨le_rfl, fun j hj _ _ => hj⟩
  | succ bound ih =>
    obtain ⟨hbound, hmax⟩ := ih
    rw [searchScaleFrom]
    split
    case isTrue => exact ⟨le_rfl, fun j hj _ _ => hj⟩
    case isFalse hunsafe =>
      refine ⟨hbound.trans (Nat.le_succ bound), fun j hj hroom hsafe => hmax j ?_ hroom hsafe⟩
      rcases hj.lt_or_eq with hlt | rfl
      · exact Nat.le_of_lt_succ hlt
      · exact absurd ⟨hroom, hsafe⟩ hunsafe

theorem le_searchScale {q j : Nat} {s : Int} (hj : j ≤ 19) (hroom : s + j ≤ 28) (hsafe : (q + 1) * 10 ^ j ≤ 2 ^ 96) :
    j ≤ searchScale q s :=
  (searchScaleFrom_maximal q _ 19).2 j hj (show j ≤ ((28 : Int) - s).toNat by omega) hsafe

/-- Below scale 28 the search finds no step exactly where one digit more need not fit 96 bits (R180). -/
theorem searchScale_eq_zero_iff {q : Nat} {s : Int} (hs : s < 28) :
    searchScale q s = 0 ↔ 2 ^ 96 < (q + 1) * 10 := by
  refine ⟨fun hzero => ?_, fun hbig => ?_⟩
  · by_contra hfit
    have hone : 1 ≤ searchScale q s := le_searchScale (by decide) (by omega) (by omega)
    omega
  · by_contra hne
    have hten : 10 ≤ 10 ^ searchScale q s := Nat.le_self_pow hne 10
    have := Nat.mul_le_mul_left (q + 1) hten
    have := searchScale_lt hne
    omega

/-- Settles O51: a search that finds no step answers 0, which is safe for every quotient below `2^96`. -/
theorem scaleSearchIsSafeAndMaximal : Obligations.ScaleSearchIsSafeAndMaximal := by
  intro q s hq hs k
  have hsafe : s + k ≤ 28 ∧ (q + 1) * 10 ^ k ≤ 2 ^ 96 := by
    by_cases hk : k = 0
    · rw [hk]
      omega
    · exact ⟨searchScale_le hk, (searchScale_lt hk).le⟩
  refine ⟨⟨(searchScaleFrom_maximal q _ 19).1, hsafe⟩, fun j => le_searchScale, ?_⟩
  rw [searchScale_eq_zero_iff hs]
  omega

/-! The unscale pass. -/

/-- The scale or the mantissa does not allow another `j` zeros to be removed (R178, R185). -/
def NoMoreZeros (j : Nat) (p : Nat × Nat) : Prop := j ≤ p.2 → ¬ 10 ^ j ∣ p.1

/-- Where `m + j` zeros cannot be removed, `m` cannot be after a trial of `10^j`: if it succeeds it takes `j` of them,
and if it fails not even `j` can be removed (R185). -/
theorem NoMoreZeros.stripPow {j m : Nat} {p : Nat × Nat} (hjm : j ≤ m) (h : NoMoreZeros (m + j) p) :
    NoMoreZeros m (stripPow j p) := by
  unfold Machine.stripPow
  split
  case isTrue hstrip =>
    obtain ⟨hscale, hzeros⟩ := hstrip
    intro (hm : m ≤ p.2 - j) hdvd
    refine h (by omega) ?_
    rw [pow_add, ← Nat.div_mul_cancel (Nat.dvd_of_mod_eq_zero hzeros)]
    exact Nat.mul_dvd_mul_right hdvd _
  case isFalse hkeep =>
    intro hm hdvd
    exact hkeep ⟨hjm.trans hm, Nat.mod_eq_zero_of_dvd ((pow_dvd_pow 10 hjm).trans hdvd)⟩

/-- `p'` is `p` with trailing zeros removed from the mantissa and as many taken off the scale (R185). -/
def StrippedTo (p p' : Nat × Nat) : Prop := p'.2 ≤ p.2 ∧ p.1 = p'.1 * 10 ^ (p.2 - p'.2)

theorem strippedTo_refl (p : Nat × Nat) : StrippedTo p p := ⟨le_rfl, by simp⟩

theorem StrippedTo.trans {p p' p'' : Nat × Nat} (h : StrippedTo p p') (h' : StrippedTo p' p'') : StrippedTo p p'' := by
  obtain ⟨hscale, hmant⟩ := h
  obtain ⟨hscale', hmant'⟩ := h'
  refine ⟨hscale'.trans hscale, ?_⟩
  rw [hmant, hmant', Nat.mul_assoc, ← pow_add]
  congr 2
  omega

theorem stripPow_strippedTo (j : Nat) (p : Nat × Nat) : StrippedTo p (stripPow j p) := by
  unfold stripPow
  split
  case isTrue hstrip =>
    obtain ⟨hscale, hzeros⟩ := hstrip
    refine ⟨Nat.sub_le _ _, ?_⟩
    rw [Nat.sub_sub_self hscale, Nat.div_mul_cancel (Nat.dvd_of_mod_eq_zero hzeros)]
  case isFalse => exact strippedTo_refl p

theorem unscale_strippedTo (q scale : Nat) : StrippedTo (q, scale) (unscale q scale) :=
  (stripPow_strippedTo 8 _).trans <| (stripPow_strippedTo 8 _).trans <| (stripPow_strippedTo 8 _).trans <|
    (stripPow_strippedTo 4 _).trans <| (stripPow_strippedTo 2 _).trans <| stripPow_strippedTo 1 _

/-- From a scale below 32 the seven trials leave no zero that the scale allows to remove (R185). -/
theorem unscale_noMoreZeros (q : Nat) {scale : Nat} (h : scale < 32) : NoMoreZeros 1 (unscale q scale) := by
  have hstart : NoMoreZeros 32 (q, scale) := fun hscale => absurd hscale (Nat.not_le.2 h)
  have height : NoMoreZeros 8 (stripPow 8 (stripPow 8 (stripPow 8 (q, scale)))) :=
    .stripPow le_rfl <| .stripPow (m := 16) (by decide) <| .stripPow (m := 24) (by decide) hstart
  exact .stripPow le_rfl <| .stripPow (m := 2) le_rfl <| .stripPow (m := 4) le_rfl height

/-- Settles O53: each trial moves zeros from the mantissa to the scale, and the last leaves none to move. -/
theorem unscaleStripsEveryZero : Obligations.UnscaleStripsEveryZero := by
  intro q scale hscale p
  obtain ⟨hle, hvalue⟩ := unscale_strippedTo q scale
  have hzeros : NoMoreZeros 1 p := unscale_noMoreZeros q (by omega)
  rw [NoMoreZeros, pow_one, Nat.dvd_iff_mod_eq_zero] at hzeros
  exact ⟨hle, hvalue, by omega⟩

end Sys2Proof.Proofs
end

section
/-! `DDIV`: at how many digits the division loop ends, and what it answers there (R178 to R187). -/

namespace Sys2Proof.Proofs

open Sys2Proof.Machine Sys2Proof.Safety

section
variable {a b : Decimal}

/-- What the division answers when it ends after `K` digits, before the unscale pass (R178, R184, R186). -/
def answerAt (a b : Decimal) (K : Nat) : Except Code (Nat × Nat) :=
  if a.mant * 10 ^ K % b.mant = 0 then
    if b.scale ≤ a.scale + K ∨ a.mant * 10 ^ K / b.mant * 10 ^ (b.scale - (a.scale + K)) < 2 ^ 96 then
      .ok (a.mant * 10 ^ K / b.mant * 10 ^ (b.scale - (a.scale + K)), a.scale + K - b.scale)
    else .error .overflow
  else if b.scale ≤ a.scale + K then .ok (rhe (a.mant * 10 ^ K) b.mant, a.scale + K - b.scale)
  else .error .overflow

/-- The loop on `a` and `b` in its state after `K` digits (R178). -/
def loopAt (a b : Decimal) (fuel K : Nat) : Except Code (Nat × Nat × Bool) :=
  divideLoop b.mant fuel (a.mant * 10 ^ K / b.mant) (a.mant * 10 ^ K % b.mant) ((a.scale : Int) + K - b.scale)
    (decide (K ≠ 0))

/-- The digits at which the loop ends: exactly, or because it can take no more (R178, R186). -/
structure StopsAt (a b : Decimal) (K : Nat) : Prop where
  reach : digitsReach a b K
  stop : a.mant * 10 ^ K % b.mant = 0 ∨ digitsEnd a b K
  first : a.mant % b.mant = 0 → K = 0
  room : a.scale + K ≤ b.scale + 28

/-- The step the loop takes after `K` digits (R178, R180). -/
def loopStep (a b : Decimal) (K : Nat) : Nat :=
  if (a.scale : Int) + K - b.scale < 28 then
    searchScale (a.mant * 10 ^ K / b.mant) ((a.scale : Int) + K - b.scale)
  else 0

theorem loopStep_eq_zero_iff {K : Nat} (hroom : a.scale + K ≤ b.scale + 28) :
    loopStep a b K = 0 ↔ digitsEnd a b K := by
  unfold loopStep digitsEnd
  split
  case isTrue hs =>
    rw [searchScale_eq_zero_iff hs]
    omega
  case isFalse hs => exact iff_of_true rfl (.inl (by omega))

/-- A quotient gains at most the digits it is extended by (R178). -/
theorem quotient_extend_le (m K i : Nat) {n : Nat} (hn : 0 < n) :
    m * 10 ^ (K + i) / n + 1 ≤ (m * 10 ^ K / n + 1) * 10 ^ i := by
  refine (Nat.div_lt_iff_lt_mul hn).2 ?_
  have hlt : m * 10 ^ K < (m * 10 ^ K / n + 1) * n := by
    rw [Nat.mul_comm _ n]
    exact Nat.lt_mul_div_succ _ hn
  calc m * 10 ^ (K + i) = m * 10 ^ K * 10 ^ i := by rw [pow_add, Nat.mul_assoc]
    _ < (m * 10 ^ K / n + 1) * n * 10 ^ i := Nat.mul_lt_mul_of_pos_right hlt (Nat.pow_pos (by decide))
    _ = (m * 10 ^ K / n + 1) * 10 ^ i * n := Nat.mul_right_comm ..

/-- A safe step passes over no number of digits at which the division could end (R180, R186). -/
theorem digitsReach_loopStep {K : Nat} (hb : 0 < b.mant) (hreach : digitsReach a b K) (hstep : loopStep a b K ≠ 0) :
    a.scale + (K + loopStep a b K) ≤ b.scale + 28 ∧ digitsReach a b (K + loopStep a b K) := by
  have hsearch : loopStep a b K = searchScale (a.mant * 10 ^ K / b.mant) ((a.scale : Int) + K - b.scale) := by
    unfold loopStep at hstep ⊢
    split at hstep
    case isTrue hs => rw [if_pos hs]
    case isFalse => exact absurd rfl hstep
  rw [hsearch] at hstep ⊢
  have hscale := searchScale_le hstep
  have hsafe := searchScale_lt hstep
  generalize searchScale (a.mant * 10 ^ K / b.mant) ((a.scale : Int) + K - b.scale) = k at *
  refine ⟨by omega, fun j hj => ?_⟩
  rcases Nat.lt_or_ge j K with hlt | hge
  · exact hreach j hlt
  · obtain ⟨i, rfl⟩ := Nat.exists_eq_add_of_le hge
    rintro (hend | hend)
    · omega
    · have hgain := Nat.mul_le_mul_right 10 (quotient_extend_le a.mant K i hb)
      rw [Nat.mul_assoc, ← pow_succ] at hgain
      have hpow : 10 ^ (i + 1) ≤ 10 ^ k := Nat.pow_le_pow_right (by decide) (by omega)
      have := Nat.mul_le_mul_left (a.mant * 10 ^ K / b.mant + 1) hpow
      omega

/-! The loop's three ways on: an exact quotient, no further step, one more step (R178). -/

/-- An exact quotient ends the loop; from a negative scale it is brought up to scale 0 if it fits (R178, R184). -/
theorem loopAt_of_exact {K : Nat} (fuel : Nat) (h : a.mant * 10 ^ K % b.mant = 0) :
    loopAt a b (fuel + 1) K = (answerAt a b K).map fun p => (p.1, p.2, decide (K ≠ 0)) := by
  rw [loopAt, divideLoop, if_pos h, answerAt, if_pos h]
  rcases Nat.lt_or_ge (a.scale + K) b.scale with hs | hs
  · have hneg : (-((a.scale : Int) + K - b.scale)).toNat = b.scale - (a.scale + K) := by omega
    rw [if_pos (by omega), hneg, Nat.sub_eq_zero_of_le hs.le]
    simp only [hs.not_ge, false_or, Config.mantLimit]
    split <;> rfl
  · have hpos : ((a.scale : Int) + K - b.scale).toNat = a.scale + K - b.scale := by omega
    rw [if_neg (by omega), if_pos (.inl hs), hpos, Nat.sub_eq_zero_of_le hs, pow_zero, Nat.mul_one]
    rfl

/-- With a remainder the loop rounds where no step is left, and else takes the step (R178). -/
theorem loopAt_of_inexact {K : Nat} (fuel : Nat) (h : a.mant * 10 ^ K % b.mant ≠ 0) :
    loopAt a b (fuel + 1) K =
      if loopStep a b K = 0 then
        if (a.scale : Int) + K - b.scale < 0 then .error .overflow
        else .ok (rhe (a.mant * 10 ^ K) b.mant, ((a.scale : Int) + K - b.scale).toNat, decide (K ≠ 0))
      else
        let n := (a.mant * 10 ^ K / b.mant * b.mant + a.mant * 10 ^ K % b.mant) * 10 ^ loopStep a b K
        divideLoop b.mant fuel (n / b.mant) (n % b.mant) ((a.scale : Int) + K - b.scale + loopStep a b K) true := by
  rw [loopAt, divideLoop, if_neg h]
  rfl

theorem loopAt_of_end {K : Nat} (fuel : Nat) (h : a.mant * 10 ^ K % b.mant ≠ 0) (hstep : loopStep a b K = 0) :
    loopAt a b (fuel + 1) K = (answerAt a b K).map fun p => (p.1, p.2, decide (K ≠ 0)) := by
  rw [loopAt_of_inexact fuel h, if_pos hstep, answerAt, if_neg h]
  rcases Nat.lt_or_ge (a.scale + K) b.scale with hs | hs
  · rw [if_pos (by omega), if_neg hs.not_ge]
    rfl
  · have hpos : ((a.scale : Int) + K - b.scale).toNat = a.scale + K - b.scale := by omega
    rw [if_neg (by omega), if_pos hs, hpos]
    rfl

theorem loopAt_of_step {K : Nat} (fuel : Nat) (h : a.mant * 10 ^ K % b.mant ≠ 0) (hstep : loopStep a b K ≠ 0) :
    loopAt a b (fuel + 1) K = loopAt a b fuel (K + loopStep a b K) := by
  have hmore : decide (K + loopStep a b K ≠ 0) = true := decide_eq_true (by omega)
  rw [loopAt_of_inexact fuel h, if_neg hstep, Nat.div_add_mod', Nat.mul_assoc, ← pow_add, loopAt, hmore,
    Nat.cast_add, ← add_assoc, add_sub_right_comm _ (loopStep a b K : Int)]

/-- The loop ends within its fuel, and answers what stands at the digits it ends at (R178, R181). -/
theorem loopAt_stops {fuel K : Nat} (hb : 0 < b.mant) (hreach : digitsReach a b K)
    (hfirst : a.mant % b.mant = 0 → K = 0) (hroom : a.scale + K ≤ b.scale + 28)
    (hfuel : b.scale + 29 ≤ a.scale + K + fuel) :
    ∃ K', StopsAt a b K' ∧
      loopAt a b fuel K = (answerAt a b K').map fun p => (p.1, p.2, decide (K' ≠ 0)) := by
  induction fuel generalizing K with
  | zero => omega
  | succ fuel ih =>
    by_cases hexact : a.mant * 10 ^ K % b.mant = 0
    case pos => exact ⟨K, ⟨hreach, .inl hexact, hfirst, hroom⟩, loopAt_of_exact fuel hexact⟩
    case neg =>
      by_cases hstep : loopStep a b K = 0
      case pos =>
        exact ⟨K, ⟨hreach, .inr ((loopStep_eq_zero_iff hroom).1 hstep), hfirst, hroom⟩, loopAt_of_end fuel hexact hstep⟩
      case neg =>
        obtain ⟨hroom', hreach'⟩ := digitsReach_loopStep hb hreach hstep
        have hinexact : a.mant % b.mant ≠ 0 := fun h0 =>
          hexact (Nat.mod_eq_zero_of_dvd ((Nat.dvd_of_mod_eq_zero h0).mul_right _))
        rw [loopAt_of_step fuel hexact hstep]
        exact ih hreach' (absurd · hinexact) hroom' (by omega)

/-- What the unscale pass, which follows a scaling step, makes of a mantissa and a scale (R178, R185). -/
def stripAfter (K : Nat) (p : Nat × Nat) : Nat × Nat := if K = 0 then p else unscale p.1 p.2

/-- `Divide` takes some number of digits, and strips what it answers there (R178). -/
theorem divideDecimal_stops (ha : a.scale ≤ 28) (hb : b.scale ≤ 28) (hne : b.mant ≠ 0) :
    ∃ K, StopsAt a b K ∧ divideDecimal a b = (answerAt a b K).map fun p =>
      { sign := a.sign ^^ b.sign, scale := (stripAfter K p).2, mant := (stripAfter K p).1 } := by
  obtain ⟨K, hstops, hloop⟩ := loopAt_stops (a := a) (fuel := divideFuel) (Nat.pos_of_ne_zero hne)
    (show digitsReach a b 0 from nofun) (fun _ => rfl) (by omega) (by rw [divideFuel]; omega)
  refine ⟨K, hstops, ?_⟩
  have hstart : loopAt a b divideFuel 0 = divideLoop b.mant divideFuel (a.mant / b.mant) (a.mant % b.mant)
      ((a.scale : Int) - b.scale) false := by
    rw [loopAt, pow_zero, Nat.mul_one, Nat.cast_zero, add_zero]
    rfl
  rw [divideDecimal, if_neg hne, ← hstart, hloop]
  cases answerAt a b K with
  | error e => rfl
  | ok p =>
    unfold stripAfter
    by_cases hK : K = 0 <;> simp [Except.map, hK]

theorem stripAfter_strippedTo (K : Nat) (p : Nat × Nat) : StrippedTo p (stripAfter K p) := by
  unfold stripAfter
  split
  · exact strippedTo_refl p
  · exact unscale_strippedTo p.1 p.2

/-! What stands at the digits where the division ends. -/

/-- `m` at scale `sc` is the true quotient (R176). -/
def IsQuotient (a b : Decimal) (m sc : Nat) : Prop :=
  a.mant * 10 ^ b.scale * 10 ^ sc = m * b.mant * 10 ^ a.scale

/-- Removing zeros keeps the value. -/
theorem IsQuotient.stripped {p p' : Nat × Nat} (h : IsQuotient a b p.1 p.2) (hp : StrippedTo p p') :
    IsQuotient a b p'.1 p'.2 := by
  obtain ⟨hscale, hmant⟩ := hp
  have hpow : 10 ^ p.2 = 10 ^ p'.2 * 10 ^ (p.2 - p'.2) := by rw [← pow_add, Nat.add_sub_cancel' hscale]
  unfold IsQuotient at h ⊢
  rw [hmant, hpow] at h
  refine Nat.eq_of_mul_eq_mul_right (Nat.pow_pos (n := p.2 - p'.2) (by decide : 0 < 10)) ?_
  linarith only [h]

/-- An exact quotient after `K` digits, at the scale these give it or brought up to scale 0, is the true one (R184). -/
theorem isQuotient_of_exact {K : Nat} (h : a.mant * 10 ^ K % b.mant = 0) :
    IsQuotient a b (a.mant * 10 ^ K / b.mant * 10 ^ (b.scale - (a.scale + K))) (a.scale + K - b.scale) := by
  have hquot : a.mant * 10 ^ K / b.mant * b.mant = a.mant * 10 ^ K := Nat.div_mul_cancel (Nat.dvd_of_mod_eq_zero h)
  calc a.mant * 10 ^ b.scale * 10 ^ (a.scale + K - b.scale)
      = a.mant * 10 ^ (K + (b.scale - (a.scale + K)) + a.scale) := by
        rw [Nat.mul_assoc, ← pow_add]
        congr 2
        omega
    _ = a.mant * 10 ^ K * 10 ^ (b.scale - (a.scale + K)) * 10 ^ a.scale := by
        rw [pow_add, pow_add]
        ring
    _ = a.mant * 10 ^ K / b.mant * 10 ^ (b.scale - (a.scale + K)) * b.mant * 10 ^ a.scale := by
        rw [Nat.mul_right_comm (a.mant * 10 ^ K / b.mant), hquot]

/-- A quotient after `K` digits that needs `10^n` to reach scale 0 is a lower bound of the true one (R186). -/
theorem quotient_le {K n : Nat} (hn : a.scale + K + n ≤ b.scale) :
    a.mant * 10 ^ K / b.mant * 10 ^ n * b.mant * 10 ^ a.scale ≤ a.mant * 10 ^ b.scale := by
  calc a.mant * 10 ^ K / b.mant * 10 ^ n * b.mant * 10 ^ a.scale
      = a.mant * 10 ^ K / b.mant * b.mant * 10 ^ (n + a.scale) := by
        rw [pow_add]
        ring
    _ ≤ a.mant * 10 ^ K * 10 ^ (n + a.scale) := Nat.mul_le_mul_right _ (Nat.div_mul_le_self _ _)
    _ = a.mant * 10 ^ (K + (n + a.scale)) := by rw [Nat.mul_assoc, ← pow_add]
    _ ≤ a.mant * 10 ^ b.scale := Nat.mul_le_mul_left _ (Nat.pow_le_pow_right (by decide) (by omega))

/-- The two kinds of answer at the digits where the division ends (R178, R184, R186). -/
theorem answerAt_ok {K : Nat} {p : Nat × Nat} (h : answerAt a b K = .ok p) :
    p.2 = a.scale + K - b.scale ∧
    ((a.mant * 10 ^ K % b.mant = 0 ∧ p.1 = a.mant * 10 ^ K / b.mant * 10 ^ (b.scale - (a.scale + K))) ∨
      (a.mant * 10 ^ K % b.mant ≠ 0 ∧ b.scale ≤ a.scale + K ∧ p.1 = rhe (a.mant * 10 ^ K) b.mant)) := by
  unfold answerAt at h
  split_ifs at h with hexact hfit hs <;> cases h
  · exact ⟨rfl, .inl ⟨hexact, rfl⟩⟩
  · exact ⟨rfl, .inr ⟨hexact, hs, rfl⟩⟩

/-- Either overflow is at a negative scale: an exact quotient too large at scale 0, or an inexact one (R184, R186). -/
theorem answerAt_error {K : Nat} {e : Code} (h : answerAt a b K = .error e) :
    e = .overflow ∧ a.scale + K < b.scale ∧
    (a.mant * 10 ^ K % b.mant = 0 → 2 ^ 96 ≤ a.mant * 10 ^ K / b.mant * 10 ^ (b.scale - (a.scale + K))) := by
  unfold answerAt at h
  split_ifs at h with hexact hfit hs <;> cases h
  · exact ⟨rfl, by omega, fun _ => by omega⟩
  · exact ⟨rfl, by omega, fun h0 => absurd h0 hexact⟩

/-- Where the division ends with the scale still negative, the true quotient is close to `2^96` or above (R186). -/
theorem overflow_quotient_large {K : Nat} (hend : digitsEnd a b K) (hs : a.scale + K < b.scale) :
    (2 ^ 96 - 6) * b.mant * 10 ^ a.scale ≤ a.mant * 10 ^ b.scale := by
  have hquot : 2 ^ 96 - 6 ≤ a.mant * 10 ^ K / b.mant * 10 ^ 1 := by
    unfold digitsEnd at hend
    omega
  calc (2 ^ 96 - 6) * b.mant * 10 ^ a.scale
      ≤ a.mant * 10 ^ K / b.mant * 10 ^ 1 * b.mant * 10 ^ a.scale := by gcongr
    _ ≤ a.mant * 10 ^ b.scale := quotient_le hs

/-- What an overflow means: (a) an exact quotient of at least `2^96`, (b) an inexact one at a negative scale (R186). -/
theorem answerAt_error_means {K : Nat} {e : Code} (hstops : StopsAt a b K) (h : answerAt a b K = .error e) :
    e = .overflow ∧ (2 ^ 96 - 6) * b.mant * 10 ^ a.scale ≤ a.mant * 10 ^ b.scale ∧
    (a.mant * 10 ^ K % b.mant = 0 ∧ 2 ^ 96 * b.mant * 10 ^ a.scale ≤ a.mant * 10 ^ b.scale ∨
      a.mant * 10 ^ K % b.mant ≠ 0 ∧ digitsEnd a b K ∧ a.scale + K < b.scale) := by
  obtain ⟨rfl, hneg, hlarge⟩ := answerAt_error h
  by_cases hexact : a.mant * 10 ^ K % b.mant = 0
  case pos =>
    have htrue : 2 ^ 96 * b.mant * 10 ^ a.scale ≤ a.mant * 10 ^ b.scale :=
      calc 2 ^ 96 * b.mant * 10 ^ a.scale
          ≤ a.mant * 10 ^ K / b.mant * 10 ^ (b.scale - (a.scale + K)) * b.mant * 10 ^ a.scale := by
            gcongr
            exact hlarge hexact
        _ ≤ a.mant * 10 ^ b.scale := quotient_le (by omega)
    refine ⟨rfl, le_trans ?_ htrue, .inl ⟨hexact, htrue⟩⟩
    gcongr
    decide
  case neg =>
    have hend := hstops.stop.resolve_left hexact
    exact ⟨rfl, overflow_quotient_large hend hneg, .inr ⟨hexact, hend, hneg⟩⟩

/-- The value of an answer, zeros stripped or not: the true quotient, or that rounded half to even at the last digit
(R182, R186). -/
theorem answerAt_ok_value {K : Nat} {p p' : Nat × Nat} (hstops : StopsAt a b K) (h : answerAt a b K = .ok p)
    (hp : StrippedTo p p') :
    (IsQuotient a b p'.1 p'.2 ∧ ∃ K, digitsReach a b K ∧ a.mant * 10 ^ K % b.mant = 0) ∨
      ∃ K sK : Nat, a.scale + K = b.scale + sK ∧ sK ≤ 28 ∧ p'.2 ≤ sK ∧ digitsEnd a b K ∧ digitsReach a b K ∧
        a.mant * 10 ^ K % b.mant ≠ 0 ∧ rhe (a.mant * 10 ^ K) b.mant = p'.1 * 10 ^ (sK - p'.2) := by
  obtain ⟨hreach, hstop, -, hroom⟩ := hstops
  obtain ⟨hscale, ⟨hexact, hmant⟩ | ⟨hinexact, hpos, hmant⟩⟩ := answerAt_ok h
  · refine .inl ⟨IsQuotient.stripped ?_ hp, K, hreach, hexact⟩
    rw [hscale, hmant]
    exact isQuotient_of_exact hexact
  · obtain ⟨hle, hstripped⟩ := hp
    exact .inr ⟨K, p.2, by omega, by omega, hle, hstop.resolve_left hinexact, hreach, hinexact,
      hmant.symm.trans hstripped⟩

/-- Which Decimal stands for the quotient: without a scaling step the one with its zeros kept (R178, R187). -/
theorem answerAt_zero_ok {p : Nat × Nat} (h : answerAt a b 0 = .ok p) :
    p.2 = a.scale - b.scale ∧
    (a.mant % b.mant = 0 → p.1 = a.mant / b.mant * 10 ^ (b.scale - a.scale)) ∧
    (a.mant % b.mant ≠ 0 → b.scale ≤ a.scale ∧ p.1 = rhe a.mant b.mant) := by
  have hok := answerAt_ok h
  rw [pow_zero, Nat.mul_one, Nat.add_zero] at hok
  obtain ⟨hscale, ⟨hexact, hmant⟩ | ⟨hinexact, hmant⟩⟩ := hok
  · exact ⟨hscale, fun _ => hmant, absurd hexact⟩
  · exact ⟨hscale, (absurd · hinexact), fun _ => hmant⟩

/-- The division takes no digit exactly where the first quotient is exact or no digit more need fit (R178). -/
theorem StopsAt.eq_zero_iff {K : Nat} (h : StopsAt a b K) : K = 0 ↔ a.mant % b.mant = 0 ∨ digitsEnd a b 0 := by
  obtain ⟨hreach, hstop, hfirst, -⟩ := h
  refine ⟨?_, ?_⟩
  · rintro rfl
    simpa using hstop
  · rintro (hexact | hend)
    · exact hfirst hexact
    · by_contra hne
      exact hreach 0 (Nat.pos_of_ne_zero hne) hend

end

/-- Settles O52: the loop stops somewhere, what stands there is the quotient exactly or rounded, and a pass after a
scaling step takes its zeros off. -/
theorem quotientIsExactOrNearest : Obligations.QuotientIsExactOrNearest := by
  intro a b ha hb hne
  obtain ⟨K, hstops, hdiv⟩ := divideDecimal_stops ha.1 hb.1 hne
  cases hanswer : answerAt a b K with
  | error e =>
    rw [hanswer] at hdiv
    refine ⟨fun d hd => (nomatch hdiv.symm.trans hd), fun e' he => ?_⟩
    cases hdiv.symm.trans he
    obtain ⟨hover, hlarge, hmeans⟩ := answerAt_error_means hstops hanswer
    exact ⟨hover, hlarge, K, hstops.reach, hmeans⟩
  | ok p =>
    rw [hanswer] at hdiv
    refine ⟨fun d hd => ?_, fun e he => (nomatch hdiv.symm.trans he)⟩
    have hvalid := divideDecimal_valid ha hd
    cases hdiv.symm.trans hd
    have hkept (hK : K = 0) := answerAt_zero_ok (hK ▸ hanswer)
    have hsame (hK : K = 0) : stripAfter K p = p := if_pos hK
    refine ⟨hvalid, rfl, answerAt_ok_value hstops hanswer (stripAfter_strippedTo K p), fun hexact => ?exact,
      fun hinexact hend => ?rounded, fun hinexact hmore => ?stripped⟩
    case exact =>
      have hK := hstops.first hexact
      obtain ⟨hscale, hmant, -⟩ := hkept hK
      dsimp only
      rw [hsame hK]
      exact ⟨hscale, hmant hexact⟩
    case rounded =>
      have hK := hstops.eq_zero_iff.2 (.inr hend)
      obtain ⟨hscale, -, hmant⟩ := hkept hK
      dsimp only
      rw [hsame hK, hscale, Nat.add_sub_cancel' (hmant hinexact).1]
      exact ⟨rfl, (hmant hinexact).2⟩
    case stripped =>
      have hK : K ≠ 0 := fun h0 => (hstops.eq_zero_iff.1 h0).elim hinexact hmore
      have hroom := hstops.room
      have hscale := (answerAt_ok hanswer).1
      dsimp only
      rw [show stripAfter K p = unscale p.1 p.2 from if_neg hK]
      exact (unscaleStripsEveryZero p.1 p.2 (by omega)).2.2

end Sys2Proof.Proofs
end

section
/-! `DPARSE`: how far the parser reads, and how it rounds what it left unread (R199 to R201). -/

namespace Sys2Proof.Proofs

open Sys2Proof.Machine Sys2Proof.Safety

/-! Digit strings as numbers. -/

theorem foldl_digits_eq (acc : Nat) (ds : List Nat) :
    ds.foldl (fun n d => n * 10 + d) acc = acc * 10 ^ ds.length + spelled ds := by
  induction ds generalizing acc with
  | nil => simp [spelled]
  | cons d ds ih =>
    rw [spelled, List.foldl_cons, List.foldl_cons, ih, ih (0 * 10 + d), List.length_cons, pow_succ]
    ring

theorem spelled_cons (d : Nat) (ds : List Nat) : spelled (d :: ds) = d * 10 ^ ds.length + spelled ds := by
  rw [spelled, List.foldl_cons, foldl_digits_eq, Nat.zero_mul, Nat.zero_add]

theorem spelled_append (ds ds' : List Nat) : spelled (ds ++ ds') = spelled ds * 10 ^ ds'.length + spelled ds' := by
  rw [spelled, List.foldl_append, foldl_digits_eq]
  rfl

theorem spelled_lt {ds : List Nat} (h : ∀ d ∈ ds, d < 10) : spelled ds < 10 ^ ds.length := by
  induction ds with
  | nil => exact Nat.one_pos
  | cons d ds ih =>
    obtain ⟨hd, hds⟩ := List.forall_mem_cons.1 h
    have hrest := ih hds
    have hfirst : d * 10 ^ ds.length ≤ 9 * 10 ^ ds.length := Nat.mul_le_mul_right _ (by omega)
    rw [spelled_cons, List.length_cons, pow_succ]
    omega

theorem spelled_eq_zero_iff (ds : List Nat) : spelled ds = 0 ↔ ds.all (· == 0) = true := by
  induction ds with
  | nil => simp [spelled]
  | cons d ds ih => simp [spelled_cons, ih]

/-! How far the parser reads. -/

/-- The parser splits the digits, and its accumulator goes on from what it was with those it consumed (R198). -/
theorem consume_split (acc : Nat) (ds : List Nat) :
    ∃ used, ds = used ++ (consume acc ds).2 ∧ (consume acc ds).1 = used.foldl (fun n d => n * 10 + d) acc := by
  induction ds generalizing acc with
  | nil => exact ⟨[], rfl, rfl⟩
  | cons d ds ih =>
    rw [consume]
    split
    case isTrue =>
      obtain ⟨used, hsplit, hacc⟩ := ih (acc * 10 + d)
      exact ⟨d :: used, by rw [List.cons_append, ← hsplit], hacc⟩
    case isFalse => exact ⟨[], rfl, rfl⟩

/-- The parser stops only at a digit that no longer fits (R199). -/
theorem le_of_consume_stops {acc f : Nat} {ds rest : List Nat} (h : (consume acc ds).2 = f :: rest) :
    2 ^ 96 ≤ (consume acc ds).1 * 10 + f := by
  induction ds generalizing acc with
  | nil => cases h
  | cons d ds ih =>
    rw [consume] at h ⊢
    split
    case isTrue hfit =>
      rw [if_pos hfit] at h
      exact ih h
    case isFalse hfull =>
      rw [if_neg hfull] at h
      cases h
      exact Nat.le_of_not_lt hfull

/-! How it rounds. -/

/-- Rounding at a power of ten goes by the first digit, and at a five by what follows it (R15, R200). -/
theorem roundsUp_digits_iff (acc : Nat) {f t P : Nat} (ht : t < P) :
    roundsUp acc (f * P + t) (P * 10) false = true ↔ if f = 5 ∧ t = 0 then acc % 2 = 1 else 5 ≤ f := by
  rw [roundsUp_iff]
  rcases Nat.lt_trichotomy f 5 with hlow | rfl | hhigh
  · have : f * P ≤ 4 * P := Nat.mul_le_mul_right P (by omega)
    rw [if_neg (by omega)]
    omega
  · split
    case isTrue hzero => simp [hzero.2, show 2 * (5 * P) = P * 10 by ring]
    case isFalse hrest => exact iff_of_true (.inl (by omega)) le_rfl
  · have : 6 * P ≤ f * P := Nat.mul_le_mul_right P hhigh
    rw [if_neg (by omega)]
    omega

/-- The parser rounds up as the digit it stopped at and the window after it say (R200). -/
theorem parseRoundsUp_eq_roundsUp (acc f : Nat) {rest : List Nat} (hrest : ∀ d ∈ rest.take 20, d < 10) :
    parseRoundsUp acc f rest =
      roundsUp acc (spelled (f :: rest.take 20)) (10 ^ (f :: rest.take 20).length) false := by
  rw [Bool.eq_iff_iff, spelled_cons, List.length_cons, pow_succ, roundsUp_digits_iff acc (spelled_lt hrest),
    parseRoundsUp]
  simp only [spelled_eq_zero_iff, Config.parseTieWindow]
  split <;> exact decide_eq_true_iff

/-- `RHE` of a number followed by digits keeps or increments the number (R15). -/
theorem rhe_digits (acc : Nat) {ds : List Nat} (h : ∀ d ∈ ds, d < 10) :
    rhe (acc * 10 ^ ds.length + spelled ds) (10 ^ ds.length) =
      acc + (roundsUp acc (spelled ds) (10 ^ ds.length) false).toNat := by
  have hlt := spelled_lt h
  have hquot : (acc * 10 ^ ds.length + spelled ds) / 10 ^ ds.length = acc := by
    rw [Nat.mul_comm, Nat.mul_add_div (Nat.pow_pos (by decide)), Nat.div_eq_of_lt hlt, Nat.add_zero]
  have hrem : (acc * 10 ^ ds.length + spelled ds) % 10 ^ ds.length = spelled ds := by
    rw [Nat.mul_comm, Nat.mul_add_mod, Nat.mod_eq_of_lt hlt]
  rw [rhe, hquot, hrem]

/-- A rounded mantissa and its exponent, one more where the rounding carried out of 96 bits (R201). -/
def afterCarry (q : Nat) (e : Int) : Nat × Int :=
  if q = 2 ^ 96 then (7922816251426433759354395034, e + 1) else (q, e)

theorem afterCarry_of_lt {q : Nat} (h : q < 2 ^ 96) (e : Int) : afterCarry q e = (q, e) := if_neg h.ne

theorem afterCarry_add (q : Nat) (e n : Int) :
    afterCarry q (e + n) = ((afterCarry q e).1, (afterCarry q e).2 + n) := by
  unfold afterCarry
  split
  · rw [add_right_comm]
  · rfl

/-- The parser rounds half to even at the digits it looks at, the first 21 left (R200, R201). -/
theorem parseRound_eq {acc : Nat} (hacc : acc < 2 ^ 96) {left : List Nat} (h : ∀ d ∈ left.take 21, d < 10) (e : Int) :
    parseRound acc left e =
      afterCarry (rhe (acc * 10 ^ (left.take 21).length + spelled (left.take 21)) (10 ^ (left.take 21).length))
        (e + left.length) := by
  rw [rhe_digits acc h]
  cases left with
  | nil =>
    have hkeep : roundsUp acc 0 1 false = false := by simp [roundsUp]
    rw [List.take_nil, List.length_nil, pow_zero, show spelled [] = 0 from rfl, hkeep, Bool.toNat_false, Nat.add_zero,
      afterCarry_of_lt hacc, Nat.cast_zero, add_zero]
    rfl
  | cons f rest =>
    rw [List.take_succ_cons] at h ⊢
    rw [← parseRoundsUp_eq_roundsUp acc f (List.forall_mem_cons.1 h).2]
    cases hup : parseRoundsUp acc f rest with
    | false => simp [parseRound, afterCarry_of_lt hacc, hup]
    | true => simp [parseRound, afterCarry, hup, carryMant, Config.mantLimit]

/-- Settles O56: the digits consumed and those left are the digit string, and digits after the window only count. -/
theorem parseRoundsHalfToEven : Obligations.ParseRoundsHalfToEven := by
  intro digits e hdigits acc left
  have hacc : acc < 2 ^ 96 := consume_lt (Nat.two_pow_pos 96) digits
  obtain ⟨used, hsplit, hused⟩ := consume_split 0 digits
  have hleft : ∀ d ∈ left, d < 10 := fun d hd => hdigits d (hsplit ▸ List.mem_append_right used hd)
  have hseen : ∀ d ∈ left.take 21, d < 10 := fun d hd => hleft d (List.mem_of_mem_take hd)
  have hround := parseRound_eq hacc hseen e
  refine ⟨hacc, ⟨used, hsplit, hused⟩, fun f rest => le_of_consume_stops, hround, fun hshort => ?whole,
    fun hlong more => ?further⟩
  case whole =>
    have hnumber : spelled digits = acc * 10 ^ left.length + spelled left := by
      rw [congrArg spelled hsplit, spelled_append]
      exact congrArg (· * _ + _) hused.symm
    rw [List.take_of_length_le hshort, ← hnumber] at hround
    exact hround
  case further =>
    have hwindow : (left ++ more).take 21 = left.take 21 := List.take_append_of_le_length hlong
    rw [hround, parseRound_eq hacc (by rwa [hwindow]), hwindow, List.length_append, Nat.cast_add,
      ← add_assoc, afterCarry_add]

end Sys2Proof.Proofs
end

section
/-! Reset (R250, R251), presenting a command (R244), and what a step that fails changes (R223). -/

namespace Sys2Proof.Proofs

open Sys2Proof.Machine Sys2Proof.Safety

/-- Settles O23: no register of the reset state has a written mark. -/
theorem resetState : Obligations.ResetState := by
  refine ⟨State.assertReset_eq, rfl, fun k => ?_, rfl, rfl⟩
  by_cases hk : k < 32 <;> simp [State.isWritten_eq, State.reset, hk]

/-- Settles O2: the decoder reads the presented words as the command and leaves none. -/
theorem presentedCommandIsTheNextStep : Obligations.PresentedCommandIsTheNextStep := by
  intro s i hempty hi
  have hdecode : decode (s.present (encode i)).commands = .command i [] := by
    rw [State.present_commands, hempty, List.nil_append, ← List.append_nil (encode i)]
    exact decodeOfEncodeIsTheCommand i [] hi
  have hstate : { s.present (encode i) with commands := [] } = s := by rw [← hempty]; rfl
  rw [step_of_command hdecode, hstate]

/-- Everything a step that takes a command off the stream can do: complete an error, or what `exec` does (R50, R224). -/
theorem step_next_cases {s t : State} (hcomplete : decode s.commands ≠ .incomplete) (h : step s = .next t) :
    ∃ rest, (∃ why, decode s.commands = .illegal why rest ∧
        t = { s with commands := rest }.completeError .illegalCommand) ∨
      ∃ i, decode s.commands = .command i rest ∧ exec i { s with commands := rest } = .next t := by
  cases hd : decode s.commands with
  | incomplete => exact absurd hd hcomplete
  | illegal why rest =>
    cases (step_of_illegal hd).symm.trans h
    exact ⟨rest, .inl ⟨why, rfl, rfl⟩⟩
  | command i rest => exact ⟨rest, .inr ⟨i, rfl, (step_of_command hd).symm.trans h⟩⟩

theorem code_bits_ne_zero {code : Code} (h : code.bits ≠ 0) :
    code.bits = Code.overflow.bits ∨ code.bits = Code.divideByZero.bits ∨ code.bits = Code.illegalCommand.bits := by
  cases code with
  | ok => exact absurd rfl h
  | overflow => exact .inl rfl
  | divideByZero => exact .inr (.inl rfl)
  | illegalCommand => exact .inr (.inr rfl)

/-- Settles O15: a completion with an error is `completeError`, since all others leave `ERR = 0`. -/
theorem failedCommandChangesOnlyErr : Obligations.FailedCommandChangesOnlyErr := by
  intro s t hcomplete h herr
  obtain ⟨rest, code, rfl⟩ : ∃ rest code, t = { s with commands := rest }.completeError code := by
    obtain ⟨rest, ⟨-, -, ht⟩ | ⟨i, -, ht⟩⟩ := step_next_cases hcomplete h
    · exact ⟨rest, _, ht⟩
    · obtain ⟨code, ht⟩ | ⟨ws, c, sticky, data, rfl, -, -⟩ := exec_next_cases ht
      · exact ⟨rest, code, ht⟩
      · exact absurd (by simp) herr
  exact ⟨rfl, rfl, rfl, rfl, code_bits_ne_zero herr, _, rfl, rfl⟩

end Sys2Proof.Proofs
end

section
/-! How each command can end: its faults and its completion codes (R222, R226, R228, R230). -/

namespace Sys2Proof.Proofs

open Sys2Proof.Machine Sys2Proof.Safety

/-- A legal command ended with a fault or an error code of its own list, or `OK` with one record, whose data is 0 for
every command but `RD` (R221, R226, R228). -/
inductive LegalEnding (i : Instr) (s : State) : Outcome → Prop where
  | fault {f : Fault} (hf : f ∈ faultsOf i) : LegalEnding i s (.fault f)
  | error {code : Code} (hcode : code ∈ codesOf i) (hown : code = .overflow ∨ code = .divideByZero) :
      LegalEnding i s (.next (s.completeError code))
  | ok {u : State} {data : Word} (hrecords : u.completions = s.completions)
      (hdata : data = 0 ∨ ∃ ra, i = .rdReg ra) : LegalEnding i s (.next (u.complete .ok data))

section
variable {i : Instr} {s : State}

theorem divGroups_ending {a b q : Nat} {norm top : Bool} {rd rc ra rb : Nat} (hf : .divPrecondition ∈ faultsOf i) :
    LegalEnding i s (divGroups a b q norm top rd rc ra rb s) := by
  obtain ⟨-, hnext⟩ | ⟨-, hfault⟩ := divGroups_cases a b q norm top rd rc ra rb s
  · rw [hnext]
    exact .ok (by simp) (.inl rfl)
  · rw [hfault]
    exact .fault hf

theorem msbGroup_ending {n rd ra : Nat} (hf : .msbOfZero ∈ faultsOf i) : LegalEnding i s (msbGroup n rd ra s) := by
  obtain ⟨-, hfault⟩ | ⟨-, hnext⟩ := msbGroup_cases n rd ra s
  · rw [hfault]
    exact .fault hf
  · rw [hnext]
    exact .ok (by simp) (.inl rfl)

theorem reduceStep_ending {sticky : Bool} {rd ra rb rc : Nat} (hf : .badHi ∈ faultsOf i) :
    LegalEnding i s (reduceStep sticky rd ra rb rc s) := by
  obtain ⟨-, hfault⟩ | ⟨-, m, d, -, -, hnext⟩ := reduceStep_cases sticky rd ra rb rc s
  · rw [hfault]
    exact .fault hf
  · rw [hnext]
    exact .ok (by simp) (.inl rfl)

theorem roundGroups_ending {n rd ra rb : Nat} {sticky : Bool} (hf : .roundPrecondition ∈ faultsOf i) :
    LegalEnding i s (roundGroups n rd ra rb sticky s) := by
  obtain ⟨-, hfault⟩ | ⟨-, sum, -, hnext⟩ := roundGroups_cases n rd ra rb sticky s
  · rw [hfault]
    exact .fault hf
  · rw [hnext]
    exact .ok (by simp) (.inl rfl)

theorem scaleWindow_ending {rd ra rb : Nat} (hf : .badHi ∈ faultsOf i) (hcode : .overflow ∈ codesOf i) :
    LegalEnding i s (scaleWindow rd ra rb s) := by
  obtain ⟨-, hfault⟩ | ⟨-, ⟨e, he, herror⟩ | ⟨q, scale, -, hnext⟩⟩ := scaleWindow_cases rd ra rb s
  · rw [hfault]
    exact .fault hf
  · obtain rfl := scaleResult_error he
    rw [herror]
    exact .error hcode (.inl rfl)
  · rw [hnext]
    exact .ok (by simp) (.inl rfl)

/-- A Decimal command ends with an error of its own where its function answers none but these (R26, R228). -/
theorem decimalCommand_ending {f : Decimal → Decimal → Except Code Decimal} {rd ra rb : Nat}
    (hf : .badScale ∈ faultsOf i)
    (herr : ∀ a b e, validDecimal a → validDecimal b → f a b = .error e →
      e ∈ codesOf i ∧ (e = .overflow ∨ e = .divideByZero)) :
    LegalEnding i s (decimalCommand f rd ra rb s) := by
  obtain ⟨-, hfault⟩ | ⟨ha, hb, ⟨d, -, hnext⟩ | ⟨e, he, herror⟩⟩ := decimalCommand_cases f rd ra rb s
  · rw [hfault]
    exact .fault hf
  · rw [hnext]
    exact .ok (by simp) (.inl rfl)
  · obtain ⟨hcode, hown⟩ := herr _ _ e ⟨ha, mant_decimal_lt s ra⟩ ⟨hb, mant_decimal_lt s rb⟩ he
    rw [herror]
    exact .error hcode hown

end

/-! The errors of the Decimal functions (R228). -/

theorem multiplyDecimal_error {a b : Decimal} {e : Code} (h : multiplyDecimal a b = .error e) : e = .overflow := by
  by_cases hp : a.mant * b.mant = 0
  · cases (multiplyDecimal_of_zero hp).symm.trans h
  · cases hres : scaleResult (a.mant * b.mant) (a.scale + b.scale) with
    | ok p => cases (multiplyDecimal_of_ok hp hres).symm.trans h
    | error e' =>
      cases (multiplyDecimal_of_error hp hres).symm.trans h
      exact scaleResult_error hres

theorem addSubDecimal_error {sub : Bool} {a b : Decimal} {e : Code} (ha : validDecimal a) (hb : validDecimal b)
    (h : addSubDecimal sub a b = .error e) : e = .overflow := by
  rw [addSubDecimal_eq sub ha.2 hb.2] at h
  obtain ⟨s', q, -, hok⟩ | ⟨-, hover⟩ :=
    fitDecimal_cases (exactSum a (termOf sub b)).natAbs (max a.scale b.scale)
  · cases (hok _).symm.trans h
  · cases (hover _).symm.trans h
    rfl

/-- `Divide` answers `DivideByZero` for a zero divisor, and no error but `Overflow` for any other (R228, R230). -/
theorem divideDecimal_error {a b : Decimal} {e : Code} (ha : validDecimal a) (hb : validDecimal b)
    (h : divideDecimal a b = .error e) : b.mant = 0 ∧ e = .divideByZero ∨ b.mant ≠ 0 ∧ e = .overflow := by
  by_cases hzero : b.mant = 0
  · cases (divideDecimal_of_zero hzero).symm.trans h
    exact .inl ⟨hzero, rfl⟩
  · exact .inr ⟨hzero, ((quotientIsExactOrNearest a b ha hb hzero).2 e h).1⟩

theorem LegalEnding.ofWhenLegal {i : Instr} {s : State} {o : Outcome} (hi : i.wellFormed = true)
    (h : LegalEnding i s o) : LegalEnding i s (whenLegal i s o) := by
  rwa [whenLegal_of_legal hi]

/-- How each legal command ends (R226, R228): the case split over the commands. -/
theorem exec_legalEnding {i : Instr} (hi : i.wellFormed = true) (s : State) : LegalEnding i s (exec i s) := by
  cases i with
  | add | adc | sub | sbb | neg | mul32 | mul64x32 | mul64 | lzc32 | lzc64 | shl128 | dparse | li =>
    exact .ofWhenLegal hi (.ok (by simp) (.inl rfl))
  | rdReg ra => exact .ofWhenLegal hi (.ok rfl (.inr ⟨ra, rfl⟩))
  | div64by32 | div128by64 | div96by32 | div128by96 | div160by96 | div96by64 =>
    exact .ofWhenLegal hi (divGroups_ending (by simp [faultsOf]))
  | msb32 | msb64 => exact .ofWhenLegal hi (msbGroup_ending (by simp [faultsOf]))
  | reduce | reduceAcc | reduceClr => exact .ofWhenLegal hi (reduceStep_ending (by simp [faultsOf]))
  | scaleres => exact .ofWhenLegal hi (scaleWindow_ending (by simp [faultsOf]) (by simp [codesOf]))
  | rndhe | rndheS => exact .ofWhenLegal hi (roundGroups_ending (by simp [faultsOf]))
  | dmul =>
    refine .ofWhenLegal hi (decimalCommand_ending (by simp [faultsOf]) fun a b e _ _ h => ?_)
    exact ⟨by simp [codesOf, multiplyDecimal_error h], .inl (multiplyDecimal_error h)⟩
  | dadd | dsub =>
    refine .ofWhenLegal hi (decimalCommand_ending (by simp [faultsOf]) fun a b e ha hb h => ?_)
    exact ⟨by simp [codesOf, addSubDecimal_error ha hb h], .inl (addSubDecimal_error ha hb h)⟩
  | ddiv =>
    refine .ofWhenLegal hi (decimalCommand_ending (by simp [faultsOf]) fun a b e ha hb h => ?_)
    obtain ⟨-, rfl⟩ | ⟨-, rfl⟩ := divideDecimal_error ha hb h
    · exact ⟨by simp [codesOf], .inr rfl⟩
    · exact ⟨by simp [codesOf], .inl rfl⟩

/-! The completion code (R222, R228, R230). -/

theorem ok_mem_codesOf (i : Instr) : .ok ∈ codesOf i := by
  cases i <;> exact List.mem_cons_self ..

theorem illegalCommand_mem_codesOf (i : Instr) : .illegalCommand ∈ codesOf i := by
  cases i <;> simp [codesOf]

/-- Settles O16: an illegal command completes `IllegalCommand`, a legal one ends as `LegalEnding` says. -/
theorem outcomesPerCommand : Obligations.OutcomesPerCommand := by
  intro i s
  cases hi : i.wellFormed with
  | false =>
    exact .inl ⟨_, _, exec_of_illegal hi s, illegalCommand_mem_codesOf i, rfl, iff_of_true rfl rfl⟩
  | true =>
    have hends := exec_legalEnding hi s
    generalize exec i s = o at *
    cases hends with
    | fault hf => exact .inr ⟨_, rfl, hf, rfl⟩
    | error hcode hown =>
      refine .inl ⟨_, _, rfl, hcode, rfl, iff_of_false ?_ nofun⟩
      rintro rfl
      simp at hown
    | ok => exact .inl ⟨_, .ok, rfl, ok_mem_codesOf i, rfl, iff_of_false nofun nofun⟩

theorem code_bits_injective {code code' : Code} (h : code.bits = code'.bits) : code = code' := by
  revert h
  cases code <;> cases code' <;> decide

/-- Only `DDIV` has `DivideByZero` among its codes (R228). -/
theorem eq_ddiv_of_divideByZero {i : Instr} (h : .divideByZero ∈ codesOf i) : ∃ rd ra rb, i = .ddiv rd ra rb := by
  cases i with
  | ddiv rd ra rb => exact ⟨rd, ra, rb, rfl⟩
  | _ => simp [codesOf] at h

/-- A legal `DDIV` completes `DivideByZero` exactly for a zero divisor (R230). -/
theorem exec_ddiv_divideByZero_iff {rd ra rb : Reg} {s t : State} (hi : (Instr.ddiv rd ra rb).wellFormed = true)
    (h : exec (.ddiv rd ra rb) s = .next t) :
    t.flags.err = Code.divideByZero.bits ↔ (s.decimal rb).mant = 0 := by
  rw [exec_ddiv_of_legal hi] at h
  obtain ⟨-, hfault⟩ | ⟨ha, hb, ⟨d, hd, hnext⟩ | ⟨e, he, herror⟩⟩ := decimalCommand_cases divideDecimal rd ra rb s
  · cases hfault.symm.trans h
  · cases hnext.symm.trans h
    refine iff_of_false (fun herr => nomatch code_bits_injective (code := .ok) herr) fun hzero => ?_
    cases (divideDecimal_of_zero hzero).symm.trans hd
  · cases herror.symm.trans h
    obtain ⟨hzero, rfl⟩ | ⟨hne, rfl⟩ := divideDecimal_error ⟨ha, mant_decimal_lt s ra⟩ ⟨hb, mant_decimal_lt s rb⟩ he
    · exact iff_of_true rfl hzero
    · exact iff_of_false (fun herr => nomatch code_bits_injective (code := .overflow) herr) hne

/-- Settles O17: `DivideByZero` is among the codes of `DDIV` alone, which completes with it for a zero divisor. -/
theorem divideByZeroExactlyForZeroDivisor : Obligations.DivideByZeroExactlyForZeroDivisor := by
  refine ⟨fun i s t h => ⟨fun herr => ?_, ?_⟩, fun rd ra rb s hi ha hb hzero => ?_⟩
  · obtain ⟨t', c, ht', hcode, hbits, hlegal⟩ | ⟨f, hf, -⟩ := outcomesPerCommand i s
    · cases ht'.symm.trans h
      obtain rfl := code_bits_injective (herr.symm.trans hbits)
      obtain ⟨rd, ra, rb, rfl⟩ := eq_ddiv_of_divideByZero hcode
      have hi : (Instr.ddiv rd ra rb).wellFormed = true := by simpa using hlegal
      exact ⟨rd, ra, rb, rfl, hi, (exec_ddiv_divideByZero_iff hi h).1 herr⟩
    · cases hf.symm.trans h
  · rintro ⟨rd, ra, rb, rfl, hi, hzero⟩
    exact (exec_ddiv_divideByZero_iff hi h).2 hzero
  · exact (decimalQuotientResult rd ra rb s hi ha hb).1 hzero

end Sys2Proof.Proofs
end

section
/-! The one completion record of a command: its 40 bits and its data (R221). -/

namespace Sys2Proof.Proofs

open Sys2Proof.Machine Sys2Proof.Safety

/-- The record's bits 31:0 are its data and the bits from 32 on its flags (R221). -/
theorem getLsbD_bits (r : Completion) (k : Nat) :
    r.bits.getLsbD k = if k < 32 then r.data.getLsbD k else r.flags.getLsbD (k - 32) := by
  have happend : r.bits.getLsbD k = (r.flags ++ r.data).getLsbD k := rfl
  rw [happend, BitVec.getLsbD_append]

/-- The byte's bit 0 is `C`, bit 1 `S`, and the bits from 2 on are `ERR` (R30). -/
theorem getLsbD_byte (f : Flags) (k : Nat) :
    f.byte.getLsbD k = if k = 0 then f.c else if k = 1 then f.s else f.err.getLsbD (k - 2) := by
  have happend : f.byte.getLsbD k = (0#3 ++ f.err ++ BitVec.ofBool f.s ++ BitVec.ofBool f.c).getLsbD k := rfl
  rw [happend, BitVec.getLsbD_append, BitVec.getLsbD_append, BitVec.getLsbD_append]
  obtain _ | _ | k := k
  · simp
  · simp
  · rcases Nat.lt_or_ge k 3 with hk | hk
    · simp [hk]
    · simp [hk.not_gt, BitVec.getLsbD_of_ge _ _ hk]

/-- The fields of a completion record's 40 bits (R30, R221). -/
theorem completion_fields (data : Word) (f : Flags) :
    let bits := (Completion.mk data f.byte).bits
    bits.extractLsb' 0 32 = data ∧ bits.getLsbD 32 = f.c ∧ bits.getLsbD 33 = f.s ∧
      bits.extractLsb' 34 3 = f.err ∧ bits.extractLsb' 37 3 = 0 := by
  have hflag (k : Nat) : (Completion.mk data f.byte).bits.getLsbD (32 + k) = f.byte.getLsbD k := by
    rw [getLsbD_bits, if_neg (by omega), Nat.add_sub_cancel_left]
  have herr (k : Nat) : (Completion.mk data f.byte).bits.getLsbD (34 + k) = f.err.getLsbD k := by
    rw [show 34 + k = 32 + (2 + k) by omega, hflag, getLsbD_byte, if_neg (by omega), if_neg (by omega),
      Nat.add_sub_cancel_left]
  refine ⟨?data, (hflag 0).trans (getLsbD_byte f 0), (hflag 1).trans (getLsbD_byte f 1), ?err, ?unused⟩
  all_goals
    refine BitVec.eq_of_getLsbD_eq fun k hk => ?_
    rw [BitVec.getLsbD_extractLsb', decide_eq_true hk, Bool.true_and]
  case data => rw [getLsbD_bits, Nat.zero_add, if_pos hk]
  case err => exact herr k
  case unused =>
    rw [show 37 + k = 34 + (3 + k) by omega, herr, BitVec.getLsbD_of_ge _ _ (Nat.le_add_right 3 k)]
    exact BitVec.getLsbD_zero.symm
/-- What a command returns in its record's data (R217, R221). -/
def recordData : Instr → State → Word
  | .rdReg ra, s => s.limb ra
  | _, _ => 0

theorem recordData_of_ne {i : Instr} (h : ∀ ra, i ≠ .rdReg ra) (s : State) : recordData i s = 0 := by
  cases i with
  | rdReg ra => exact absurd rfl (h ra)
  | _ => rfl

/-- Every command that ends in a next state returns one record, with its data and the `FLAGS` after it (R221). -/
theorem exec_record {i : Instr} {s t : State} (h : exec i s = .next t) :
    t.completions = s.completions ++ [{ data := recordData i s, flags := t.flags.byte }] := by
  by_cases hrd : ∃ ra, i = .rdReg ra
  case pos =>
    obtain ⟨ra, rfl⟩ := hrd
    cases (exec_rdReg ra s).symm.trans h
    rfl
  case neg =>
    rw [recordData_of_ne fun ra hra => hrd ⟨ra, hra⟩]
    cases hi : i.wellFormed with
    | false =>
      cases (exec_of_illegal hi s).symm.trans h
      rfl
    | true =>
      have hends := exec_legalEnding hi s
      rw [h] at hends
      cases hends with
      | error => rfl
      | ok hrecords hdata =>
        obtain rfl := hdata.resolve_right hrd
        rw [State.complete_completions, hrecords]
        rfl

/-- Settles O14: an illegal command's record has data 0, a legal one's has what `recordData` says. -/
theorem oneCompletionRecordPerCommand : Obligations.OneCompletionRecordPerCommand := by
  intro s t hcomplete h
  obtain ⟨rest, ⟨why, hd, rfl⟩ | ⟨i, hd, ht⟩⟩ := step_next_cases hcomplete h
  · rw [hd]
    exact ⟨_, rfl, completion_fields 0 _⟩
  · have hrecord := exec_record ht
    obtain ⟨hdata, hflags⟩ := completion_fields (recordData i { s with commands := rest }) t.flags
    refine ⟨_, hrecord, hdata.trans ?_, hflags⟩
    rw [hd]
    cases i <;> rfl

end Sys2Proof.Proofs
end
